-- ==== Sys2Proof/Word.lean ====
section
/-!
DEFINITION. The word of the machine and its plainest arithmetic (spec/00_scope.md R4, R6).
-/
namespace Sys2Proof

/-- A register, a memory word or an instruction: 32 bits (R4, `XLEN`). -/
abbrev Word := BitVec 32

/-- A register number `x0` to `x15`, the 4-bit field that names it (R10, R71). -/
abbrev Reg := BitVec 4

/-- `wrap(n)`: the word congruent to the mathematical integer `n` modulo 2^32 (R6). -/
def wrap (n : Int) : Word := BitVec.ofInt 32 n

end Sys2Proof
end

