-- ==== Sys2Proof/Syntax.lean ====
section
/-!
DEFINITION. The instructions: one constructor per row of spec/opcode_table.json (spec/30_encoding.md R70
to R82, R93). Register numbers are the 4-bit fields `d`, `r` and (for the field `s`) `x`; immediates keep the
width of their field; `f` is bit 4 (flags or link); the condition stands last.
-/
namespace Sys2Proof

/-- The conditions that decode: codes 0 to 12 and 15; 13 and 14 are reserved (R100, R101). -/
inductive Cond where
  | always | eq | ne | ng | pz | lt | le | gt | ge | vs | vc | es | ec | never
  deriving DecidableEq, Repr

/-- The twelve arithmetic and logic operations, opcodes 0 to 11 (R81). -/
inductive AluOp where
  | add | sub | sbn | mul | div | mod | exp | shl | shr | and | orr | xor
  deriving DecidableEq, Repr

/-- What the opcode field of a word names: eighteen of its thirty-two values (R81). -/
inductive Opcode where
  | alu (op : AluOp)
  | ldr | str | ldh | b | setf | stop
  deriving DecidableEq, Repr

/-- Why the decoder refuses a word: each reason is a class of reserved words of the spec. -/
inductive Reserved where
  /-- Condition codes 1101 and 1110 (R101, entry RES5). -/
  | reservedCondition
  /-- Opcodes 12 to 15, 19 to 27 and 31 (R85, entry RES3). -/
  | unassignedOpcode
  /-- `ldr`, `str`, `ldh` with a nonzero first operand field (R84, entry RES2). -/
  | firstOperandNotZero
  /-- A field the instruction does not use is nonzero (R86, entry RES4). -/
  | unusedFieldNotZero
  /-- Bit 4 has the value the instruction does not admit (R87, entry RES4). -/
  | flagBit
  /-- `brk` or `wait` outside R-type (R82, R203, entry RES6). -/
  | formatPairing
  /-- Opcode 30 with an `s` field other than 0, 11, 12 (R203, entry RES4). -/
  | timerSelector
  deriving DecidableEq, Repr

/-- The instructions. The last nine constructors are the pseudo-instructions of R93: assembler spellings
whose words decode to the first class instruction they stand for. -/
inductive Instr where
  /-- `add<s><cond> xd xr xs`, R-type (R121). -/
  | addR (d r x : Reg) (f : Bool) (c : Cond)
  /-- `add<s><cond> xd xr imm`, I-type (R121). -/
  | addI (d r : Reg) (imm : BitVec 12) (f : Bool) (c : Cond)
  /-- `add<s><cond> xd x0 imm`, A-type (R121). -/
  | addA (d : Reg) (imm : BitVec 16) (f : Bool) (c : Cond)
  /-- The L-type word of `add`: reserved, effect described (R83, R134). -/
  | addL (imm : BitVec 20) (f : Bool) (c : Cond)
  /-- `sub<s><cond> xd xr xs`, R-type (R122). -/
  | subR (d r x : Reg) (f : Bool) (c : Cond)
  /-- `sub<s><cond> xd xr imm`, I-type (R122). -/
  | subI (d r : Reg) (imm : BitVec 12) (f : Bool) (c : Cond)
  /-- `sub<s><cond> xd x0 imm`, A-type (R122). -/
  | subA (d : Reg) (imm : BitVec 16) (f : Bool) (c : Cond)
  /-- The L-type word of `sub`: reserved, effect described (R83, R134). -/
  | subL (imm : BitVec 20) (f : Bool) (c : Cond)
  /-- `sbn<s><cond> xd xr xs`, R-type (R123). -/
  | sbnR (d r x : Reg) (f : Bool) (c : Cond)
  /-- `sbn<s><cond> xd xr imm`, I-type (R123). -/
  | sbnI (d r : Reg) (imm : BitVec 12) (f : Bool) (c : Cond)
  /-- `sbn<s><cond> xd x0 imm`, A-type (R123). -/
  | sbnA (d : Reg) (imm : BitVec 16) (f : Bool) (c : Cond)
  /-- The L-type word of `sbn`: reserved, effect described (R83, R134). -/
  | sbnL (imm : BitVec 20) (f : Bool) (c : Cond)
  /-- `mul<s><cond> xd xr xs`, R-type (R124). -/
  | mulR (d r x : Reg) (f : Bool) (c : Cond)
  /-- `mul<s><cond> xd xr imm`, I-type (R124). -/
  | mulI (d r : Reg) (imm : BitVec 12) (f : Bool) (c : Cond)
  /-- `mul<s><cond> xd x0 imm`, A-type (R124). -/
  | mulA (d : Reg) (imm : BitVec 16) (f : Bool) (c : Cond)
  /-- The L-type word of `mul`: reserved, effect described (R83, R134). -/
  | mulL (imm : BitVec 20) (f : Bool) (c : Cond)
  /-- `div<s><cond> xd xr xs`, R-type (R125). -/
  | divR (d r x : Reg) (f : Bool) (c : Cond)
  /-- `div<s><cond> xd xr imm`, I-type (R125). -/
  | divI (d r : Reg) (imm : BitVec 12) (f : Bool) (c : Cond)
  /-- `div<s><cond> xd x0 imm`, A-type (R125). -/
  | divA (d : Reg) (imm : BitVec 16) (f : Bool) (c : Cond)
  /-- The L-type word of `div`: reserved, effect described (R83, R134). -/
  | divL (imm : BitVec 20) (f : Bool) (c : Cond)
  /-- `mod<s><cond> xd xr xs`, R-type (R126). -/
  | modR (d r x : Reg) (f : Bool) (c : Cond)
  /-- `mod<s><cond> xd xr imm`, I-type (R126). -/
  | modI (d r : Reg) (imm : BitVec 12) (f : Bool) (c : Cond)
  /-- `mod<s><cond> xd x0 imm`, A-type (R126). -/
  | modA (d : Reg) (imm : BitVec 16) (f : Bool) (c : Cond)
  /-- The L-type word of `mod`: reserved, effect described (R83, R134). -/
  | modL (imm : BitVec 20) (f : Bool) (c : Cond)
  /-- `exp<s><cond> xd xr xs`, R-type (R127). -/
  | expR (d r x : Reg) (f : Bool) (c : Cond)
  /-- `exp<s><cond> xd xr imm`, I-type (R127). -/
  | expI (d r : Reg) (imm : BitVec 12) (f : Bool) (c : Cond)
  /-- `exp<s><cond> xd x0 imm`, A-type (R127). -/
  | expA (d : Reg) (imm : BitVec 16) (f : Bool) (c : Cond)
  /-- The L-type word of `exp`: reserved, effect described (R83, R134). -/
  | expL (imm : BitVec 20) (f : Bool) (c : Cond)
  /-- `shl<s><cond> xd xr xs`, R-type (R128). -/
  | shlR (d r x : Reg) (f : Bool) (c : Cond)
  /-- `shl<s><cond> xd xr imm`, I-type (R128). -/
  | shlI (d r : Reg) (imm : BitVec 12) (f : Bool) (c : Cond)
  /-- `shl<s><cond> xd x0 imm`, A-type (R128). -/
  | shlA (d : Reg) (imm : BitVec 16) (f : Bool) (c : Cond)
  /-- The L-type word of `shl`: reserved, effect described (R83, R134). -/
  | shlL (imm : BitVec 20) (f : Bool) (c : Cond)
  /-- `shr<s><cond> xd xr xs`, R-type (R129). -/
  | shrR (d r x : Reg) (f : Bool) (c : Cond)
  /-- `shr<s><cond> xd xr imm`, I-type (R129). -/
  | shrI (d r : Reg) (imm : BitVec 12) (f : Bool) (c : Cond)
  /-- `shr<s><cond> xd x0 imm`, A-type (R129). -/
  | shrA (d : Reg) (imm : BitVec 16) (f : Bool) (c : Cond)
  /-- The L-type word of `shr`: reserved, effect described (R83, R134). -/
  | shrL (imm : BitVec 20) (f : Bool) (c : Cond)
  /-- `and<s><cond> xd xr xs`, R-type (R130). -/
  | andR (d r x : Reg) (f : Bool) (c : Cond)
  /-- `and<s><cond> xd xr imm`, I-type (R130). -/
  | andI (d r : Reg) (imm : BitVec 12) (f : Bool) (c : Cond)
  /-- `and<s><cond> xd x0 imm`, A-type (R130). -/
  | andA (d : Reg) (imm : BitVec 16) (f : Bool) (c : Cond)
  /-- The L-type word of `and`: reserved, effect described (R83, R134). -/
  | andL (imm : BitVec 20) (f : Bool) (c : Cond)
  /-- `orr<s><cond> xd xr xs`, R-type (R131). -/
  | orrR (d r x : Reg) (f : Bool) (c : Cond)
  /-- `orr<s><cond> xd xr imm`, I-type (R131). -/
  | orrI (d r : Reg) (imm : BitVec 12) (f : Bool) (c : Cond)
  /-- `orr<s><cond> xd x0 imm`, A-type (R131). -/
  | orrA (d : Reg) (imm : BitVec 16) (f : Bool) (c : Cond)
  /-- The L-type word of `orr`: reserved, effect described (R83, R134). -/
  | orrL (imm : BitVec 20) (f : Bool) (c : Cond)
  /-- `xor<s><cond> xd xr xs`, R-type (R132). -/
  | xorR (d r x : Reg) (f : Bool) (c : Cond)
  /-- `xor<s><cond> xd xr imm`, I-type (R132). -/
  | xorI (d r : Reg) (imm : BitVec 12) (f : Bool) (c : Cond)
  /-- `xor<s><cond> xd x0 imm`, A-type (R132). -/
  | xorA (d : Reg) (imm : BitVec 16) (f : Bool) (c : Cond)
  /-- The L-type word of `xor`: reserved, effect described (R83, R134). -/
  | xorL (imm : BitVec 20) (f : Bool) (c : Cond)
  /-- `ldr` at `x[x]` with address modification `v`, `u` (R161, R164). -/
  | ldrR (d x : Reg) (v : BitVec 7) (u : Bool) (f : Bool) (c : Cond)
  /-- `ldr xd imm`, I-type (R161). -/
  | ldrI (d : Reg) (imm : BitVec 12) (f : Bool) (c : Cond)
  /-- `ldr xd imm`, A-type (R161). -/
  | ldrA (d : Reg) (imm : BitVec 16) (f : Bool) (c : Cond)
  /-- `ldr` in L-type, `d` is `x0`: inferred (R161, R82). -/
  | ldrL (imm : BitVec 20) (f : Bool) (c : Cond)
  /-- `str` at `x[x]` with address modification `v`, `u` (R162, R164). -/
  | strR (d x : Reg) (v : BitVec 7) (u : Bool) (c : Cond)
  /-- `str xd imm`, I-type (R162). -/
  | strI (d : Reg) (imm : BitVec 12) (c : Cond)
  /-- `str xd imm`, A-type (R162). -/
  | strA (d : Reg) (imm : BitVec 16) (c : Cond)
  /-- `str` in L-type, `d` is `x0`: inferred (R162, R82). -/
  | strL (imm : BitVec 20) (c : Cond)
  /-- `ldh` of the low half of `x[x]`: inferred (R163, R82). -/
  | ldhR (d x : Reg) (f : Bool) (c : Cond)
  /-- `ldh` of the low half of a 12-bit immediate: inferred (R163, R82). -/
  | ldhI (d : Reg) (imm : BitVec 12) (f : Bool) (c : Cond)
  /-- `ldh<s><cond> xd imm`, A-type (R163). -/
  | ldhA (d : Reg) (imm : BitVec 16) (f : Bool) (c : Cond)
  /-- `ldh` in L-type, `d` is `x0`: inferred (R163, R82). -/
  | ldhL (imm : BitVec 20) (f : Bool) (c : Cond)
  /-- Opcode 28 with a register offset; `f` links (R191). -/
  | bR (x : Reg) (f : Bool) (c : Cond)
  /-- Opcode 28 in I-type: inferred (R191). -/
  | bI (imm : BitVec 12) (f : Bool) (c : Cond)
  /-- Opcode 28 in A-type: inferred (R191). -/
  | bA (imm : BitVec 16) (f : Bool) (c : Cond)
  /-- `b<l><cond> imm`, L-type; `f` links (R190). -/
  | bL (imm : BitVec 20) (f : Bool) (c : Cond)
  /-- `setf<cond> xs` (R200). -/
  | setfR (x : Reg) (c : Cond)
  /-- `setf<cond> imm`, I-type (R200). -/
  | setfI (imm : BitVec 12) (c : Cond)
  /-- `setf<cond> imm`, A-type (R200). -/
  | setfA (imm : BitVec 16) (c : Cond)
  /-- `setf<cond> imm`, L-type (R200). -/
  | setfL (imm : BitVec 20) (c : Cond)
  /-- `brk<cond>` (R201). -/
  | brkR (c : Cond)
  /-- `wait<cond> t1` (R202). -/
  | waitT1 (c : Cond)
  /-- `wait<cond> t2` (R202). -/
  | waitT2 (c : Cond)
  /-- `mov<s><cond> xd xs` (R136). -/
  | movR (d x : Reg) (f : Bool) (c : Cond)
  /-- `mov<s><cond> xd imm` (R136). -/
  | movA (d : Reg) (imm : BitVec 16) (f : Bool) (c : Cond)
  /-- `cmp<cond> xr xs` (R137). -/
  | cmpR (r x : Reg) (c : Cond)
  /-- `cmp<cond> xr imm` (R137). -/
  | cmpI (r : Reg) (imm : BitVec 12) (c : Cond)
  /-- `nop<cond>` (R138). -/
  | nopR (c : Cond)
  /-- `not<s><cond> xd xr` (R139). -/
  | notI (d r : Reg) (f : Bool) (c : Cond)
  /-- `push<cond> xd` (R168). -/
  | pushR (d : Reg) (c : Cond)
  /-- `pop<s><cond> xd` (R169). -/
  | popR (d : Reg) (f : Bool) (c : Cond)
  /-- `b<cond> xs`, the branch to the address a register holds (R192). -/
  | bxsR (x : Reg) (c : Cond)
  deriving DecidableEq, Repr

end Sys2Proof
end

