-- ==== Sys2Proof/Decode.lean ====
section
/-!
DEFINITION. From a word to an instruction and back (spec/30_encoding.md R70 to R88, 40 R101, 44 R203). The
decoder is total and refuses by name; it answers first class instructions only. The encoder gives every
constructor its word, a pseudo-instruction the word of the first class instruction it stands for (R93).
-/
namespace Sys2Proof

/-- The condition a 4-bit code names; 1101 and 1110 are reserved (R100, R101). -/
def Cond.ofBits (b : BitVec 4) : Option Cond :=
  match b.toNat with
  | 0 => some .always | 1 => some .eq | 2 => some .ne | 3 => some .ng | 4 => some .pz | 5 => some .lt
  | 6 => some .le | 7 => some .gt | 8 => some .ge | 9 => some .vs | 10 => some .vc | 11 => some .es
  | 12 => some .ec | 15 => some .never | _ => none

/-- The code of a condition (R100). -/
def Cond.toBits : Cond → BitVec 4
  | .always => 0 | .eq => 1 | .ne => 2 | .ng => 3 | .pz => 4 | .lt => 5 | .le => 6 | .gt => 7 | .ge => 8
  | .vs => 9 | .vc => 10 | .es => 11 | .ec => 12 | .never => 15

/-- What a 5-bit opcode names (R81). -/
def Opcode.ofBits (b : BitVec 5) : Option Opcode :=
  match b.toNat with
  | 0 => some (.alu .add) | 1 => some (.alu .sub) | 2 => some (.alu .sbn)
  | 3 => some (.alu .mul) | 4 => some (.alu .div) | 5 => some (.alu .mod)
  | 6 => some (.alu .exp) | 7 => some (.alu .shl) | 8 => some (.alu .shr)
  | 9 => some (.alu .and) | 10 => some (.alu .orr) | 11 => some (.alu .xor)
  | 16 => some .ldr | 17 => some .str | 18 => some .ldh | 28 => some .b | 29 => some .setf | 30 => some .stop
  | _ => none

/-- The code of an opcode (R81). -/
def Opcode.toBits : Opcode → BitVec 5
  | .alu .add => 0 | .alu .sub => 1 | .alu .sbn => 2 | .alu .mul => 3
  | .alu .div => 4 | .alu .mod => 5 | .alu .exp => 6 | .alu .shl => 7
  | .alu .shr => 8 | .alu .and => 9 | .alu .orr => 10 | .alu .xor => 11
  | .ldr => 16 | .str => 17 | .ldh => 18 | .b => 28 | .setf => 29 | .stop => 30

/-- The fields of a word, at the same place in every format that has them (R71 to R74, R78). -/
def condField (w : Word) : BitVec 4 := w.extractLsb' 0 4
/-- Bit 4, flags enable or link enable (R78, R87). -/
def flagField (w : Word) : Bool := w.getLsbD 4
/-- Bits 6:5, the format (R70). -/
def fmtField (w : Word) : BitVec 2 := w.extractLsb' 5 2
/-- Bits 11:7, the opcode (R78). -/
def opField (w : Word) : BitVec 5 := w.extractLsb' 7 5
/-- Bits 15:12, destination or source register (R78). -/
def dField (w : Word) : Reg := w.extractLsb' 12 4
/-- Bits 19:16, first operand register (R78). -/
def rField (w : Word) : Reg := w.extractLsb' 16 4
/-- Bits 23:20, second operand register of R-type (R71). -/
def sField (w : Word) : Reg := w.extractLsb' 20 4
/-- Bits 31:24, the `e` field of R-type (R71). -/
def eField (w : Word) : BitVec 8 := w.extractLsb' 24 8
/-- Bits 31:20, the I-type immediate (R72). -/
def imm12Field (w : Word) : BitVec 12 := w.extractLsb' 20 12
/-- Bits 31:16, the A-type immediate (R73). -/
def imm16Field (w : Word) : BitVec 16 := w.extractLsb' 16 16
/-- Bits 31:12, the L-type immediate (R74). -/
def imm20Field (w : Word) : BitVec 20 := w.extractLsb' 12 20
/-- The 7-bit two's complement value of `e` (R164). -/
def vOfE (e : BitVec 8) : BitVec 7 := e.extractLsb' 1 7
/-- The pre or post bit of `e` (R164). -/
def uOfE (e : BitVec 8) : Bool := e.getLsbD 0

/-- The R-type constructor of an ALU operation (R81, R82). -/
def aluR (op : AluOp) (d r x : Reg) (f : Bool) (c : Cond) : Instr :=
  match op with
  | .add => .addR d r x f c | .sub => .subR d r x f c | .sbn => .sbnR d r x f c
  | .mul => .mulR d r x f c | .div => .divR d r x f c | .mod => .modR d r x f c
  | .exp => .expR d r x f c | .shl => .shlR d r x f c | .shr => .shrR d r x f c
  | .and => .andR d r x f c | .orr => .orrR d r x f c | .xor => .xorR d r x f c

/-- The I-type constructor of an ALU operation (R81, R82). -/
def aluI (op : AluOp) (d r : Reg) (imm : BitVec 12) (f : Bool) (c : Cond) : Instr :=
  match op with
  | .add => .addI d r imm f c | .sub => .subI d r imm f c | .sbn => .sbnI d r imm f c
  | .mul => .mulI d r imm f c | .div => .divI d r imm f c | .mod => .modI d r imm f c
  | .exp => .expI d r imm f c | .shl => .shlI d r imm f c | .shr => .shrI d r imm f c
  | .and => .andI d r imm f c | .orr => .orrI d r imm f c | .xor => .xorI d r imm f c

/-- The A-type constructor of an ALU operation (R81, R82). -/
def aluA (op : AluOp) (d : Reg) (imm : BitVec 16) (f : Bool) (c : Cond) : Instr :=
  match op with
  | .add => .addA d imm f c | .sub => .subA d imm f c | .sbn => .sbnA d imm f c
  | .mul => .mulA d imm f c | .div => .divA d imm f c | .mod => .modA d imm f c
  | .exp => .expA d imm f c | .shl => .shlA d imm f c | .shr => .shrA d imm f c
  | .and => .andA d imm f c | .orr => .orrA d imm f c | .xor => .xorA d imm f c

/-- The L-type constructor of an ALU operation (R81, R82). -/
def aluL (op : AluOp) (imm : BitVec 20) (f : Bool) (c : Cond) : Instr :=
  match op with
  | .add => .addL imm f c | .sub => .subL imm f c | .sbn => .sbnL imm f c
  | .mul => .mulL imm f c | .div => .divL imm f c | .mod => .modL imm f c
  | .exp => .expL imm f c | .shl => .shlL imm f c | .shr => .shrL imm f c
  | .and => .andL imm f c | .orr => .orrL imm f c | .xor => .xorL imm f c

/-- An instruction if the field conditions hold, else the reason the word is reserved. -/
def acceptIf (ok : Bool) (why : Reserved) (rest : Except Reserved Instr) : Except Reserved Instr :=
  if ok then rest else .error why

/-- R-type words: which fields an instruction must leave 0 (R84, R86), which value bit 4 must have (R87), and
which timer selectors opcode 30 admits (R203). -/
def decodeR (o : Opcode) (e : BitVec 8) (x r d : Reg) (f : Bool) (c : Cond) : Except Reserved Instr :=
  match o with
  | .alu op => acceptIf (e == 0#8) .unusedFieldNotZero (.ok (aluR op d r x f c))
  | .ldr => acceptIf (r == 0#4) .firstOperandNotZero (.ok (.ldrR d x (vOfE e) (uOfE e) f c))
  | .str => acceptIf (r == 0#4) .firstOperandNotZero (acceptIf (!f) .flagBit (.ok (.strR d x (vOfE e) (uOfE e) c)))
  | .ldh => acceptIf (r == 0#4) .firstOperandNotZero (acceptIf (e == 0#8) .unusedFieldNotZero (.ok (.ldhR d x f c)))
  | .b => acceptIf (e == 0#8 && r == 0#4 && d == 0#4) .unusedFieldNotZero (.ok (.bR x f c))
  | .setf => acceptIf (e == 0#8 && r == 0#4 && d == 0#4) .unusedFieldNotZero (acceptIf f .flagBit (.ok (.setfR x c)))
  | .stop =>
    acceptIf (e == 0#8 && r == 0#4 && d == 0#4) .unusedFieldNotZero (acceptIf (!f) .flagBit
      (if x = 0#4 then .ok (.brkR c) else if x = 11#4 then .ok (.waitT1 c) else if x = 12#4 then .ok (.waitT2 c)
        else .error .timerSelector))

/-- I-type words (R72, R82, R84, R86, R87). -/
def decodeI (o : Opcode) (imm : BitVec 12) (r d : Reg) (f : Bool) (c : Cond) : Except Reserved Instr :=
  match o with
  | .alu op => .ok (aluI op d r imm f c)
  | .ldr => acceptIf (r == 0#4) .firstOperandNotZero (.ok (.ldrI d imm f c))
  | .str => acceptIf (r == 0#4) .firstOperandNotZero (acceptIf (!f) .flagBit (.ok (.strI d imm c)))
  | .ldh => acceptIf (r == 0#4) .firstOperandNotZero (.ok (.ldhI d imm f c))
  | .b => acceptIf (r == 0#4 && d == 0#4) .unusedFieldNotZero (.ok (.bI imm f c))
  | .setf => acceptIf (r == 0#4 && d == 0#4) .unusedFieldNotZero (acceptIf f .flagBit (.ok (.setfI imm c)))
  | .stop => .error .formatPairing

/-- A-type words (R73, R82, R86, R87). -/
def decodeA (o : Opcode) (imm : BitVec 16) (d : Reg) (f : Bool) (c : Cond) : Except Reserved Instr :=
  match o with
  | .alu op => .ok (aluA op d imm f c)
  | .ldr => .ok (.ldrA d imm f c)
  | .str => acceptIf (!f) .flagBit (.ok (.strA d imm c))
  | .ldh => .ok (.ldhA d imm f c)
  | .b => acceptIf (d == 0#4) .unusedFieldNotZero (.ok (.bA imm f c))
  | .setf => acceptIf (d == 0#4) .unusedFieldNotZero (acceptIf f .flagBit (.ok (.setfA imm c)))
  | .stop => .error .formatPairing

/-- L-type words (R74, R82, R83, R87). -/
def decodeL (o : Opcode) (imm : BitVec 20) (f : Bool) (c : Cond) : Except Reserved Instr :=
  match o with
  | .alu op => .ok (aluL op imm f c)
  | .ldr => .ok (.ldrL imm f c)
  | .str => acceptIf (!f) .flagBit (.ok (.strL imm c))
  | .ldh => .ok (.ldhL imm f c)
  | .b => .ok (.bL imm f c)
  | .setf => acceptIf f .flagBit (.ok (.setfL imm c))
  | .stop => .error .formatPairing

/-- `Decode` with the condition and the opcode already named: the format selects the fields (R70, R80). -/
def decodeFormat (o : Opcode) (c : Cond) (w : Word) : Except Reserved Instr :=
  match (fmtField w).toNat with
  | 0 => decodeR o (eField w) (sField w) (rField w) (dField w) (flagField w) c
  | 1 => decodeI o (imm12Field w) (rField w) (dField w) (flagField w) c
  | 2 => decodeA o (imm16Field w) (dField w) (flagField w) c
  | _ => decodeL o (imm20Field w) (flagField w) c

/-- `Decode` (R80): the instruction a word is, or the reason it is reserved (R85, R101). -/
def decode (w : Word) : Except Reserved Instr :=
  match Cond.ofBits (condField w) with
  | none => .error .reservedCondition
  | some c =>
    match Opcode.ofBits (opField w) with
    | none => .error .unassignedOpcode
    | some o => decodeFormat o c w

/-- The decoder as a partial answer, on a word given as a number: bit 0 is the least significant bit of the one
word an instruction has (R70). -/
def decodeTableWord (nbits w : Nat) : Option Instr := (decode (BitVec.ofNat 32 (w % 2 ^ nbits))).toOption

/-- The low twelve bits, alike in all formats: `op<<7 | fmt<<5 | f<<4 | cond` (R78). -/
def lowBits (o : Opcode) (fmt : BitVec 2) (f : Bool) (c : Cond) : Word :=
  o.toBits.setWidth 32 <<< 7 ||| fmt.setWidth 32 <<< 5 ||| (BitVec.ofBool f).setWidth 32 <<< 4 ||| c.toBits.setWidth 32

/-- An R-type word: `e<<24 | s<<20 | r<<16 | d<<12` above the low bits (R71). -/
def wordR (o : Opcode) (e : BitVec 8) (x r d : Reg) (f : Bool) (c : Cond) : Word :=
  e.setWidth 32 <<< 24 ||| x.setWidth 32 <<< 20 ||| r.setWidth 32 <<< 16 ||| d.setWidth 32 <<< 12 ||| lowBits o 0#2 f c

/-- An I-type word: `imm12<<20 | r<<16 | d<<12` above the low bits (R72). -/
def wordI (o : Opcode) (imm : BitVec 12) (r d : Reg) (f : Bool) (c : Cond) : Word :=
  imm.setWidth 32 <<< 20 ||| r.setWidth 32 <<< 16 ||| d.setWidth 32 <<< 12 ||| lowBits o 1#2 f c

/-- An A-type word: `imm16<<16 | d<<12` above the low bits (R73). -/
def wordA (o : Opcode) (imm : BitVec 16) (d : Reg) (f : Bool) (c : Cond) : Word :=
  imm.setWidth 32 <<< 16 ||| d.setWidth 32 <<< 12 ||| lowBits o 2#2 f c

/-- An L-type word: `imm20<<12` above the low bits (R74). -/
def wordL (o : Opcode) (imm : BitVec 20) (f : Bool) (c : Cond) : Word :=
  imm.setWidth 32 <<< 12 ||| lowBits o 3#2 f c

/-- The `e` field of an `ldr` or `str`: `vvvv vvvu` (R164). -/
def eOf (v : BitVec 7) (u : Bool) : BitVec 8 := v.setWidth 8 <<< 1 ||| (BitVec.ofBool u).setWidth 8

/-- The first class instruction an instruction stands for: itself, or the translation of a pseudo-instruction
(R93, R136 to R139, R168, R169, R192). -/
def Instr.expand : Instr → Instr
  | .movR d x f c => .addR d 0#4 x f c
  | .movA d imm f c => .addA d imm f c
  | .cmpR r x c => .subR 0#4 r x true c
  | .cmpI r imm c => .subI 0#4 r imm true c
  | .nopR c => .addR 0#4 0#4 0#4 false c
  | .notI d r f c => .xorI d r 0xFFF#12 f c
  | .pushR d c => .strR d 13#4 127#7 true c
  | .popR d f c => .ldrR d 13#4 1#7 false f c
  | .bxsR x c => .addR 15#4 0#4 x false c
  | i => i

/-- The word of an instruction (R71 to R74, R81, R87, R93, R203). -/
def encode (i : Instr) : Word :=
  match i with
  | .addR d r x f c => wordR (.alu .add) 0 x r d f c
  | .addI d r imm f c => wordI (.alu .add) imm r d f c
  | .addA d imm f c => wordA (.alu .add) imm d f c
  | .addL imm f c => wordL (.alu .add) imm f c
  | .subR d r x f c => wordR (.alu .sub) 0 x r d f c
  | .subI d r imm f c => wordI (.alu .sub) imm r d f c
  | .subA d imm f c => wordA (.alu .sub) imm d f c
  | .subL imm f c => wordL (.alu .sub) imm f c
  | .sbnR d r x f c => wordR (.alu .sbn) 0 x r d f c
  | .sbnI d r imm f c => wordI (.alu .sbn) imm r d f c
  | .sbnA d imm f c => wordA (.alu .sbn) imm d f c
  | .sbnL imm f c => wordL (.alu .sbn) imm f c
  | .mulR d r x f c => wordR (.alu .mul) 0 x r d f c
  | .mulI d r imm f c => wordI (.alu .mul) imm r d f c
  | .mulA d imm f c => wordA (.alu .mul) imm d f c
  | .mulL imm f c => wordL (.alu .mul) imm f c
  | .divR d r x f c => wordR (.alu .div) 0 x r d f c
  | .divI d r imm f c => wordI (.alu .div) imm r d f c
  | .divA d imm f c => wordA (.alu .div) imm d f c
  | .divL imm f c => wordL (.alu .div) imm f c
  | .modR d r x f c => wordR (.alu .mod) 0 x r d f c
  | .modI d r imm f c => wordI (.alu .mod) imm r d f c
  | .modA d imm f c => wordA (.alu .mod) imm d f c
  | .modL imm f c => wordL (.alu .mod) imm f c
  | .expR d r x f c => wordR (.alu .exp) 0 x r d f c
  | .expI d r imm f c => wordI (.alu .exp) imm r d f c
  | .expA d imm f c => wordA (.alu .exp) imm d f c
  | .expL imm f c => wordL (.alu .exp) imm f c
  | .shlR d r x f c => wordR (.alu .shl) 0 x r d f c
  | .shlI d r imm f c => wordI (.alu .shl) imm r d f c
  | .shlA d imm f c => wordA (.alu .shl) imm d f c
  | .shlL imm f c => wordL (.alu .shl) imm f c
  | .shrR d r x f c => wordR (.alu .shr) 0 x r d f c
  | .shrI d r imm f c => wordI (.alu .shr) imm r d f c
  | .shrA d imm f c => wordA (.alu .shr) imm d f c
  | .shrL imm f c => wordL (.alu .shr) imm f c
  | .andR d r x f c => wordR (.alu .and) 0 x r d f c
  | .andI d r imm f c => wordI (.alu .and) imm r d f c
  | .andA d imm f c => wordA (.alu .and) imm d f c
  | .andL imm f c => wordL (.alu .and) imm f c
  | .orrR d r x f c => wordR (.alu .orr) 0 x r d f c
  | .orrI d r imm f c => wordI (.alu .orr) imm r d f c
  | .orrA d imm f c => wordA (.alu .orr) imm d f c
  | .orrL imm f c => wordL (.alu .orr) imm f c
  | .xorR d r x f c => wordR (.alu .xor) 0 x r d f c
  | .xorI d r imm f c => wordI (.alu .xor) imm r d f c
  | .xorA d imm f c => wordA (.alu .xor) imm d f c
  | .xorL imm f c => wordL (.alu .xor) imm f c
  | .ldrR d x v u f c => wordR .ldr (eOf v u) x 0 d f c
  | .ldrI d imm f c => wordI .ldr imm 0 d f c
  | .ldrA d imm f c => wordA .ldr imm d f c
  | .ldrL imm f c => wordL .ldr imm f c
  | .strR d x v u c => wordR .str (eOf v u) x 0 d false c
  | .strI d imm c => wordI .str imm 0 d false c
  | .strA d imm c => wordA .str imm d false c
  | .strL imm c => wordL .str imm false c
  | .ldhR d x f c => wordR .ldh 0 x 0 d f c
  | .ldhI d imm f c => wordI .ldh imm 0 d f c
  | .ldhA d imm f c => wordA .ldh imm d f c
  | .ldhL imm f c => wordL .ldh imm f c
  | .bR x f c => wordR .b 0 x 0 0 f c
  | .bI imm f c => wordI .b imm 0 0 f c
  | .bA imm f c => wordA .b imm 0 f c
  | .bL imm f c => wordL .b imm f c
  | .setfR x c => wordR .setf 0 x 0 0 true c
  | .setfI imm c => wordI .setf imm 0 0 true c
  | .setfA imm c => wordA .setf imm 0 true c
  | .setfL imm c => wordL .setf imm true c
  | .brkR c => wordR .stop 0 0 0 0 false c
  | .waitT1 c => wordR .stop 0 11 0 0 false c
  | .waitT2 c => wordR .stop 0 12 0 0 false c
  | .movR d x f c => wordR (.alu .add) 0 x 0 d f c
  | .movA d imm f c => wordA (.alu .add) imm d f c
  | .cmpR r x c => wordR (.alu .sub) 0 x r 0 true c
  | .cmpI r imm c => wordI (.alu .sub) imm r 0 true c
  | .nopR c => wordR (.alu .add) 0 0 0 0 false c
  | .notI d r f c => wordI (.alu .xor) 0xFFF r d f c
  | .pushR d c => wordR .str 0xFF 13 0 d false c
  | .popR d f c => wordR .ldr 0x02 13 0 d f c
  | .bxsR x c => wordR (.alu .add) 0 x 0 15 false c

end Sys2Proof
end

