-- ==== Sys2Proof/Config.lean ====
section
/-!
DEFINITION. What is fixed for the machine and not state: the parameters of spec/00_scope.md R4, and the free
values, which are constants without a body (nothing can be proved about what they are).
-/
namespace Sys2Proof

/-- The two shift directions, the first argument of `SHIFT_WIDE` (R128, R129). -/
inductive ShiftDir where
  | left | right
  deriving DecidableEq, Repr

/-- One access to device space, GPIO or VRAM (R48): a load with the value it obtained, or a store. -/
inductive DevAccess where
  | read (addr value : Word)
  | write (addr value : Word)
  deriving DecidableEq, Repr

/-- The three things that change the state (R9). -/
inductive Agent where
  /-- The core performs `Step` (R8). -/
  | core
  /-- The timer tick (R20). -/
  | tick
  /-- The host's manual restart of a stopped clock (R204). -/
  | restart
  deriving DecidableEq, Repr

/-- The arithmetic corners the source leaves open, as the functions the spec makes of them (R4). -/
structure AluParams where
  /-- `DIV0_RESULT(op1)`: what `div` writes when the second operand is 0 (R125, entry U6). -/
  div0 : Word → Word
  /-- `MOD0_RESULT(op1)`: what `mod` writes when the second operand is 0 (R126, entry U7). -/
  mod0 : Word → Word
  /-- `DIV_OVF_RESULT`: what `div` writes for 0x80000000 / 0xFFFFFFFF (R125, entry U7). -/
  divOvf : Word
  /-- `EXP_NEG(op1, op2)`: what `exp` writes for a negative second operand (R127, entry U8). -/
  expNeg : Word → Word → Word
  /-- `SHIFT_WIDE(dir, op1, op2)`: what `shl` and `shr` write for amounts of 32 or more (R128, R129, entry U9). -/
  shiftWide : ShiftDir → Word → Word → Word
  deriving Inhabited

namespace Config

/-- `XLEN` (R4). -/
def xlen : Nat := 32

/-- `REVISION`: the third revision of the CPU is the one modelled (R2; log 21). -/
def revision : Nat := 3

/-- `PC_READ_AHEAD`: what a read of `x15` adds to the address of the reading instruction (R4, R15). -/
def pcReadAhead : Word := 3

/-- The first address past the program ROM, `PROG_ROM` = 0x0000..0x0FFF (R4, R41). -/
def progRomEnd : Nat := 0x1000

/-- The first address past the data ROM, `DATA_ROM` = 0x1000..0x1FFF (R4, R41). -/
def dataRomEnd : Nat := 0x2000

/-- The first address past the RAM, `RAM` = 0x2000..0x3FFF (R4, R41). -/
def ramEnd : Nat := 0x4000

/-- The first address past GPIO, `GPIO` = 0x4000..0x43FF (R4, R41). -/
def gpioEnd : Nat := 0x4400

/-- The first address past VRAM, `VRAM` = 0x4400..0x4BFF (R4, R41). -/
def vramEnd : Nat := 0x4C00

/-- The first address past the unused region, `UNUSED` = 0x4C00..0x4FFF (R4, R41). -/
def mapEnd : Nat := 0x5000

/-- The start of the data ROM, the value of the assembler's `_datastart` (R96). -/
def dataStart : Word := 0x1000

/-- The start of the RAM, the value of the assembler's `_ramstart` (R96). -/
def ramStart : Word := 0x2000

/-- FREE. The arithmetic corners of R125 to R129 (DESIGN CHOICE, log 1, log 2; safe). -/
opaque alu : AluParams

/-- FREE. `TIMER_NEG`: what a tick makes of a timer holding a negative value (R20, R21, entry U14; DESIGN CHOICE,
log 3; safe). -/
opaque timerNeg : Word → Word

/-- FREE. `DEVICE_READ(history, address)`: what a load from GPIO or VRAM returns (R48, entry U12; DESIGN CHOICE,
log 4; safe). -/
opaque deviceRead : List DevAccess → Word → Word

/-- FREE. What a word of data ROM or RAM reads as that no image gave and nothing has written: `RESET_RAM`, and
the data ROM beyond its image (R26, R47, R49, entries U1, U15; DESIGN CHOICE, log 5; safe). -/
opaque unwritten : Nat → Word

/-- FREE. Who moves before the first due tick and between one and the next, and how often: any finite list, another one each
round. R9 and
R253 leave the order open and the number of core steps between two ticks unbounded (DESIGN CHOICE, log 9; safe). -/
opaque agendaAfter : Nat → List Agent

end Config

end Sys2Proof
end

