-- ==== Sys2Proof/Machine/State.lean ====
section
/-!
DEFINITION. The state of the machine as plain data (spec/10_state.md, 20_memory.md R40, R48), the reasons a step
can stop, and the state after reset (R26, 70 R250).
-/
namespace Sys2Proof.Machine

/-- The registers that hold state, by the names of R10: `x1` to `x10`, `x11` = `t1`, `x12` = `t2`, `x13` = `sp`,
`x14` = `lr`. `x0` holds nothing (R11) and `x15` is a view of `pc` (R15, R16). -/
structure Regs where
  x1 : Word := 0
  x2 : Word := 0
  x3 : Word := 0
  x4 : Word := 0
  x5 : Word := 0
  x6 : Word := 0
  x7 : Word := 0
  x8 : Word := 0
  x9 : Word := 0
  x10 : Word := 0
  t1 : Word := 0
  t2 : Word := 0
  sp : Word := 0
  lr : Word := 0
  deriving DecidableEq, Repr

/-- The flags register: zero, negative, overflow, error (R18). -/
structure Flags where
  z : Bool
  n : Bool
  v : Bool
  e : Bool
  deriving DecidableEq, Repr

/-- The two timers, `t1` = `x11` and `t2` = `x12` (R20). -/
inductive Timer where
  | t1 | t2
  deriving DecidableEq, Repr

/-- The stopped-clock state `hold` (R22). -/
inductive Hold where
  | running
  | brk
  | wait (t : Timer)
  deriving DecidableEq, Repr

/-- The MODEL's own: who moves when. The agents of `agenda` move first; whenever it is used up, a free and finite list of
agents is drawn, with a tick at its end. So every order is possible from any state on, reset among them (R9, R253), and
the ticks never cease (R205; log 9). -/
structure Schedule where
  /-- The agents that make the next moves, first move first. -/
  agenda : List Agent
  /-- How many lists have been drawn. -/
  round : Nat
  deriving DecidableEq, Repr

/-- One 32-bit word of memory at its word address (R40; words, not bytes: R42, log 6). -/
abbrev Cell := Nat × Word

/-- Program ROM, data ROM and RAM, one list of cells with addresses strictly rising (R40, R41). What an address
that is not listed reads as is `Memory.unlisted` in Machine/Ops.lean. -/
abbrev Memory := List Cell

/-- The machine. -/
structure State where
  /-- `x1` to `x14` (R10 to R13, R20, R21). -/
  regs : Regs
  /-- The address of the instruction about to execute (R14). -/
  pc : Word
  /-- `Z`, `N`, `V`, `E` (R18). -/
  flags : Flags
  /-- Whether the core's clock runs (R22). -/
  hold : Hold
  /-- Program ROM, data ROM and RAM (R40, R41). -/
  mem : Memory
  /-- Every access to device space so far, oldest first (R48, R53, entry U12). -/
  devTrace : List DevAccess
  /-- The MODEL's own: which agent moves when (R9 leaves the order open, R205 demands ticks for ever; log 9). -/
  schedule : Schedule
  deriving DecidableEq, Repr

/-- Why a step stops where the spec says that nothing is there. A verdict of the model, not an event in the
machine, which has no faults (R220, R222). -/
inductive Fault where
  /-- An `ldr` (or `pop`) reads an address where nothing is mapped (R50, entry U5). Safe: the model stops where the
  hardware does something the spec does not state. -/
  | unmappedLoad (addr : Word)
  /-- A `str` (or `push`) writes an address where nothing is mapped (R50, entry U5). Safe, as above. -/
  | unmappedStore (addr : Word)
  deriving DecidableEq, Repr

/-- Why the model gives a step no meaning: a verdict of the model, not an event in the machine (R222). -/
inductive Refusal where
  /-- Raised by an arm of `exec` whose instruction has no meaning yet. Safe. -/
  | notModelled (mnemonic : String)
  /-- Raised by the core on a reserved word (R82 to R87, R101, R203; entries RES2 to RES6). Safe: the model stops
  where the hardware does something the spec does not state. -/
  | reservedWord (why : Reserved)
  /-- Raised by a load from the program ROM, which is not readable (R46, entry U3). Safe. -/
  | loadFromProgramRom (addr : Word)
  /-- Raised by a store to the program ROM or the data ROM (R46, R47, entry U4). Safe. -/
  | storeToRom (addr : Word)
  /-- Raised by an `ldr` or `str` that modifies the register it loads or stores (R166, entry U10). Safe. -/
  | writebackSameRegister
  /-- Raised by an `ldr` or `str` that modifies `x15` (R166, entry U11). Safe. -/
  | writebackToPc
  deriving DecidableEq, Repr

/-- The machine right after reset: `pc = 0`, `hold = Running` (R26, R250; log 8). The registers and the flags, for
which the spec gives no value, are 0 (DESIGN CHOICE, log 7; UNSAFE). No image is loaded, nothing is written,
no device has been accessed; who moves first is drawn as a free value (log 5, 9, 10). -/
def State.reset : State where
  regs := { }
  pc := 0
  flags := { z := false, n := false, v := false, e := false }
  hold := .running
  mem := []
  devTrace := []
  schedule := { agenda := [], round := 0 }

end Sys2Proof.Machine
end

