-- ==== Sys2Proof/Machine/Ops.lean ====
section
/-!
DEFINITION. The named operations over registers, memory, program counter and agents: spec/10_state.md R11 to
R22, 20_memory.md R40 to R51, 44_control.md R204. The hardware has no exception and no interrupt (60 R220,
R224 to R226): there is no exception entry and no return from one to model.
-/
namespace Sys2Proof.Machine

/-! ## Registers -/

/-- The value a register holds. `x0` holds none and reads 0 (R11); `x15` is not held here (R15). -/
def Regs.get (g : Regs) (r : Reg) : Word :=
  match r.toNat with
  | 1 => g.x1 | 2 => g.x2 | 3 => g.x3 | 4 => g.x4 | 5 => g.x5 | 6 => g.x6 | 7 => g.x7 | 8 => g.x8
  | 9 => g.x9 | 10 => g.x10 | 11 => g.t1 | 12 => g.t2 | 13 => g.sp | 14 => g.lr | _ => 0

/-- Give a register a value. A write to `x0` has no effect (R11); `x15` is not held here (R16). -/
def Regs.set (g : Regs) (r : Reg) (v : Word) : Regs :=
  match r.toNat with
  | 1 => { g with x1 := v } | 2 => { g with x2 := v } | 3 => { g with x3 := v } | 4 => { g with x4 := v }
  | 5 => { g with x5 := v } | 6 => { g with x6 := v } | 7 => { g with x7 := v } | 8 => { g with x8 := v }
  | 9 => { g with x9 := v } | 10 => { g with x10 := v } | 11 => { g with t1 := v } | 12 => { g with t2 := v }
  | 13 => { g with sp := v } | 14 => { g with lr := v } | _ => g

/-- `x[i]` as an operand: `x15` reads the address of the reading instruction plus 3, every other register what it
holds (R7, R15). -/
def State.readReg (s : State) (r : Reg) : Word :=
  if r = 15#4 then s.pc + Config.pcReadAhead else s.regs.get r

/-- `x[i] <- v` as a result: a write to `x15` sets the address of the next instruction, as it is (R7, R16). The
advance of R17 has been made before. -/
def State.writeReg (s : State) (r : Reg) (v : Word) : State :=
  if r = 15#4 then { s with pc := v } else { s with regs := s.regs.set r v }

/-- The register number of a timer (R10, R20). -/
def Timer.reg : Timer → Reg
  | .t1 => 11
  | .t2 => 12

/-- The current count of a timer (R21). -/
def State.timer (s : State) (t : Timer) : Word := s.regs.get t.reg

/-- On to the next instruction in line, modulo 2^32 (R17). -/
def State.advance (s : State) : State := { s with pc := s.pc + 1 }

/-! ## Memory -/

/-- What an address of ROM or RAM that is not listed reads as: 0 in the program ROM (R45), elsewhere the free
value `Config.unwritten` (R26, R47, R49; log 5). -/
def Memory.unlisted (a : Nat) : Word := if a < Config.progRomEnd then 0 else Config.unwritten a

/-- A cell that says no more than the default does is not listed: a program ROM word that is 0 (R45). -/
def Memory.isDefault (a : Nat) (v : Word) : Bool := a < Config.progRomEnd && v == 0#32

/-- The word at an address of ROM or RAM (R40). -/
def Memory.read (m : Memory) (a : Nat) : Word :=
  match m with
  | [] => Memory.unlisted a
  | (b, v) :: rest => if b = a then v else Memory.read rest a

/-- The list with the cell of an address set, addresses kept rising. -/
def Memory.insert (m : Memory) (a : Nat) (v : Word) : Memory :=
  match m with
  | [] => [(a, v)]
  | (b, w) :: rest =>
    if a < b then (a, v) :: (b, w) :: rest
    else if a = b then (a, v) :: rest
    else (b, w) :: Memory.insert rest a v

/-- The list without the cell of an address. -/
def Memory.erase (m : Memory) (a : Nat) : Memory :=
  match m with
  | [] => []
  | (b, w) :: rest => if b = a then rest else (b, w) :: Memory.erase rest a

/-- Give an address of ROM or RAM a value, keeping the canonical form. -/
def Memory.write (m : Memory) (a : Nat) (v : Word) : Memory :=
  if Memory.isDefault a v then Memory.erase m a else Memory.insert m a v

/-- The addresses of a list are above a bound and strictly rising. -/
def Memory.risingFrom (lo : Nat) (m : Memory) : Bool :=
  match m with
  | [] => true
  | (a, _) :: rest => decide (lo ≤ a) && Memory.risingFrom (a + 1) rest

/-- A cell lies in program ROM, data ROM or RAM and says more than the default does. -/
def Memory.cellOk (cell : Cell) : Bool :=
  decide (cell.1 < Config.ramEnd) && !(Memory.isDefault cell.1 cell.2)

/-- The canonical form of memory (log 5). -/
def Memory.wf (m : Memory) : Bool := Memory.risingFrom 0 m && m.all Memory.cellOk

/-- The regions of the memory map (R41). -/
inductive Region where
  | programRom | dataRom | ram | gpio | vram | unused | outside
  deriving DecidableEq, Repr

/-- The region an address lies in; the comparison is on its unsigned value (R41, R51). -/
def regionOf (a : Word) : Region :=
  if a.toNat < Config.progRomEnd then .programRom
  else if a.toNat < Config.dataRomEnd then .dataRom
  else if a.toNat < Config.ramEnd then .ram
  else if a.toNat < Config.gpioEnd then .gpio
  else if a.toNat < Config.vramEnd then .vram
  else if a.toNat < Config.mapEnd then .unused
  else .outside

/-- An outcome with a value, and what follows it. -/
def andThen {α β : Type} (o : Host.Outcome α Fault Refusal) (k : α → Host.Outcome β Fault Refusal) :
    Host.Outcome β Fault Refusal :=
  match o with
  | .next a => k a
  | .fault r => .fault r
  | .refused r => .refused r

/-- A load from device space: a value the model does not choose, and one more access in the history (R48, R53). -/
def State.deviceLoad (s : State) (a : Word) : Word × State :=
  (Config.deviceRead s.devTrace a,
    { s with devTrace := s.devTrace ++ [.read a (Config.deviceRead s.devTrace a)] })

/-- `MemRead(a, 1)`: the word loaded and the state after the access (R46 to R51). -/
def memRead (a : Word) (s : State) : Host.Outcome (Word × State) Fault Refusal :=
  match regionOf a with
  | .programRom => .refused (.loadFromProgramRom a)
  | .dataRom => .next (s.mem.read a.toNat, s)
  | .ram => .next (s.mem.read a.toNat, s)
  | .gpio => .next (s.deviceLoad a)
  | .vram => .next (s.deviceLoad a)
  | .unused => .fault (.unmappedLoad a)
  | .outside => .fault (.unmappedLoad a)

/-- A store to device space: one output event, in program order (R48, R53). -/
def State.deviceStore (s : State) (a v : Word) : State := { s with devTrace := s.devTrace ++ [.write a v] }

/-- `MemWrite(a, 1, v)`: the state after the access (R46 to R51). -/
def memWrite (a v : Word) (s : State) : Host.Outcome State Fault Refusal :=
  match regionOf a with
  | .programRom => .refused (.storeToRom a)
  | .dataRom => .refused (.storeToRom a)
  | .ram => .next { s with mem := s.mem.write a.toNat v }
  | .gpio => .next (s.deviceStore a v)
  | .vram => .next (s.deviceStore a v)
  | .unused => .fault (.unmappedStore a)
  | .outside => .fault (.unmappedStore a)

/-- `Fetch(a)`: the program ROM's word, and 0 from every other address (R44, R45; log 16). -/
def fetch (m : Memory) (a : Word) : Word :=
  match regionOf a with
  | .programRom => m.read a.toNat
  | _ => 0

/-- The core on a reserved word: refused by name (R84 to R87, R101), but for a word with condition 1111, which has
the effect of a `nop` whatever its other bits are (R101; log 13). -/
def reservedOutcome (w : Word) (why : Reserved) (s : State) : Host.Outcome State Fault Refusal :=
  if condField w = 15#4 then .next s.advance else .refused (.reservedWord why)

/-! ## The other agents -/

/-- What one tick makes of a count (R20). -/
def tickWord (v : Word) : Word :=
  if 0 < v.toInt then v - 1 else if v.toInt < 0 then Config.timerNeg v else v

/-- A wait ends when its timer stands at 0 (R20, R204). -/
def State.endWait (s : State) : State :=
  match s.hold with
  | .wait t => if s.timer t = 0#32 then { s with hold := .running } else s
  | _ => s

/-- `Tick()`: both timers count, then a wait may end (R20). -/
def tick (s : State) : State :=
  State.endWait { s with regs := { s.regs with t1 := tickWord s.regs.t1, t2 := tickWord s.regs.t2 } }

/-- The host's manual restart: a stopped clock runs again and nothing else changes (R204); while the clock runs it
has nothing to do (R226; log 31). -/
def restart (s : State) : State := { s with hold := .running }

/-- The moves to come: the agenda, or, where it is used up, a free and finite list of agents and then a tick (R9, R205;
log 9). -/
def Schedule.moves (c : Schedule) : List Agent :=
  match c.agenda with
  | [] => Config.agendaAfter c.round ++ [.tick]
  | a :: rest => a :: rest

/-- The agent that moves next, the first of these. -/
def Schedule.turn (c : Schedule) : Agent := c.moves.headD .tick

/-- The schedule after that move. -/
def Schedule.next (c : Schedule) : Schedule where
  agenda := c.moves.tail
  round := match c.agenda with
    | [] => c.round + 1
    | _ :: _ => c.round

/-- The agent that moves next (R9). -/
def State.turn (s : State) : Agent := s.schedule.turn

/-- The state with that move taken from the schedule. -/
def State.takeTurn (s : State) : State := { s with schedule := s.schedule.next }

/-! ## Loading the images -/

/-- Memory with a list of words from an address on. -/
def Memory.place (m : Memory) (base : Nat) (image : List Word) : Memory :=
  match image with
  | [] => m
  | w :: rest => Memory.place (m.write base w) (base + 1) rest

/-- A run starts with the two ROM images in place, at most 4096 words of each (R250, R251; log 10). -/
def bootWith (prog data : List Word) : State :=
  { State.reset with
    mem := (Memory.place [] 0 (prog.take Config.progRomEnd)).place Config.progRomEnd
      (data.take (Config.dataRomEnd - Config.progRomEnd)) }

end Sys2Proof.Machine
end

