-- ==== Sys2Proof/Machine/Flags.lean ====
section
/-!
DEFINITION. Conditional execution and the writing of the flags (spec/40_conditions_flags.md R100 to R106, 44 R200).
-/
namespace Sys2Proof.Machine

/-- `CondHolds(cond, Z, N, V, E)` (R100, R101). -/
def condHolds (c : Cond) (fl : Flags) : Bool :=
  match c with
  | .always => true
  | .eq => fl.z
  | .ne => !fl.z
  | .ng => fl.n
  | .pz => !fl.n
  | .lt => fl.n != fl.v
  | .le => fl.z || (fl.n != fl.v)
  | .gt => !fl.z && (fl.n == fl.v)
  | .ge => fl.n == fl.v
  | .vs => fl.v
  | .vc => !fl.v
  | .es => fl.e
  | .ec => !fl.e
  | .never => false

/-- `SetFlags(result, v, e)`: all four flags (R103). -/
def resultFlags (result : Word) (v e : Bool) : Flags :=
  { z := result == 0#32, n := result.msb, v := v, e := e }

/-- The flags of the low four bits of an operand, from bit 3 down `Z`, `N`, `V`, `E` (R200). -/
def nibbleFlags (op2 : Word) : Flags :=
  { z := op2.getLsbD 3, n := op2.getLsbD 2, v := op2.getLsbD 1, e := op2.getLsbD 0 }

/-- The flags are written if `f` is 1 and stay otherwise (R104, R105). -/
def State.setFlagsIf (s : State) (f : Bool) (fl : Flags) : State := if f then { s with flags := fl } else s

/-- An instruction runs if and only if its condition holds on the flags before it; otherwise only `pc` advances
(R8, R100, R102, R106). -/
def guarded (c : Cond) (s : State) (body : State → Host.Outcome State Fault Refusal) :
    Host.Outcome State Fault Refusal :=
  if condHolds c s.flags then body s else .next s.advance

end Sys2Proof.Machine
end

