-- ==== Sys2Proof/Machine/Operands.lean ====
section
/-!
DEFINITION. Operand assembly (spec/30_encoding.md R75 to R77) and the address register modification of `ldr` and
`str` (42_load_store.md R164).
-/
namespace Sys2Proof.Machine

/-- The second operand of an I-type word: the 12-bit immediate, sign-extended (R75). -/
def imm12 (i : BitVec 12) : Word := i.signExtend 32

/-- The second operand of an A-type word: the 16-bit immediate, sign-extended (R75). -/
def imm16 (i : BitVec 16) : Word := i.signExtend 32

/-- The second operand of an L-type word: the 20-bit immediate, sign-extended (R75). -/
def imm20 (i : BitVec 20) : Word := i.signExtend 32

/-- The first operand of the formats without an `r` field (R76). -/
def noFirst : Word := 0#32

/-- The destination, or the source of `str`, of the format without a `d` field (R77). -/
def noDest : Reg := 0#4

/-- What an address register modification adds: the 7-bit `v`, sign-extended (R164). -/
def modWord (v : BitVec 7) : Word := v.signExtend 32

/-- The address of an R-type `ldr` or `str`: modified before the access for `u` = 1, not for `u` = 0 (R164). -/
def accessAddr (base : Word) (v : BitVec 7) (u : Bool) : Word := if u then base + modWord v else base

/-- What the address register holds afterwards: `base + v`, written only for `v` not 0 (R164; log 30). -/
def State.writeBack (s : State) (x : Reg) (base : Word) (v : BitVec 7) : State :=
  if v = 0#7 then s else s.writeReg x (base + modWord v)

end Sys2Proof.Machine
end

