-- ==== Sys2Proof/Machine/Alu.lean ====
section
/-!
DEFINITION. The twelve arithmetic and logic instructions (spec/41_alu.md R120 to R134). Each operation is a function of
the two operands, computed on exact integers and narrowed at the end where the rule is; each instruction is that
function under `aluInstr`.
-/
namespace Sys2Proof.Machine

/-- What an operation answers: the 32-bit result and the two flag bits `v` and `e` (R120). -/
structure AluOut where
  result : Word
  v : Bool
  e : Bool
  deriving DecidableEq, Repr

/-- Whether an exact integer is outside the signed 32-bit numbers (R104, R121). -/
def overflows (exact : Int) : Bool := decide (exact < -2 ^ 31) || decide (2 ^ 31 - 1 < exact)

/-- The answer of an operation that can set neither `V` nor `E` (R103, R104). -/
def plain (result : Word) : AluOut := { result := result, v := false, e := false }

/-- The answer of an operation that can set `V`: the exact integer wrapped (R121 to R123). -/
def summed (exact : Int) : AluOut := { result := wrap exact, v := overflows exact, e := false }

/-- `add` (R121). -/
def aluAdd (a b : Word) : AluOut := summed (a.toInt + b.toInt)

/-- `sub`: the first operand less the second (R122). -/
def aluSub (a b : Word) : AluOut := summed (a.toInt - b.toInt)

/-- `sbn`: the second operand less the first (R123). -/
def aluSbn (a b : Word) : AluOut := summed (b.toInt - a.toInt)

/-- `mul`: the low 32 bits of the product (R124; log 23). -/
def aluMul (a b : Word) : AluOut := plain (wrap (a.toInt * b.toInt))

/-- `div`: signed, rounded toward zero; a zero divisor sets `E` and writes `DIV0_RESULT` (R125; log 1, 2, 23). -/
def aluDiv (p : AluParams) (a b : Word) : AluOut :=
  if b = 0#32 then { result := p.div0 a, v := false, e := true }
  else if a = 0x80000000#32 ∧ b = 0xFFFFFFFF#32 then plain p.divOvf
  else plain (wrap (a.toInt.tdiv b.toInt))

/-- `mod`: the remainder of the truncating division; a zero divisor sets `E` and writes `MOD0_RESULT` (R126;
log 1, 23). -/
def aluMod (p : AluParams) (a b : Word) : AluOut :=
  if b = 0#32 then { result := p.mod0 a, v := false, e := true }
  else plain (wrap (a.toInt - a.toInt.tdiv b.toInt * b.toInt))

/-- The power `a ^ n` modulo 2^32 by repeated squaring, for `n` below `2 ^ k`. -/
def powWord (k : Nat) (a : Word) (n : Nat) : Word :=
  match k with
  | 0 => 1#32
  | k + 1 => if n % 2 = 1 then a * powWord k (a * a) (n / 2) else powWord k (a * a) (n / 2)

/-- `exp`: the power wrapped, `n ^ 0 = 1` for every `n`; a negative exponent writes `EXP_NEG` (R127; log 1, 23). -/
def aluExp (p : AluParams) (a b : Word) : AluOut :=
  if 0 ≤ b.toInt then plain (powWord 32 a b.toNat) else plain (p.expNeg a b)

/-- `shl`: a logical shift for amounts up to 31, `SHIFT_WIDE` above (R128; log 2). -/
def aluShl (p : AluParams) (a b : Word) : AluOut :=
  if b.toNat ≤ 31 then plain (a <<< b.toNat) else plain (p.shiftWide .left a b)

/-- `shr`: an arithmetic shift for amounts up to 31, `SHIFT_WIDE` above (R129; log 2). -/
def aluShr (p : AluParams) (a b : Word) : AluOut :=
  if b.toNat ≤ 31 then plain (a.sshiftRight b.toNat) else plain (p.shiftWide .right a b)

/-- `and`, bit by bit (R130). -/
def aluAnd (a b : Word) : AluOut := plain (a &&& b)

/-- `orr`, bit by bit (R131). -/
def aluOrr (a b : Word) : AluOut := plain (a ||| b)

/-- `xor`, bit by bit (R132). -/
def aluXor (a b : Word) : AluOut := plain (a ^^^ b)

/-- `Execute_ALU` under its condition: the result goes to the destination, then the flags if `f` is 1 (R8, R120,
R133, R140). The operands have been read. -/
def aluInstr (out : AluOut) (d : Reg) (f : Bool) (c : Cond) (s : State) : Host.Outcome State Fault Refusal :=
  guarded c s fun s => .next ((s.advance.writeReg d out.result).setFlagsIf f (resultFlags out.result out.v out.e))

/-- `add`, R-type (R121). -/
def execAddR (d r x : Reg) (f : Bool) (c : Cond) (s : State) : Host.Outcome State Fault Refusal :=
  aluInstr (aluAdd (s.readReg r) (s.readReg x)) d f c s

/-- `add`, I-type (R121). -/
def execAddI (d r : Reg) (imm : BitVec 12) (f : Bool) (c : Cond) (s : State) : Host.Outcome State Fault Refusal :=
  aluInstr (aluAdd (s.readReg r) (imm12 imm)) d f c s

/-- `add`, A-type (R121). -/
def execAddA (d : Reg) (imm : BitVec 16) (f : Bool) (c : Cond) (s : State) : Host.Outcome State Fault Refusal :=
  aluInstr (aluAdd noFirst (imm16 imm)) d f c s

/-- The L-type word of `add`, as revision 3 runs it (R83, R134; log 14). -/
def execAddL (imm : BitVec 20) (f : Bool) (c : Cond) (s : State) : Host.Outcome State Fault Refusal :=
  aluInstr (aluAdd noFirst (imm20 imm)) noDest f c s

/-- `sub`, R-type (R122). -/
def execSubR (d r x : Reg) (f : Bool) (c : Cond) (s : State) : Host.Outcome State Fault Refusal :=
  aluInstr (aluSub (s.readReg r) (s.readReg x)) d f c s

/-- `sub`, I-type (R122). -/
def execSubI (d r : Reg) (imm : BitVec 12) (f : Bool) (c : Cond) (s : State) : Host.Outcome State Fault Refusal :=
  aluInstr (aluSub (s.readReg r) (imm12 imm)) d f c s

/-- `sub`, A-type (R122). -/
def execSubA (d : Reg) (imm : BitVec 16) (f : Bool) (c : Cond) (s : State) : Host.Outcome State Fault Refusal :=
  aluInstr (aluSub noFirst (imm16 imm)) d f c s

/-- The L-type word of `sub`, as revision 3 runs it (R83, R134; log 14). -/
def execSubL (imm : BitVec 20) (f : Bool) (c : Cond) (s : State) : Host.Outcome State Fault Refusal :=
  aluInstr (aluSub noFirst (imm20 imm)) noDest f c s

/-- `sbn`, R-type (R123). -/
def execSbnR (d r x : Reg) (f : Bool) (c : Cond) (s : State) : Host.Outcome State Fault Refusal :=
  aluInstr (aluSbn (s.readReg r) (s.readReg x)) d f c s

/-- `sbn`, I-type (R123). -/
def execSbnI (d r : Reg) (imm : BitVec 12) (f : Bool) (c : Cond) (s : State) : Host.Outcome State Fault Refusal :=
  aluInstr (aluSbn (s.readReg r) (imm12 imm)) d f c s

/-- `sbn`, A-type (R123). -/
def execSbnA (d : Reg) (imm : BitVec 16) (f : Bool) (c : Cond) (s : State) : Host.Outcome State Fault Refusal :=
  aluInstr (aluSbn noFirst (imm16 imm)) d f c s

/-- The L-type word of `sbn`, as revision 3 runs it (R83, R134; log 14). -/
def execSbnL (imm : BitVec 20) (f : Bool) (c : Cond) (s : State) : Host.Outcome State Fault Refusal :=
  aluInstr (aluSbn noFirst (imm20 imm)) noDest f c s

/-- `mul`, R-type (R124). -/
def execMulR (d r x : Reg) (f : Bool) (c : Cond) (s : State) : Host.Outcome State Fault Refusal :=
  aluInstr (aluMul (s.readReg r) (s.readReg x)) d f c s

/-- `mul`, I-type (R124). -/
def execMulI (d r : Reg) (imm : BitVec 12) (f : Bool) (c : Cond) (s : State) : Host.Outcome State Fault Refusal :=
  aluInstr (aluMul (s.readReg r) (imm12 imm)) d f c s

/-- `mul`, A-type (R124). -/
def execMulA (d : Reg) (imm : BitVec 16) (f : Bool) (c : Cond) (s : State) : Host.Outcome State Fault Refusal :=
  aluInstr (aluMul noFirst (imm16 imm)) d f c s

/-- The L-type word of `mul`, as revision 3 runs it (R83, R134; log 14). -/
def execMulL (imm : BitVec 20) (f : Bool) (c : Cond) (s : State) : Host.Outcome State Fault Refusal :=
  aluInstr (aluMul noFirst (imm20 imm)) noDest f c s

/-- `div`, R-type (R125). -/
def execDivR (d r x : Reg) (f : Bool) (c : Cond) (s : State) : Host.Outcome State Fault Refusal :=
  aluInstr (aluDiv Config.alu (s.readReg r) (s.readReg x)) d f c s

/-- `div`, I-type (R125). -/
def execDivI (d r : Reg) (imm : BitVec 12) (f : Bool) (c : Cond) (s : State) : Host.Outcome State Fault Refusal :=
  aluInstr (aluDiv Config.alu (s.readReg r) (imm12 imm)) d f c s

/-- `div`, A-type (R125). -/
def execDivA (d : Reg) (imm : BitVec 16) (f : Bool) (c : Cond) (s : State) : Host.Outcome State Fault Refusal :=
  aluInstr (aluDiv Config.alu noFirst (imm16 imm)) d f c s

/-- The L-type word of `div`, as revision 3 runs it (R83, R134; log 14). -/
def execDivL (imm : BitVec 20) (f : Bool) (c : Cond) (s : State) : Host.Outcome State Fault Refusal :=
  aluInstr (aluDiv Config.alu noFirst (imm20 imm)) noDest f c s

/-- `mod`, R-type (R126). -/
def execModR (d r x : Reg) (f : Bool) (c : Cond) (s : State) : Host.Outcome State Fault Refusal :=
  aluInstr (aluMod Config.alu (s.readReg r) (s.readReg x)) d f c s

/-- `mod`, I-type (R126). -/
def execModI (d r : Reg) (imm : BitVec 12) (f : Bool) (c : Cond) (s : State) : Host.Outcome State Fault Refusal :=
  aluInstr (aluMod Config.alu (s.readReg r) (imm12 imm)) d f c s

/-- `mod`, A-type (R126). -/
def execModA (d : Reg) (imm : BitVec 16) (f : Bool) (c : Cond) (s : State) : Host.Outcome State Fault Refusal :=
  aluInstr (aluMod Config.alu noFirst (imm16 imm)) d f c s

/-- The L-type word of `mod`, as revision 3 runs it (R83, R134; log 14). -/
def execModL (imm : BitVec 20) (f : Bool) (c : Cond) (s : State) : Host.Outcome State Fault Refusal :=
  aluInstr (aluMod Config.alu noFirst (imm20 imm)) noDest f c s

/-- `exp`, R-type (R127). -/
def execExpR (d r x : Reg) (f : Bool) (c : Cond) (s : State) : Host.Outcome State Fault Refusal :=
  aluInstr (aluExp Config.alu (s.readReg r) (s.readReg x)) d f c s

/-- `exp`, I-type (R127). -/
def execExpI (d r : Reg) (imm : BitVec 12) (f : Bool) (c : Cond) (s : State) : Host.Outcome State Fault Refusal :=
  aluInstr (aluExp Config.alu (s.readReg r) (imm12 imm)) d f c s

/-- `exp`, A-type (R127). -/
def execExpA (d : Reg) (imm : BitVec 16) (f : Bool) (c : Cond) (s : State) : Host.Outcome State Fault Refusal :=
  aluInstr (aluExp Config.alu noFirst (imm16 imm)) d f c s

/-- The L-type word of `exp`, as revision 3 runs it (R83, R134; log 14). -/
def execExpL (imm : BitVec 20) (f : Bool) (c : Cond) (s : State) : Host.Outcome State Fault Refusal :=
  aluInstr (aluExp Config.alu noFirst (imm20 imm)) noDest f c s

/-- `shl`, R-type (R128). -/
def execShlR (d r x : Reg) (f : Bool) (c : Cond) (s : State) : Host.Outcome State Fault Refusal :=
  aluInstr (aluShl Config.alu (s.readReg r) (s.readReg x)) d f c s

/-- `shl`, I-type (R128). -/
def execShlI (d r : Reg) (imm : BitVec 12) (f : Bool) (c : Cond) (s : State) : Host.Outcome State Fault Refusal :=
  aluInstr (aluShl Config.alu (s.readReg r) (imm12 imm)) d f c s

/-- `shl`, A-type (R128). -/
def execShlA (d : Reg) (imm : BitVec 16) (f : Bool) (c : Cond) (s : State) : Host.Outcome State Fault Refusal :=
  aluInstr (aluShl Config.alu noFirst (imm16 imm)) d f c s

/-- The L-type word of `shl`, as revision 3 runs it (R83, R134; log 14). -/
def execShlL (imm : BitVec 20) (f : Bool) (c : Cond) (s : State) : Host.Outcome State Fault Refusal :=
  aluInstr (aluShl Config.alu noFirst (imm20 imm)) noDest f c s

/-- `shr`, R-type (R129). -/
def execShrR (d r x : Reg) (f : Bool) (c : Cond) (s : State) : Host.Outcome State Fault Refusal :=
  aluInstr (aluShr Config.alu (s.readReg r) (s.readReg x)) d f c s

/-- `shr`, I-type (R129). -/
def execShrI (d r : Reg) (imm : BitVec 12) (f : Bool) (c : Cond) (s : State) : Host.Outcome State Fault Refusal :=
  aluInstr (aluShr Config.alu (s.readReg r) (imm12 imm)) d f c s

/-- `shr`, A-type (R129). -/
def execShrA (d : Reg) (imm : BitVec 16) (f : Bool) (c : Cond) (s : State) : Host.Outcome State Fault Refusal :=
  aluInstr (aluShr Config.alu noFirst (imm16 imm)) d f c s

/-- The L-type word of `shr`, as revision 3 runs it (R83, R134; log 14). -/
def execShrL (imm : BitVec 20) (f : Bool) (c : Cond) (s : State) : Host.Outcome State Fault Refusal :=
  aluInstr (aluShr Config.alu noFirst (imm20 imm)) noDest f c s

/-- `and`, R-type (R130). -/
def execAndR (d r x : Reg) (f : Bool) (c : Cond) (s : State) : Host.Outcome State Fault Refusal :=
  aluInstr (aluAnd (s.readReg r) (s.readReg x)) d f c s

/-- `and`, I-type (R130). -/
def execAndI (d r : Reg) (imm : BitVec 12) (f : Bool) (c : Cond) (s : State) : Host.Outcome State Fault Refusal :=
  aluInstr (aluAnd (s.readReg r) (imm12 imm)) d f c s

/-- `and`, A-type (R130). -/
def execAndA (d : Reg) (imm : BitVec 16) (f : Bool) (c : Cond) (s : State) : Host.Outcome State Fault Refusal :=
  aluInstr (aluAnd noFirst (imm16 imm)) d f c s

/-- The L-type word of `and`, as revision 3 runs it (R83, R134; log 14). -/
def execAndL (imm : BitVec 20) (f : Bool) (c : Cond) (s : State) : Host.Outcome State Fault Refusal :=
  aluInstr (aluAnd noFirst (imm20 imm)) noDest f c s

/-- `orr`, R-type (R131). -/
def execOrrR (d r x : Reg) (f : Bool) (c : Cond) (s : State) : Host.Outcome State Fault Refusal :=
  aluInstr (aluOrr (s.readReg r) (s.readReg x)) d f c s

/-- `orr`, I-type (R131). -/
def execOrrI (d r : Reg) (imm : BitVec 12) (f : Bool) (c : Cond) (s : State) : Host.Outcome State Fault Refusal :=
  aluInstr (aluOrr (s.readReg r) (imm12 imm)) d f c s

/-- `orr`, A-type (R131). -/
def execOrrA (d : Reg) (imm : BitVec 16) (f : Bool) (c : Cond) (s : State) : Host.Outcome State Fault Refusal :=
  aluInstr (aluOrr noFirst (imm16 imm)) d f c s

/-- The L-type word of `orr`, as revision 3 runs it (R83, R134; log 14). -/
def execOrrL (imm : BitVec 20) (f : Bool) (c : Cond) (s : State) : Host.Outcome State Fault Refusal :=
  aluInstr (aluOrr noFirst (imm20 imm)) noDest f c s

/-- `xor`, R-type (R132). -/
def execXorR (d r x : Reg) (f : Bool) (c : Cond) (s : State) : Host.Outcome State Fault Refusal :=
  aluInstr (aluXor (s.readReg r) (s.readReg x)) d f c s

/-- `xor`, I-type (R132). -/
def execXorI (d r : Reg) (imm : BitVec 12) (f : Bool) (c : Cond) (s : State) : Host.Outcome State Fault Refusal :=
  aluInstr (aluXor (s.readReg r) (imm12 imm)) d f c s

/-- `xor`, A-type (R132). -/
def execXorA (d : Reg) (imm : BitVec 16) (f : Bool) (c : Cond) (s : State) : Host.Outcome State Fault Refusal :=
  aluInstr (aluXor noFirst (imm16 imm)) d f c s

/-- The L-type word of `xor`, as revision 3 runs it (R83, R134; log 14). -/
def execXorL (imm : BitVec 20) (f : Bool) (c : Cond) (s : State) : Host.Outcome State Fault Refusal :=
  aluInstr (aluXor noFirst (imm20 imm)) noDest f c s

end Sys2Proof.Machine
end

