-- ==== Sys2Proof/Machine/Branch.lean ====
section
/-!
DEFINITION. The branch instruction (spec/43_branch.md R190, R191). The targets that an ALU instruction, `ldr` or `ldh`
give `x15` are writes of `x15` (R133, R167, R196).
-/
namespace Sys2Proof.Machine

/-- `x14 <- cia + 1` if `f` is 1 (R190). -/
def State.linkIf (s : State) (f : Bool) : State := if f then s.writeReg 14#4 (s.pc + 1) else s

/-- Where a branch goes: the program counter as the hardware sees it, plus the offset, modulo 2^32 (R190). -/
def branchTarget (cia op2 : Word) : Word := cia + Config.pcReadAhead + op2

/-- `Execute_b`: the offset has been read before the link is written (R190, R191). -/
def branch (op2 : Word) (f : Bool) (s : State) : Host.Outcome State Fault Refusal :=
  .next { s.linkIf f with pc := branchTarget s.pc op2 }

/-- Opcode 28 with a register offset (R191; log 29). -/
def execBR (x : Reg) (f : Bool) (c : Cond) (s : State) : Host.Outcome State Fault Refusal :=
  guarded c s fun s => branch (s.readReg x) f s

/-- Opcode 28, I-type (R191, R82; log 15). -/
def execBI (imm : BitVec 12) (f : Bool) (c : Cond) (s : State) : Host.Outcome State Fault Refusal :=
  guarded c s (branch (imm12 imm) f)

/-- Opcode 28, A-type (R191, R82; log 15). -/
def execBA (imm : BitVec 16) (f : Bool) (c : Cond) (s : State) : Host.Outcome State Fault Refusal :=
  guarded c s (branch (imm16 imm) f)

/-- `b` and `bl`, L-type (R190). -/
def execBL (imm : BitVec 20) (f : Bool) (c : Cond) (s : State) : Host.Outcome State Fault Refusal :=
  guarded c s (branch (imm20 imm) f)

end Sys2Proof.Machine
end

