-- ==== Sys2Proof/Machine/Control.lean ====
section
/-!
DEFINITION. `setf`, `brk` and `wait` (spec/44_control.md R200 to R203).
-/
namespace Sys2Proof.Machine

/-- `Execute_setf`: the flags are the low four bits of the operand (R200). -/
def setFlagsFrom (op2 : Word) (s : State) : Host.Outcome State Fault Refusal :=
  .next { s.advance with flags := nibbleFlags op2 }

/-- `Execute_wait(t)`: the clock stops unless the timer stands at 0 (R202; log 19), for a negative count too (DESIGN CHOICE, log 3). -/
def waitFor (t : Timer) (s : State) : Host.Outcome State Fault Refusal :=
  .next (if s.timer t = 0#32 then s.advance else { s.advance with hold := .wait t })

/-- `setf`, R-type (R200). -/
def execSetfR (x : Reg) (c : Cond) (s : State) : Host.Outcome State Fault Refusal :=
  guarded c s fun s => setFlagsFrom (s.readReg x) s

/-- `setf`, I-type (R200). -/
def execSetfI (imm : BitVec 12) (c : Cond) (s : State) : Host.Outcome State Fault Refusal :=
  guarded c s (setFlagsFrom (imm12 imm))

/-- `setf`, A-type (R200). -/
def execSetfA (imm : BitVec 16) (c : Cond) (s : State) : Host.Outcome State Fault Refusal :=
  guarded c s (setFlagsFrom (imm16 imm))

/-- `setf`, L-type (R200). -/
def execSetfL (imm : BitVec 20) (c : Cond) (s : State) : Host.Outcome State Fault Refusal :=
  guarded c s (setFlagsFrom (imm20 imm))

/-- `brk`: the clock stops; the next instruction is the one in line (R201). -/
def execBrkR (c : Cond) (s : State) : Host.Outcome State Fault Refusal :=
  guarded c s fun s => .next { s.advance with hold := .brk }

/-- `wait t1` (R202). -/
def execWaitT1 (c : Cond) (s : State) : Host.Outcome State Fault Refusal :=
  guarded c s (waitFor .t1)

/-- `wait t2` (R202). -/
def execWaitT2 (c : Cond) (s : State) : Host.Outcome State Fault Refusal :=
  guarded c s (waitFor .t2)

end Sys2Proof.Machine
end

