-- ==== Sys2Proof/Machine/LoadStore.lean ====
section
/-!
DEFINITION. `ldr`, `str` and `ldh` (spec/42_load_store.md R160 to R167).
-/
namespace Sys2Proof.Machine

/-- The end of a load: the word goes to the destination, then the flags if `f` is 1 (R161, R163, R167). -/
def finishLoad (d : Reg) (f : Bool) (value : Word) (s : State) : State :=
  (s.writeReg d value).setFlagsIf f (resultFlags value false false)

/-- A load from an address, without modification (R161). -/
def loadAt (d : Reg) (a : Word) (f : Bool) (s : State) : Host.Outcome State Fault Refusal :=
  andThen (memRead a s) fun r => .next (finishLoad d f r.1 r.2.advance)

/-- A load at the address register's value `base`, which is modified after the access and before the destination is
written (R161, R164). -/
def loadModified (d x : Reg) (base : Word) (v : BitVec 7) (u f : Bool) (s : State) : Host.Outcome State Fault Refusal :=
  andThen (memRead (accessAddr base v u) s) fun r => .next (finishLoad d f r.1 (r.2.advance.writeBack x base v))

/-- A store of `data` to an address, without modification (R162). -/
def storeAt (a data : Word) (s : State) : Host.Outcome State Fault Refusal :=
  andThen (memWrite a data s) fun s => .next s.advance

/-- A store of `data` at the address register's value `base`, which is modified after the access (R162, R164). -/
def storeModified (x : Reg) (base data : Word) (v : BitVec 7) (u : Bool) (s : State) : Host.Outcome State Fault Refusal :=
  andThen (memWrite (accessAddr base v u) data s) fun s => .next (s.advance.writeBack x base v)

/-- The write-backs the spec gives no meaning are refused before anything is done: to the register that is loaded or
stored (U10) and to `x15` (U11) (R166; log 12). -/
def checkWriteback (d x : Reg) (v : BitVec 7) (rest : Host.Outcome State Fault Refusal)
     : Host.Outcome State Fault Refusal :=
  if v = 0#7 then rest
  else if x = 15#4 then .refused .writebackToPc
  else if d = x then .refused .writebackSameRegister
  else rest

/-- The value `ldh` makes of the second operand: its low half above sixteen zeros (R163). -/
def highHalf (op2 : Word) : Word := op2.extractLsb' 0 16 ++ (0 : BitVec 16)

/-- `Execute_ldh` (R163). -/
def loadHigh (d : Reg) (op2 : Word) (f : Bool) (s : State) : Host.Outcome State Fault Refusal :=
  .next (finishLoad d f (highHalf op2) s.advance)

/-- `ldr`, R-type, with address modification (R161, R164, R166). -/
def execLdrR (d x : Reg) (v : BitVec 7) (u f : Bool) (c : Cond) (s : State) : Host.Outcome State Fault Refusal :=
  guarded c s fun s => checkWriteback d x v (loadModified d x (s.readReg x) v u f s)

/-- `ldr`, I-type (R161). -/
def execLdrI (d : Reg) (imm : BitVec 12) (f : Bool) (c : Cond) (s : State) : Host.Outcome State Fault Refusal :=
  guarded c s (loadAt d (imm12 imm) f)

/-- `ldr`, A-type (R161). -/
def execLdrA (d : Reg) (imm : BitVec 16) (f : Bool) (c : Cond) (s : State) : Host.Outcome State Fault Refusal :=
  guarded c s (loadAt d (imm16 imm) f)

/-- `ldr`, L-type: loads into `x0` (R161, R82; log 15). -/
def execLdrL (imm : BitVec 20) (f : Bool) (c : Cond) (s : State) : Host.Outcome State Fault Refusal :=
  guarded c s (loadAt noDest (imm20 imm) f)

/-- `str`, R-type, with address modification (R162, R164, R166). -/
def execStrR (d x : Reg) (v : BitVec 7) (u : Bool) (c : Cond) (s : State) : Host.Outcome State Fault Refusal :=
  guarded c s fun s => checkWriteback d x v (storeModified x (s.readReg x) (s.readReg d) v u s)

/-- `str`, I-type (R162). -/
def execStrI (d : Reg) (imm : BitVec 12) (c : Cond) (s : State) : Host.Outcome State Fault Refusal :=
  guarded c s fun s => storeAt (imm12 imm) (s.readReg d) s

/-- `str`, A-type (R162). -/
def execStrA (d : Reg) (imm : BitVec 16) (c : Cond) (s : State) : Host.Outcome State Fault Refusal :=
  guarded c s fun s => storeAt (imm16 imm) (s.readReg d) s

/-- `str`, L-type: stores `x0`, that is 0 (R162, R82; log 15). -/
def execStrL (imm : BitVec 20) (c : Cond) (s : State) : Host.Outcome State Fault Refusal :=
  guarded c s fun s => storeAt (imm20 imm) (s.readReg noDest) s

/-- `ldh`, R-type: the low half of a register (R163, R82; log 15). -/
def execLdhR (d x : Reg) (f : Bool) (c : Cond) (s : State) : Host.Outcome State Fault Refusal :=
  guarded c s fun s => loadHigh d (s.readReg x) f s

/-- `ldh`, I-type (R163, R82; log 15). -/
def execLdhI (d : Reg) (imm : BitVec 12) (f : Bool) (c : Cond) (s : State) : Host.Outcome State Fault Refusal :=
  guarded c s (loadHigh d (imm12 imm) f)

/-- `ldh`, A-type (R163). -/
def execLdhA (d : Reg) (imm : BitVec 16) (f : Bool) (c : Cond) (s : State) : Host.Outcome State Fault Refusal :=
  guarded c s (loadHigh d (imm16 imm) f)

/-- `ldh`, L-type: computes the value and discards it (R163, R82; log 15). -/
def execLdhL (imm : BitVec 20) (f : Bool) (c : Cond) (s : State) : Host.Outcome State Fault Refusal :=
  guarded c s (loadHigh noDest (imm20 imm) f)

end Sys2Proof.Machine
end

