-- ==== Sys2Proof/Machine/Pseudo.lean ====
section
/-!
DEFINITION. The pseudo-instructions, each with the effect its own rule describes (spec/41_alu.md R136 to R139,
42_load_store.md R168, R169, 43_branch.md R192). A word never decodes to one (log 20); that each does what its
translation does is a statement.
-/
namespace Sys2Proof.Machine

/-- `mov xd xs` (R136). -/
def execMovR (d x : Reg) (f : Bool) (c : Cond) (s : State) : Host.Outcome State Fault Refusal :=
  aluInstr (aluAdd noFirst (s.readReg x)) d f c s

/-- `mov xd imm` (R136). -/
def execMovA (d : Reg) (imm : BitVec 16) (f : Bool) (c : Cond) (s : State) : Host.Outcome State Fault Refusal :=
  aluInstr (aluAdd noFirst (imm16 imm)) d f c s

/-- `cmp xr xs`: the flags of the difference, whose value is discarded (R137). -/
def execCmpR (r x : Reg) (c : Cond) (s : State) : Host.Outcome State Fault Refusal :=
  aluInstr (aluSub (s.readReg r) (s.readReg x)) noDest true c s

/-- `cmp xr imm` (R137). -/
def execCmpI (r : Reg) (imm : BitVec 12) (c : Cond) (s : State) : Host.Outcome State Fault Refusal :=
  aluInstr (aluSub (s.readReg r) (imm12 imm)) noDest true c s

/-- `nop`: nothing changes but `pc`, whatever the condition (R138). -/
def execNopR (c : Cond) (s : State) : Host.Outcome State Fault Refusal :=
  guarded c s fun s => .next s.advance

/-- `not xd xr` (R139). -/
def execNotI (d r : Reg) (f : Bool) (c : Cond) (s : State) : Host.Outcome State Fault Refusal :=
  aluInstr (plain (~~~ s.readReg r)) d f c s

/-- `push xd`: a store below the stack pointer, which ends there (R168, R166). -/
def execPushR (d : Reg) (c : Cond) (s : State) : Host.Outcome State Fault Refusal :=
  guarded c s fun s => checkWriteback d 13#4 127#7 (storeModified 13#4 (s.readReg 13#4) (s.readReg d) 127#7 true s)

/-- `pop xd`: a load at the stack pointer, which ends one above (R169, R166). -/
def execPopR (d : Reg) (f : Bool) (c : Cond) (s : State) : Host.Outcome State Fault Refusal :=
  guarded c s fun s => checkWriteback d 13#4 1#7 (loadModified d 13#4 (s.readReg 13#4) 1#7 false f s)

/-- `b xs`: the register holds the target itself; no link, no flags (R192; log 29). -/
def execBxsR (x : Reg) (c : Cond) (s : State) : Host.Outcome State Fault Refusal :=
  guarded c s fun s => .next (s.advance.writeReg 15#4 (s.readReg x))

end Sys2Proof.Machine
end

