-- ==== Sys2Proof/Machine/Dispatch.lean ====
section
/-! DEFINITION. Which meaning each instruction has, one arm per constructor. -/
namespace Sys2Proof.Machine

def exec (i : Instr) (s : State) : Host.Outcome State Fault Refusal :=
  match i with
  | .addR d r x f c => Sys2Proof.Machine.execAddR d r x f c s
  | .addI d r imm f c => Sys2Proof.Machine.execAddI d r imm f c s
  | .addA d imm f c => Sys2Proof.Machine.execAddA d imm f c s
  | .addL imm f c => Sys2Proof.Machine.execAddL imm f c s
  | .subR d r x f c => Sys2Proof.Machine.execSubR d r x f c s
  | .subI d r imm f c => Sys2Proof.Machine.execSubI d r imm f c s
  | .subA d imm f c => Sys2Proof.Machine.execSubA d imm f c s
  | .subL imm f c => Sys2Proof.Machine.execSubL imm f c s
  | .sbnR d r x f c => Sys2Proof.Machine.execSbnR d r x f c s
  | .sbnI d r imm f c => Sys2Proof.Machine.execSbnI d r imm f c s
  | .sbnA d imm f c => Sys2Proof.Machine.execSbnA d imm f c s
  | .sbnL imm f c => Sys2Proof.Machine.execSbnL imm f c s
  | .mulR d r x f c => Sys2Proof.Machine.execMulR d r x f c s
  | .mulI d r imm f c => Sys2Proof.Machine.execMulI d r imm f c s
  | .mulA d imm f c => Sys2Proof.Machine.execMulA d imm f c s
  | .mulL imm f c => Sys2Proof.Machine.execMulL imm f c s
  | .divR d r x f c => Sys2Proof.Machine.execDivR d r x f c s
  | .divI d r imm f c => Sys2Proof.Machine.execDivI d r imm f c s
  | .divA d imm f c => Sys2Proof.Machine.execDivA d imm f c s
  | .divL imm f c => Sys2Proof.Machine.execDivL imm f c s
  | .modR d r x f c => Sys2Proof.Machine.execModR d r x f c s
  | .modI d r imm f c => Sys2Proof.Machine.execModI d r imm f c s
  | .modA d imm f c => Sys2Proof.Machine.execModA d imm f c s
  | .modL imm f c => Sys2Proof.Machine.execModL imm f c s
  | .expR d r x f c => Sys2Proof.Machine.execExpR d r x f c s
  | .expI d r imm f c => Sys2Proof.Machine.execExpI d r imm f c s
  | .expA d imm f c => Sys2Proof.Machine.execExpA d imm f c s
  | .expL imm f c => Sys2Proof.Machine.execExpL imm f c s
  | .shlR d r x f c => Sys2Proof.Machine.execShlR d r x f c s
  | .shlI d r imm f c => Sys2Proof.Machine.execShlI d r imm f c s
  | .shlA d imm f c => Sys2Proof.Machine.execShlA d imm f c s
  | .shlL imm f c => Sys2Proof.Machine.execShlL imm f c s
  | .shrR d r x f c => Sys2Proof.Machine.execShrR d r x f c s
  | .shrI d r imm f c => Sys2Proof.Machine.execShrI d r imm f c s
  | .shrA d imm f c => Sys2Proof.Machine.execShrA d imm f c s
  | .shrL imm f c => Sys2Proof.Machine.execShrL imm f c s
  | .andR d r x f c => Sys2Proof.Machine.execAndR d r x f c s
  | .andI d r imm f c => Sys2Proof.Machine.execAndI d r imm f c s
  | .andA d imm f c => Sys2Proof.Machine.execAndA d imm f c s
  | .andL imm f c => Sys2Proof.Machine.execAndL imm f c s
  | .orrR d r x f c => Sys2Proof.Machine.execOrrR d r x f c s
  | .orrI d r imm f c => Sys2Proof.Machine.execOrrI d r imm f c s
  | .orrA d imm f c => Sys2Proof.Machine.execOrrA d imm f c s
  | .orrL imm f c => Sys2Proof.Machine.execOrrL imm f c s
  | .xorR d r x f c => Sys2Proof.Machine.execXorR d r x f c s
  | .xorI d r imm f c => Sys2Proof.Machine.execXorI d r imm f c s
  | .xorA d imm f c => Sys2Proof.Machine.execXorA d imm f c s
  | .xorL imm f c => Sys2Proof.Machine.execXorL imm f c s
  | .ldrR d x v u f c => Sys2Proof.Machine.execLdrR d x v u f c s
  | .ldrI d imm f c => Sys2Proof.Machine.execLdrI d imm f c s
  | .ldrA d imm f c => Sys2Proof.Machine.execLdrA d imm f c s
  | .ldrL imm f c => Sys2Proof.Machine.execLdrL imm f c s
  | .strR d x v u c => Sys2Proof.Machine.execStrR d x v u c s
  | .strI d imm c => Sys2Proof.Machine.execStrI d imm c s
  | .strA d imm c => Sys2Proof.Machine.execStrA d imm c s
  | .strL imm c => Sys2Proof.Machine.execStrL imm c s
  | .ldhR d x f c => Sys2Proof.Machine.execLdhR d x f c s
  | .ldhI d imm f c => Sys2Proof.Machine.execLdhI d imm f c s
  | .ldhA d imm f c => Sys2Proof.Machine.execLdhA d imm f c s
  | .ldhL imm f c => Sys2Proof.Machine.execLdhL imm f c s
  | .bR x f c => Sys2Proof.Machine.execBR x f c s
  | .bI imm f c => Sys2Proof.Machine.execBI imm f c s
  | .bA imm f c => Sys2Proof.Machine.execBA imm f c s
  | .bL imm f c => Sys2Proof.Machine.execBL imm f c s
  | .setfR x c => Sys2Proof.Machine.execSetfR x c s
  | .setfI imm c => Sys2Proof.Machine.execSetfI imm c s
  | .setfA imm c => Sys2Proof.Machine.execSetfA imm c s
  | .setfL imm c => Sys2Proof.Machine.execSetfL imm c s
  | .brkR c => Sys2Proof.Machine.execBrkR c s
  | .waitT1 c => Sys2Proof.Machine.execWaitT1 c s
  | .waitT2 c => Sys2Proof.Machine.execWaitT2 c s
  | .movR d x f c => Sys2Proof.Machine.execMovR d x f c s
  | .movA d imm f c => Sys2Proof.Machine.execMovA d imm f c s
  | .cmpR r x c => Sys2Proof.Machine.execCmpR r x c s
  | .cmpI r imm c => Sys2Proof.Machine.execCmpI r imm c s
  | .nopR c => Sys2Proof.Machine.execNopR c s
  | .notI d r f c => Sys2Proof.Machine.execNotI d r f c s
  | .pushR d c => Sys2Proof.Machine.execPushR d c s
  | .popR d f c => Sys2Proof.Machine.execPopR d f c s
  | .bxsR x c => Sys2Proof.Machine.execBxsR x c s

end Sys2Proof.Machine
end

