-- ==== Sys2Proof/Machine/Step.lean ====
section
/-! DEFINITION. One step of the machine (spec/00_scope.md R8, R9), and where the host places a word to be run. -/
namespace Sys2Proof.Machine

/-- `Step` of the core: fetch, decode, execute (R8). A reserved word is refused by name (R84 to R87, R101). -/
def coreStep (s : State) : Host.Outcome State Fault Refusal :=
  match decode (fetch s.mem s.pc) with
  | .ok i => exec i s
  | .error why => reservedOutcome (fetch s.mem s.pc) why s

/-- One move of the agent whose turn it is (R9). While the clock is stopped the core makes no move (R22) and its turn
falls to the tick, the one agent that has a duty to move (R205; log 9). -/
def step (s : State) : Host.Outcome State Fault Refusal :=
  match s.turn with
  | .core => if s.hold = .running then coreStep s.takeTurn else .next (tick s.takeTurn)
  | .tick => .next (tick s.takeTurn)
  | .restart => .next (restart s.takeTurn)

/-- The address the word is placed at: the program counter, or 0 where that is no address of the program ROM. -/
def fetchPlace (s : State) : Word := if s.pc.toNat < Config.progRomEnd then s.pc else 0

/-- The state with an instruction's word in the program ROM at the program counter and the core about to run it: the
load of a program from outside the machine (R251; log 10). -/
def State.withFetchWord (s : State) (nbits w : Nat) : State :=
  { s with
    pc := fetchPlace s
    mem := s.mem.write (fetchPlace s).toNat (BitVec.ofNat 32 (w % 2 ^ nbits))
    hold := .running
    schedule := { s.schedule with agenda := .core :: s.schedule.agenda } }

end Sys2Proof.Machine
end

