-- ==== Sys2Proof/Machine/Assembler.lean ====
section
/-!
DEFINITION. What the spec gives of the assembler (spec/30_encoding.md R90 to R96, 42_load_store.md R165): the written forms,
the names they are written with, the format each is emitted in, label offsets, the data image and the constants that describe
it. The text grammar beyond this (comments, labels, the syntax of directives) is out of scope (00_scope.md section 3). Of the spellings the source allows for one
thing the model writes one (DESIGN CHOICE, log 34). The machine does not depend on this file (log 26).
-/
namespace Sys2Proof.Assembler

/-- The last operand of a written instruction: `xs/imm` (R92). -/
inductive Last where
  | reg (x : Reg)
  | imm (n : Int)
  deriving DecidableEq, Repr

/-- The address modification postfixes (R165). -/
inductive Modification where
  | ib | ia | db | da
  deriving DecidableEq, Repr

/-- The `v` field a postfix stands for: 1 or -1 (R165). -/
def Modification.v : Modification → BitVec 7
  | .ib => 1#7 | .ia => 1#7 | .db => 127#7 | .da => 127#7

/-- The `u` field a postfix stands for: before is 1, after is 0 (R165). -/
def Modification.u : Modification → Bool
  | .ib => true | .ia => false | .db => true | .da => false

/-- The `v` field without or with a postfix: without, 0 is added (R165). -/
def vOf (m : Option Modification) : BitVec 7 := match m with | none => 0#7 | some m => m.v

/-- The `u` field without or with a postfix (R165). -/
def uOf (m : Option Modification) : Bool := match m with | none => false | some m => m.u

/-- The written instructions: the grammar of R90, the pseudo-instructions of R93. `f` is the postfix `s` or `l`. That condition
1111 may stand in a written line is the model's choice: the source gives no postfix for it (R101, 91_not_in_source.md N14;
DESIGN CHOICE, log 34). -/
inductive Line where
  | alu (op : AluOp) (f : Bool) (c : Cond) (d r : Reg) (last : Last)
  | ldr (m : Option Modification) (f : Bool) (c : Cond) (d : Reg) (last : Last)
  | str (m : Option Modification) (c : Cond) (d : Reg) (last : Last)
  | ldh (f : Bool) (c : Cond) (d : Reg) (n : Int)
  | b (f : Bool) (c : Cond) (offset : Int)
  | setf (c : Cond) (last : Last)
  | brk (c : Cond)
  | wait (c : Cond) (t : Machine.Timer)
  | mov (f : Bool) (c : Cond) (d : Reg) (last : Last)
  | cmp (c : Cond) (r : Reg) (last : Last)
  | nop (c : Cond)
  | not (f : Bool) (c : Cond) (d r : Reg)
  | push (c : Cond) (d : Reg)
  | pop (f : Bool) (c : Cond) (d : Reg)
  | bReg (c : Cond) (x : Reg)
  deriving DecidableEq, Repr

/-- A signed number that fits a field of `w` bits (R75, R95). -/
def fits (w : Nat) (n : Int) : Bool := decide (-2 ^ (w - 1) ≤ n) && decide (n < 2 ^ (w - 1))

/-- The immediate of `w` bits, if the number fits. One that does not cannot be encoded (R95); that nothing is emitted for it
is the model's choice (DESIGN CHOICE, log 32). -/
def field (w : Nat) (n : Int) : Option (BitVec w) := if fits w n then some (BitVec.ofInt w n) else none

/-- The immediate of `ldh`, signed or unsigned alike (R163); none for one that does not fit is the model's choice (DESIGN
CHOICE, log 32). -/
def halfField (n : Int) : Option (BitVec 16) :=
  if fits 16 n || (decide (0 ≤ n) && decide (n < 2 ^ 16)) then some (BitVec.ofInt 16 n) else none

/-- The offset an assembler computes for a branch at `A` to a label at `T` (R95, R190). -/
def labelOffset (A T : Int) : Int := T - (A + 3)

/-- The instruction a written line becomes, in the canonical format (R93, R94, R165). Where an immediate does not fit, what the
assembler does is not stated (R95, 91_not_in_source.md N13): that it makes nothing of the line, rather than truncate or expand,
is the model's choice (DESIGN CHOICE, log 32). A line with condition 1111 gives the word with that condition (DESIGN CHOICE,
log 34). -/
def assemble (l : Line) : Option Instr :=
  match l with
  | .alu op f c d r (.reg x) => some (aluR op d r x f c)
  | .alu op f c d r (.imm n) =>
    if r = 0#4 then (field 16 n).map fun i => aluA op d i f c else (field 12 n).map fun i => aluI op d r i f c
  | .ldr m f c d (.reg x) => some (.ldrR d x (vOf m) (uOf m) f c)
  | .ldr none f c d (.imm n) => (field 16 n).map fun i => .ldrA d i f c
  | .ldr (some _) _ _ _ (.imm _) => none
  | .str m c d (.reg x) => some (.strR d x (vOf m) (uOf m) c)
  | .str none c d (.imm n) => (field 16 n).map fun i => .strA d i c
  | .str (some _) _ _ (.imm _) => none
  | .ldh f c d n => (halfField n).map fun i => .ldhA d i f c
  | .b f c n => (field 20 n).map fun i => .bL i f c
  | .setf c (.reg x) => some (.setfR x c)
  | .setf c (.imm n) => (field 16 n).map fun i => .setfA i c
  | .brk c => some (.brkR c)
  | .wait c .t1 => some (.waitT1 c)
  | .wait c .t2 => some (.waitT2 c)
  | .mov f c d (.reg x) => some (.movR d x f c)
  | .mov f c d (.imm n) => (field 16 n).map fun i => .movA d i f c
  | .cmp c r (.reg x) => some (.cmpR r x c)
  | .cmp c r (.imm n) => (field 12 n).map fun i => .cmpI r i c
  | .nop c => some (.nopR c)
  | .not f c d r => some (.notI d r f c)
  | .push c d => some (.pushR d c)
  | .pop f c d => some (.popR d f c)
  | .bReg c x => some (.bxsR x c)

/-- The word a written line becomes. -/
def assembleWord (l : Line) : Option Word := (assemble l).map encode

/-! ## Data directives and constants -/

/-- A `@var` or `@array` directive with the initial values of its words. How many words a `@var` takes is not stated
(91_not_in_source.md N11), so it is any number here too (R96). -/
inductive Datum where
  | var (inits : List Word)
  | array (inits : List Word)
  deriving DecidableEq, Repr

/-- The initial values of one directive (R96). -/
def Datum.words : Datum → List Word
  | .var inits => inits
  | .array inits => inits

/-- The words of the data ROM that directives occupy, listed in the order in which the assembler lays them out, which is not
stated (R96; log 33). -/
def dataImage (ds : List Datum) : List Word := ds.flatMap Datum.words

/-- The constants the assembler defines (R96). -/
inductive Constant where
  | datastart | datalen | ramstart
  deriving DecidableEq, Repr

/-- The name of a constant (R96). -/
def Constant.name : Constant → String
  | .datastart => "_datastart"
  | .datalen => "_datalen"
  | .ramstart => "_ramstart"

/-- The value of a constant in a program with these directives; `_datalen` counts words (R96). -/
def Constant.value (ds : List Datum) : Constant → Word
  | .datastart => Config.dataStart
  | .datalen => BitVec.ofNat 32 (dataImage ds).length
  | .ramstart => Config.ramStart

/-- The RAM address of word `k` of the variables and arrays, `_ramstart + k` (R96; the spec's decision D37, log 33). -/
def variableAddr (ds : List Datum) (k : Nat) : Word := Constant.ramstart.value ds + BitVec.ofNat 32 k

/-- The data ROM address of the initial value of that word, `_datastart + k` (R96; the spec's decision D37, log 33). -/
def initialAddr (ds : List Datum) (k : Nat) : Word := Constant.datastart.value ds + BitVec.ofNat 32 k

/-- The name of an operation (R81, R90). -/
def opName : AluOp → String
  | .add => "add" | .sub => "sub" | .sbn => "sbn" | .mul => "mul" | .div => "div" | .mod => "mod"
  | .exp => "exp" | .shl => "shl" | .shr => "shr" | .and => "and" | .orr => "orr" | .xor => "xor"

/-- The postfix of a condition; Always has none (R90, R100). The source gives none for Never either and does not say how such a
line is written (R101, 91_not_in_source.md N14): that it is written without a postfix, exactly as the Always line, so that one
text then stands for two words, is the model's choice (DESIGN CHOICE, log 34). -/
def condName : Cond → String
  | .always => "" | .eq => "eq" | .ne => "ne" | .ng => "ng" | .pz => "pz" | .lt => "lt" | .le => "le"
  | .gt => "gt" | .ge => "ge" | .vs => "vs" | .vc => "vc" | .es => "es" | .ec => "ec" | .never => ""

/-- The postfix of an address modification (R165). -/
def modName : Option Modification → String
  | none => "" | some .ib => "ib" | some .ia => "ia" | some .db => "db" | some .da => "da"

/-- A postfix letter that is written or not (R90). -/
def letter (f : Bool) (l : String) : String := if f then l else ""

/-- The mnemonic of a written line: base name, address modification, `s` or `l`, condition (R90). -/
def mnemonic (l : Line) : String :=
  match l with
  | .alu op f c _ _ _ => opName op ++ letter f "s" ++ condName c
  | .ldr m f c _ _ => "ldr" ++ modName m ++ letter f "s" ++ condName c
  | .str m c _ _ => "str" ++ modName m ++ condName c
  | .ldh f c _ _ => "ldh" ++ letter f "s" ++ condName c
  | .b f c _ => "b" ++ letter f "l" ++ condName c
  | .setf c _ => "setf" ++ condName c
  | .brk c => "brk" ++ condName c
  | .wait c _ => "wait" ++ condName c
  | .mov f c _ _ => "mov" ++ letter f "s" ++ condName c
  | .cmp c _ _ => "cmp" ++ condName c
  | .nop c => "nop" ++ condName c
  | .not f c _ _ => "not" ++ letter f "s" ++ condName c
  | .push c _ => "push" ++ condName c
  | .pop f c _ => "pop" ++ letter f "s" ++ condName c
  | .bReg c _ => "b" ++ condName c

/-- The name of a register; where R91 gives an alias, that the alias is written is the model's choice (DESIGN CHOICE, log 34). -/
def regName (r : Reg) : String :=
  match r.toNat with
  | 11 => "t1" | 12 => "t2" | 13 => "sp" | 14 => "lr" | 15 => "pc" | n => "x" ++ toString n

/-- The last operand as it is written, an immediate in decimal (R92; DESIGN CHOICE, log 34). -/
def lastName : Last → String
  | .reg x => regName x
  | .imm n => toString n

/-- A written line in full: mnemonic, then the operands, destination first, separated by spaces (R92). -/
def text (l : Line) : String :=
  match l with
  | .alu _ _ _ d r last => mnemonic l ++ " " ++ regName d ++ " " ++ regName r ++ " " ++ lastName last
  | .ldr _ _ _ d last => mnemonic l ++ " " ++ regName d ++ " " ++ lastName last
  | .str _ _ d last => mnemonic l ++ " " ++ regName d ++ " " ++ lastName last
  | .ldh _ _ d n => mnemonic l ++ " " ++ regName d ++ " " ++ toString n
  | .b _ _ n => mnemonic l ++ " " ++ toString n
  | .setf _ last => mnemonic l ++ " " ++ lastName last
  | .brk _ => mnemonic l
  | .wait _ .t1 => mnemonic l ++ " t1"
  | .wait _ .t2 => mnemonic l ++ " t2"
  | .mov _ _ d last => mnemonic l ++ " " ++ regName d ++ " " ++ lastName last
  | .cmp _ r last => mnemonic l ++ " " ++ regName r ++ " " ++ lastName last
  | .nop _ => mnemonic l
  | .not _ _ d r => mnemonic l ++ " " ++ regName d ++ " " ++ regName r
  | .push _ d => mnemonic l ++ " " ++ regName d
  | .pop _ _ d => mnemonic l ++ " " ++ regName d
  | .bReg _ x => mnemonic l ++ " " ++ regName x

end Sys2Proof.Assembler
end

