-- ==== Sys2Proof/WellFormed.lean ====
section
/-!
DEFINITION. What an instruction of a program must satisfy beyond the widths its type fixes. The field widths,
the reserved fields and the reserved conditions are already impossible to write as an `Instr`; what is left are
the address register conflicts of spec/42_load_store.md R166 (entries U10, U11).
-/
namespace Sys2Proof

/-- An `ldr` or `str` with address register `x`, data register `d` and modification `v` has a meaning: with
`v` not 0 the address register is neither the data register (U10) nor `x15` (U11). -/
def writebackOk (d x : Reg) (v : BitVec 7) : Bool := v == 0#7 || (d != x && x != 15#4)

/-- The instructions a program may contain (R166). `push` and `pop` modify `x13` (R168, R169). -/
def Instr.wellFormed : Instr → Bool
  | .ldrR d x v _ _ _ => writebackOk d x v
  | .strR d x v _ _ => writebackOk d x v
  | .pushR d _ => writebackOk d 13#4 127#7
  | .popR d _ _ => writebackOk d 13#4 1#7
  | _ => true

end Sys2Proof
end

