-- ==== Sys2Proof/Safety.lean ====
section
/-!
DEFINITION. What counts as a safe run, and the terms in which claims say what an instruction does: what of the state it
may change, and how.
-/
namespace Sys2Proof

open Machine

/-- The condition of an instruction (R100). -/
def Instr.condOf (i : Instr) : Cond :=
  match i with
  | .addR _ _ _ _ c => c | .addI _ _ _ _ c => c | .addA _ _ _ c => c | .addL _ _ c => c | .subR _ _ _ _ c => c
  | .subI _ _ _ _ c => c | .subA _ _ _ c => c | .subL _ _ c => c | .sbnR _ _ _ _ c => c | .sbnI _ _ _ _ c => c
  | .sbnA _ _ _ c => c | .sbnL _ _ c => c | .mulR _ _ _ _ c => c | .mulI _ _ _ _ c => c | .mulA _ _ _ c => c
  | .mulL _ _ c => c | .divR _ _ _ _ c => c | .divI _ _ _ _ c => c | .divA _ _ _ c => c | .divL _ _ c => c
  | .modR _ _ _ _ c => c | .modI _ _ _ _ c => c | .modA _ _ _ c => c | .modL _ _ c => c | .expR _ _ _ _ c => c
  | .expI _ _ _ _ c => c | .expA _ _ _ c => c | .expL _ _ c => c | .shlR _ _ _ _ c => c | .shlI _ _ _ _ c => c
  | .shlA _ _ _ c => c | .shlL _ _ c => c | .shrR _ _ _ _ c => c | .shrI _ _ _ _ c => c | .shrA _ _ _ c => c
  | .shrL _ _ c => c | .andR _ _ _ _ c => c | .andI _ _ _ _ c => c | .andA _ _ _ c => c | .andL _ _ c => c
  | .orrR _ _ _ _ c => c | .orrI _ _ _ _ c => c | .orrA _ _ _ c => c | .orrL _ _ c => c | .xorR _ _ _ _ c => c
  | .xorI _ _ _ _ c => c | .xorA _ _ _ c => c | .xorL _ _ c => c | .ldrR _ _ _ _ _ c => c | .ldrI _ _ _ c => c
  | .ldrA _ _ _ c => c | .ldrL _ _ c => c | .strR _ _ _ _ c => c | .strI _ _ c => c | .strA _ _ c => c
  | .strL _ c => c | .ldhR _ _ _ c => c | .ldhI _ _ _ c => c | .ldhA _ _ _ c => c | .ldhL _ _ c => c
  | .bR _ _ c => c | .bI _ _ c => c | .bA _ _ c => c | .bL _ _ c => c | .setfR _ c => c | .setfI _ c => c
  | .setfA _ c => c | .setfL _ c => c | .brkR c => c | .waitT1 c => c | .waitT2 c => c | .movR _ _ _ c => c
  | .movA _ _ _ c => c | .cmpR _ _ c => c | .cmpI _ _ c => c | .nopR c => c | .notI _ _ _ c => c
  | .pushR _ c => c | .popR _ _ c => c | .bxsR _ c => c

/-- Whether an instruction writes the flags when it runs (R19, R87, R104). -/
def Instr.writesFlags (i : Instr) : Bool :=
  match i with
  | .addR _ _ _ f _ => f | .addI _ _ _ f _ => f | .addA _ _ f _ => f | .addL _ f _ => f | .subR _ _ _ f _ => f
  | .subI _ _ _ f _ => f | .subA _ _ f _ => f | .subL _ f _ => f | .sbnR _ _ _ f _ => f | .sbnI _ _ _ f _ => f
  | .sbnA _ _ f _ => f | .sbnL _ f _ => f | .mulR _ _ _ f _ => f | .mulI _ _ _ f _ => f | .mulA _ _ f _ => f
  | .mulL _ f _ => f | .divR _ _ _ f _ => f | .divI _ _ _ f _ => f | .divA _ _ f _ => f | .divL _ f _ => f
  | .modR _ _ _ f _ => f | .modI _ _ _ f _ => f | .modA _ _ f _ => f | .modL _ f _ => f | .expR _ _ _ f _ => f
  | .expI _ _ _ f _ => f | .expA _ _ f _ => f | .expL _ f _ => f | .shlR _ _ _ f _ => f | .shlI _ _ _ f _ => f
  | .shlA _ _ f _ => f | .shlL _ f _ => f | .shrR _ _ _ f _ => f | .shrI _ _ _ f _ => f | .shrA _ _ f _ => f
  | .shrL _ f _ => f | .andR _ _ _ f _ => f | .andI _ _ _ f _ => f | .andA _ _ f _ => f | .andL _ f _ => f
  | .orrR _ _ _ f _ => f | .orrI _ _ _ f _ => f | .orrA _ _ f _ => f | .orrL _ f _ => f | .xorR _ _ _ f _ => f
  | .xorI _ _ _ f _ => f | .xorA _ _ f _ => f | .xorL _ f _ => f | .ldrR _ _ _ _ f _ => f | .ldrI _ _ f _ => f
  | .ldrA _ _ f _ => f | .ldrL _ f _ => f | .strR _ _ _ _ _ => false | .strI _ _ _ => false
  | .strA _ _ _ => false | .strL _ _ => false | .ldhR _ _ f _ => f | .ldhI _ _ f _ => f | .ldhA _ _ f _ => f
  | .ldhL _ f _ => f | .bR _ _ _ => false | .bI _ _ _ => false | .bA _ _ _ => false | .bL _ _ _ => false
  | .setfR _ _ => true | .setfI _ _ => true | .setfA _ _ => true | .setfL _ _ => true | .brkR _ => false
  | .waitT1 _ => false | .waitT2 _ => false | .movR _ _ f _ => f | .movA _ _ f _ => f | .cmpR _ _ _ => true
  | .cmpI _ _ _ => true | .nopR _ => false | .notI _ _ f _ => f | .pushR _ _ => false | .popR _ f _ => f
  | .bxsR _ _ => false

/-- The registers an instruction may write when it runs: its destination, the address register it modifies, the link
register (R12, R13, R77, R164, R190). -/
def Instr.regsWritten (i : Instr) : List Reg :=
  match i with
  | .addR d _ _ _ _ => [d] | .addI d _ _ _ _ => [d] | .addA d _ _ _ => [d] | .addL _ _ _ => []
  | .subR d _ _ _ _ => [d] | .subI d _ _ _ _ => [d] | .subA d _ _ _ => [d] | .subL _ _ _ => []
  | .sbnR d _ _ _ _ => [d] | .sbnI d _ _ _ _ => [d] | .sbnA d _ _ _ => [d] | .sbnL _ _ _ => []
  | .mulR d _ _ _ _ => [d] | .mulI d _ _ _ _ => [d] | .mulA d _ _ _ => [d] | .mulL _ _ _ => []
  | .divR d _ _ _ _ => [d] | .divI d _ _ _ _ => [d] | .divA d _ _ _ => [d] | .divL _ _ _ => []
  | .modR d _ _ _ _ => [d] | .modI d _ _ _ _ => [d] | .modA d _ _ _ => [d] | .modL _ _ _ => []
  | .expR d _ _ _ _ => [d] | .expI d _ _ _ _ => [d] | .expA d _ _ _ => [d] | .expL _ _ _ => []
  | .shlR d _ _ _ _ => [d] | .shlI d _ _ _ _ => [d] | .shlA d _ _ _ => [d] | .shlL _ _ _ => []
  | .shrR d _ _ _ _ => [d] | .shrI d _ _ _ _ => [d] | .shrA d _ _ _ => [d] | .shrL _ _ _ => []
  | .andR d _ _ _ _ => [d] | .andI d _ _ _ _ => [d] | .andA d _ _ _ => [d] | .andL _ _ _ => []
  | .orrR d _ _ _ _ => [d] | .orrI d _ _ _ _ => [d] | .orrA d _ _ _ => [d] | .orrL _ _ _ => []
  | .xorR d _ _ _ _ => [d] | .xorI d _ _ _ _ => [d] | .xorA d _ _ _ => [d] | .xorL _ _ _ => []
  | .ldrR d x v _ _ _ => d :: (if v = 0#7 then [] else [x]) | .ldrI d _ _ _ => [d] | .ldrA d _ _ _ => [d]
  | .ldrL _ _ _ => [] | .strR _ x v _ _ => if v = 0#7 then [] else [x] | .strI _ _ _ => [] | .strA _ _ _ => []
  | .strL _ _ => [] | .ldhR d _ _ _ => [d] | .ldhI d _ _ _ => [d] | .ldhA d _ _ _ => [d] | .ldhL _ _ _ => []
  | .bR _ f _ => if f then [14] else [] | .bI _ f _ => if f then [14] else []
  | .bA _ f _ => if f then [14] else [] | .bL _ f _ => if f then [14] else [] | .setfR _ _ => []
  | .setfI _ _ => [] | .setfA _ _ => [] | .setfL _ _ => [] | .brkR _ => [] | .waitT1 _ => [] | .waitT2 _ => []
  | .movR d _ _ _ => [d] | .movA d _ _ _ => [d] | .cmpR _ _ _ => [] | .cmpI _ _ _ => [] | .nopR _ => []
  | .notI d _ _ _ => [d] | .pushR _ _ => [13] | .popR d _ _ => [d, 13] | .bxsR _ _ => [15]

/-- The branch instruction (R190, R191). -/
def Instr.isBranch (i : Instr) : Bool :=
  match i with
  | .bR _ _ _ => true | .bI _ _ _ => true | .bA _ _ _ => true | .bL _ _ _ => true | _ => false

/-- The instructions that stop the clock (R201, R202). -/
def Instr.stopsClock (i : Instr) : Bool :=
  match i with
  | .brkR _ => true | .waitT1 _ => true | .waitT2 _ => true | _ => false

/-- The address an instruction stores to when it runs, as its meaning computes it (R162, R164, R168). -/
def Instr.storeAddr (i : Instr) (s : State) : Option Word :=
  match i with
  | .strR _ x v u _ => some (accessAddr (s.readReg x) v u)
  | .strI _ imm _ => some (imm12 imm)
  | .strA _ imm _ => some (imm16 imm)
  | .strL imm _ => some (imm20 imm)
  | .pushR _ _ => some (accessAddr (s.readReg 13#4) 127#7 true)
  | _ => none

/-- The address an instruction loads from when it runs, as its meaning computes it (R161, R164, R169). -/
def Instr.loadAddr (i : Instr) (s : State) : Option Word :=
  match i with
  | .ldrR _ x v u _ _ => some (accessAddr (s.readReg x) v u)
  | .ldrI _ imm _ _ => some (imm12 imm)
  | .ldrA _ imm _ _ => some (imm16 imm)
  | .ldrL imm _ _ => some (imm20 imm)
  | .popR _ _ _ => some (accessAddr (s.readReg 13#4) 1#7 false)
  | _ => none

/-- The word an instruction stores when it runs (R77, R162, R168). -/
def Instr.storeData (i : Instr) (s : State) : Word :=
  match i with
  | .strR d _ _ _ _ => s.readReg d
  | .strI d _ _ => s.readReg d
  | .strA d _ _ => s.readReg d
  | .pushR d _ => s.readReg d
  | _ => 0

/-- The register a load from memory writes, `x0` in L-type (R77, R161, R169). -/
def Instr.loadDest (i : Instr) : Option Reg :=
  match i with
  | .ldrR d _ _ _ _ _ => some d
  | .ldrI d _ _ _ => some d
  | .ldrA d _ _ _ => some d
  | .ldrL _ _ _ => some noDest
  | .popR d _ _ => some d
  | _ => none

end Sys2Proof

namespace Sys2Proof.Machine

/-- An address of GPIO or VRAM (R48). -/
def isDevice (a : Word) : Prop := regionOf a = .gpio ∨ regionOf a = .vram

/-- An address a load reads plainly: data ROM or RAM (R47, R49). -/
def isReadable (a : Word) : Prop := regionOf a = .dataRom ∨ regionOf a = .ram

/-- No step from here in `n` moves stops. -/
def SafeFor (n : Nat) (s : State) : Prop := ∃ t, Sys2Proof.core.run n s = .next t

/-- The invariant of the machine: memory is in its canonical form, and the clock waits only for a timer that has not
reached 0 (R20, R202, R204). -/
def Inv (s : State) : Prop := s.mem.wf = true ∧ ∀ t, s.hold = .wait t → s.timer t ≠ 0#32

/-- From `s` to `t`, register `d` took a value and no other register changed; `x0` takes none (R11), a value for `x15` is
the address of the next instruction (R16), which otherwise is the one in line (R17). -/
def Wrote (s t : State) (d : Reg) (value : Word) : Prop :=
  (∀ q : Reg, q ≠ 15#4 → t.regs.get q = if q = d ∧ q ≠ 0#4 then value else s.regs.get q) ∧
    t.pc = if d = 15#4 then value else s.pc + 1

/-- From `s` to `t` no register changed and the next instruction is the one in line (R17). -/
def OnlyAdvanced (s t : State) : Prop := t.regs = s.regs ∧ t.pc = s.pc + 1

/-- The flags after an instruction with bit 4 equal to `f`: all four from the result and the two flag bits, or none
(R103, R105). -/
def FlagsAfter (s t : State) (f : Bool) (result : Word) (v e : Bool) : Prop :=
  if f then
    (t.flags.z = true ↔ result = 0#32) ∧ (t.flags.n = true ↔ result.toInt < 0) ∧ t.flags.v = v ∧ t.flags.e = e
  else t.flags = s.flags

/-- The clock still runs as it did, no device was accessed, the schedule stands. -/
def SameElsewhere (s t : State) : Prop := t.hold = s.hold ∧ t.devTrace = s.devTrace ∧ t.schedule = s.schedule

/-- Every word of memory reads as before. -/
def SameMemory (s t : State) : Prop := ∀ a, t.mem.read a = s.mem.read a

/-- A word is no instruction: the decoder says why, and the core refuses it by that name unless its condition is 1111
(R101, R102; log 13). -/
def RefusedByCore (w : Word) (why : Reserved) : Prop :=
  decode w = .error why ∧
    ∀ s : State, s.turn = .core → s.hold = .running → fetch s.mem s.pc = w → condField w ≠ 15#4 →
      step s = .refused (.reservedWord why)

/-- The schedule of the first `n` moves holds no restart (R204, R205). -/
def HostKeepsAway (n : Nat) (s : State) : Prop := ∀ m < n, (Schedule.next^[m] s.schedule).turn ≠ .restart

/-- An instruction runs to a next state of which something holds. -/
def Runs (i : Instr) (s : State) (post : State → Prop) : Prop := ∃ t, exec i s = .next t ∧ post t

/-- An instruction with operands `a`, `b` writes a result to `d`, the flags if `f`, and nothing else (R120). -/
def AluEffect (i : Instr) (s : State) (d : Reg) (f : Bool) (result : Word) (v e : Bool) : Prop :=
  Runs i s fun t => Wrote s t d result ∧ FlagsAfter s t f result v e ∧ SameElsewhere s t ∧ SameMemory s t

/-- An operation in its three formats: in each, where the condition holds, the result and the flag bits are the given
functions of the two operands of the format (R75, R76, R120). -/
def AluFamily (mkR : Reg → Reg → Reg → Bool → Cond → Instr) (mkI : Reg → Reg → BitVec 12 → Bool → Cond → Instr)
    (mkA : Reg → BitVec 16 → Bool → Cond → Instr) (result : Word → Word → Word) (v e : Word → Word → Bool) : Prop :=
  ∀ (s : State) (f : Bool) (c : Cond), condHolds c s.flags = true →
    (∀ d r x, AluEffect (mkR d r x f c) s d f (result (s.readReg r) (s.readReg x)) (v (s.readReg r) (s.readReg x))
      (e (s.readReg r) (s.readReg x))) ∧
    (∀ d r imm, AluEffect (mkI d r imm f c) s d f (result (s.readReg r) (imm.signExtend 32))
      (v (s.readReg r) (imm.signExtend 32)) (e (s.readReg r) (imm.signExtend 32))) ∧
    (∀ d imm, AluEffect (mkA d imm f c) s d f (result 0#32 (imm.signExtend 32)) (v 0#32 (imm.signExtend 32))
      (e 0#32 (imm.signExtend 32)))

/-- The flag bit an operation leaves 0 (R103). -/
def clear (_ _ : Word) : Bool := false

/-- The end of a load: the destination takes the word, the flags follow it if `f` (R161, R163). -/
def Loaded (s t : State) (d : Reg) (f : Bool) (value : Word) : Prop :=
  Wrote s t d value ∧ FlagsAfter s t f value false false

/-- The end of an R-type load with modification `v` of the register `x`, where `x` is not the destination (R161, R164):
both registers are written and no other. -/
def LoadedModified (s t : State) (d x : Reg) (f : Bool) (value : Word) (v : BitVec 7) : Prop :=
  (∀ q : Reg, q ≠ 15#4 → t.regs.get q =
    if q = d ∧ q ≠ 0#4 then value
    else if v ≠ 0#7 ∧ q = x ∧ q ≠ 0#4 then s.readReg x + v.signExtend 32 else s.regs.get q) ∧
    t.pc = (if d = 15#4 then value else s.pc + 1) ∧ FlagsAfter s t f value false false

/-- The end of an R-type store with modification `v` of the register `x` (R162, R164): that register is written and no
other, no flag is. -/
def StoredModified (s t : State) (x : Reg) (v : BitVec 7) : Prop :=
  (∀ q : Reg, q ≠ 15#4 → t.regs.get q =
    if v ≠ 0#7 ∧ q = x ∧ q ≠ 0#4 then s.readReg x + v.signExtend 32 else s.regs.get q) ∧
    t.pc = s.pc + 1 ∧ t.flags = s.flags

end Sys2Proof.Machine
end

