-- ==== Sys2Proof/Certificates/Slice0/Obligations.lean ====
section
/-!
DEFINITION. The statements for the provers. Each is about every state, not about runs from reset only.
-/
open Sys2Proof Sys2Proof.Machine

/-! ## Encoding -/

/-- Decoding the word of any instruction, with every operand at every value, gives that instruction; for a
pseudo-instruction, the first class instruction it stands for (R80, R93). -/
def Obligations.DecodeOfEncodeIsExpansion : Prop :=
  ∀ i : Instr, decode (encode i) = .ok i.expand

/-- A word that decodes is the word of its instruction: no bit is dropped, no two words decode alike (R80, R86). -/
def Obligations.EncodeOfDecodeIsTheWord : Prop :=
  ∀ (w : Word) (i : Instr), decode w = .ok i → encode i = w

/-- Words of the spec (95 sections 2.1 and 2.2) decode to the instructions they are listed under: the fields of R71 to R74, the
opcodes of R81, the conditions of R100, the `v` and `u` of R164. The last clause, `wait t2`, rests on the table of R203,
which is the spec's own choice (WAIT_ENCODING; log 17). -/
def Obligations.ListedWordsDecode : Prop :=
  decode 0x00213012#32 = .ok (.addR 3 1 2 true .ne) ∧
  decode 0x001130B0#32 = .ok (.subI 3 1 1 true .always) ∧
  decode 0x80001040#32 = .ok (.addA 1 (-32768) false .always) ∧
  decode 0x02201811#32 = .ok (.ldrR 1 2 1 false true .eq) ∧
  decode 0xFF201880#32 = .ok (.strR 1 2 (-1) true .always) ∧
  decode 0x12341940#32 = .ok (.ldhA 1 0x1234 false .always) ∧
  decode 0xFFFFBE62#32 = .ok (.bL (-5) false .ne) ∧
  decode 0x00100E90#32 = .ok (.setfR 1 .always) ∧
  decode 0x00C00F00#32 = .ok (.waitT2 .always)

/-- A word with an unassigned opcode and a condition that is not reserved is refused by that name, and the core refuses
it where its condition is not 1111 (R85). That a reserved word is refused is the treatment the spec names (log 13). -/
def Obligations.UnassignedOpcodesAreRefused : Prop :=
  ∀ w : Word, opField w ∈ [12, 13, 14, 15, 19, 20, 21, 22, 23, 24, 25, 26, 27, 31] →
    condField w ≠ 13 → condField w ≠ 14 → RefusedByCore w .unassignedOpcode

/-- `ldr`, `str` and `ldh` words in R-type or I-type with a nonzero first operand field do not decode, and the core refuses
them where their condition is not 1111, by that name unless the condition is itself reserved (R84). That a reserved word is
refused is the treatment the spec names (log 13). -/
def Obligations.NonzeroFirstOperandIsRefused : Prop :=
  ∀ w : Word, opField w ∈ [16, 17, 18] → fmtField w ∈ [0, 1] → rField w ≠ 0 →
    ∃ why, RefusedByCore w why ∧ (condField w ≠ 13 → condField w ≠ 14 → why = .firstOperandNotZero)

/-- Words with a nonzero unused field (R86), with a value of bit 4 that the instruction does not admit (R87), and opcode
30 words outside R203's table do not decode, and the core refuses them where their condition is not 1111. That a reserved
word is refused is the treatment the spec names (log 13); the table of R203 is the spec's choice (log 17). -/
def Obligations.UnusedFieldsAndBitFourAreChecked : Prop :=
  ∀ w : Word,
    (opField w ∈ [0, 1, 2, 3, 4, 5, 6, 7, 8, 9, 10, 11] ∧ fmtField w = 0 ∧ eField w ≠ 0) ∨
    (opField w = 18 ∧ fmtField w = 0 ∧ eField w ≠ 0) ∨
    (opField w ∈ [28, 29, 30] ∧ fmtField w = 0 ∧ (eField w ≠ 0 ∨ rField w ≠ 0 ∨ dField w ≠ 0)) ∨
    (opField w ∈ [28, 29] ∧ fmtField w = 1 ∧ (rField w ≠ 0 ∨ dField w ≠ 0)) ∨
    (opField w ∈ [28, 29] ∧ fmtField w = 2 ∧ dField w ≠ 0) ∨
    (opField w ∈ [17, 30] ∧ flagField w = true) ∨
    (opField w = 29 ∧ flagField w = false) ∨
    (opField w = 30 ∧ (fmtField w ≠ 0 ∨ sField w ∉ [0, 11, 12])) →
    ∃ why, RefusedByCore w why ∧ (condField w ≠ 13 → condField w ≠ 14 →
      why ∈ [.unusedFieldNotZero, .flagBit, .formatPairing, .timerSelector] ∨
        (opField w ∈ [17, 18] ∧ why = .firstOperandNotZero))

/-! ## Conditions and flags -/

/-- The sixteen codes of the condition field: what thirteen of them test, that 15 never holds, that 13 and 14 name no
condition, so that a word with one of these does not decode and the core refuses it by that name (R100, R101). That it is
refused is the treatment the spec names (log 13). -/
def Obligations.ConditionCodeTable : Prop :=
  (∀ w : Word, condField w ∈ [13, 14] → RefusedByCore w .reservedCondition) ∧
  ∀ z n v e : Bool, ∀ holds : BitVec 4 → Option Bool,
    holds = (fun k => (Cond.ofBits k).map fun c => condHolds c ⟨z, n, v, e⟩) →
    holds 0 = some true ∧ holds 1 = some z ∧ holds 2 = some (!z) ∧ holds 3 = some n ∧ holds 4 = some (!n) ∧
    holds 5 = some (decide (n ≠ v)) ∧ holds 6 = some (decide (z = true ∨ n ≠ v)) ∧
    holds 7 = some (decide (z = false ∧ n = v)) ∧ holds 8 = some (decide (n = v)) ∧ holds 9 = some v ∧
    holds 10 = some (!v) ∧ holds 11 = some e ∧ holds 12 = some (!e) ∧ holds 13 = none ∧ holds 14 = none ∧
    holds 15 = some false

/-- An instruction whose condition is false only advances `pc` to `cia + 1`: every other field of the state stands
(R102). -/
def Obligations.FalseConditionOnlyAdvances : Prop :=
  ∀ (i : Instr) (s : State), condHolds i.condOf s.flags = false →
    exec i s = .next { s with pc := s.pc + 1 }

/-- A word with condition 1111 has the effect of a `nop` whatever its other bits are (R101). -/
def Obligations.NeverConditionIsNop : Prop :=
  ∀ s : State, s.turn = .core → s.hold = .running → condField (fetch s.mem s.pc) = 15 →
    step s = .next { s with pc := s.pc + 1, schedule := s.schedule.next }

/-- `cmp` in both forms completes, writes the flags of the difference and nothing else, and the conditions then compare the
signed operands (R107, R137). -/
def Obligations.CompareThenConditions : Prop :=
  ∀ (s : State) (r : Reg) (c : Cond), condHolds c s.flags = true →
    ∀ (i : Instr) (b : Word),
      ((∃ x, i = .cmpR r x c ∧ b = s.readReg x) ∨ (∃ imm, i = .cmpI r imm c ∧ b = imm.signExtend 32)) →
      Runs i s fun t => OnlyAdvanced s t ∧ SameElsewhere s t ∧ SameMemory s t ∧
        (condHolds .eq t.flags = true ↔ s.readReg r = b) ∧
        (condHolds .ne t.flags = true ↔ s.readReg r ≠ b) ∧
        (condHolds .lt t.flags = true ↔ (s.readReg r).toInt < b.toInt) ∧
        (condHolds .le t.flags = true ↔ (s.readReg r).toInt ≤ b.toInt) ∧
        (condHolds .gt t.flags = true ↔ (s.readReg r).toInt > b.toInt) ∧
        (condHolds .ge t.flags = true ↔ (s.readReg r).toInt ≥ b.toInt) ∧
        (condHolds .ng t.flags = true ↔ (s.readReg r - b).toInt < 0) ∧
        (condHolds .pz t.flags = true ↔ 0 ≤ (s.readReg r - b).toInt) ∧
        (condHolds .ng t.flags ≠ condHolds .lt t.flags ↔ condHolds .vs t.flags = true) ∧
        (condHolds .pz t.flags ≠ condHolds .ge t.flags ↔ condHolds .vs t.flags = true) ∧
        condHolds .es t.flags = false

/-- Only the instructions that write the flags change them: the ALU instructions, `ldr` and `ldh` with bit 4 set, and
`setf` (R19, R105). -/
def Obligations.OnlyFlagWritersChangeFlags : Prop :=
  ∀ (i : Instr) (s t : State), exec i s = .next t → i.writesFlags = false → t.flags = s.flags

/-! ## The frame of every instruction -/

/-- An instruction changes no register but its destination, the address register it modifies, and the link register of a
branch that links (R11, R12, R13, R164, R190). -/
def Obligations.OnlyNamedRegistersChange : Prop :=
  ∀ (i : Instr) (s t : State), exec i s = .next t → ∀ q, q ∉ i.regsWritten → t.regs.get q = s.regs.get q

/-- An instruction changes no word of memory but the one it stores to, at the address its meaning computes; one that does
not store changes none (R52, R162). -/
def Obligations.OnlyTheStoredWordChanges : Prop :=
  ∀ (i : Instr) (s t : State), exec i s = .next t →
    ∀ a : Nat, (∀ w, i.storeAddr s = some w → a ≠ w.toNat) → t.mem.read a = s.mem.read a

/-- An instruction that is no taken branch and does not write `x15`, and every one whose condition fails, is followed by the
one at `cia + 1`, which wraps (R17). -/
def Obligations.OnlyListedTransfersLeaveTheLine : Prop :=
  ∀ (i : Instr) (s t : State), exec i s = .next t →
    (i.isBranch = false ∧ 15 ∉ i.regsWritten) ∨ condHolds i.condOf s.flags = false →
    t.pc = s.pc + 1 ∧ (s.pc = 0xFFFFFFFF → t.pc = 0)

/-- Only `brk` and `wait` stop the clock, only an access to GPIO or VRAM is recorded, and then exactly one; the schedule is
not the core's to change (R22, R48, R53). -/
def Obligations.OnlyStopsAndDevicesTouchTheRest : Prop :=
  ∀ (i : Instr) (s t : State), exec i s = .next t →
    t.schedule = s.schedule ∧
    (i.stopsClock = false → t.hold = s.hold) ∧
    (t.devTrace = s.devTrace ∨
      (∃ a, i.loadAddr s = some a ∧ isDevice a ∧
        t.devTrace = s.devTrace ++ [.read a (Config.deviceRead s.devTrace a)]) ∨
      ∃ a v, i.storeAddr s = some a ∧ isDevice a ∧ t.devTrace = s.devTrace ++ [.write a v])

/-- Every well-formed instruction completes from every state in which the access it would make, if it makes one, is one the
spec gives a meaning; there is no trap (R51, R220). No I-type access is such a one: those are `ITypeAccessesAlwaysStop`.
Where the spec lets or has a model refuse, completing is the model's choice: the L-type words of the twelve ALU operations, where
R83 has a model refuse or follow the present hardware (log 14); the pairings R82 calls inferred, `ldr` and `str` in L-type, `ldh`
in R, I and L-type, `b` in I and A-type (log 15); `waitT1` and `waitT2` at a timer with a negative value, where R202 says that a
model refuses the wait (log 3, entry U14); and the operands whose result is a parameter or a refusal, `div` and `mod` by 0, `exp`
with a negative exponent (log 1, entries U6 to U8), 0x80000000 / -1 and shifts by 32 or more (log 2, entries U7, U9). -/
def Obligations.EveryAdmittedInstructionCompletes : Prop :=
  ∀ (i : Instr) (s : State), i.wellFormed = true →
    (∀ a, i.loadAddr s = some a → isReadable a ∨ isDevice a) →
    (∀ a, i.storeAddr s = some a → regionOf a = .ram ∨ isDevice a) →
    ∃ t, exec i s = .next t

/-! ## The step and the agents -/

/-- Where it is the core's turn, the clock runs and the fetched word decodes, a step is that instruction run on the state
with the turn taken: `exec` itself moves `pc` (R8). -/
def Obligations.StepRunsTheDecodedInstruction : Prop :=
  ∀ (s : State) (i : Instr), s.turn = .core → s.hold = .running → decode (fetch s.mem s.pc) = .ok i →
    step s = exec i { s with schedule := s.schedule.next }

/-- A fetch from outside the program ROM, and from a word of it that was not set, executes as `nop` (R44, R45, R138).
For the outside it is the spec's own decision (log 16). -/
def Obligations.InvalidFetchDoesNothing : Prop :=
  ∀ s : State, s.turn = .core → s.hold = .running →
    (0x1000 ≤ s.pc.toNat ∨ (∀ cell ∈ s.mem, cell.1 ≠ s.pc.toNat)) →
    step s = .next { s with pc := s.pc + 1, schedule := s.schedule.next }

/-- While the clock is stopped nothing but a restart or a tick happens (R22, R204, R205, R232). A move is the restart exactly if it
is the host's turn: the clock then runs and no register changes. Every other move, the core's turn too, is a tick: each timer
counts one down if positive, stays if 0, becomes what the parameter says if negative; a `brk` stays, so that it is left by
the host's restart alone; a wait ends if its timer is then 0 and stays if not. In either no register but the timers, no flag, no
memory word and not `pc` changes. That the core's turn falls to the tick, so that some move always happens, is the model's
choice (log 9); the parameter is a free value (log 3). -/
def Obligations.StoppedClockChangesOnlyTimers : Prop :=
  ∀ s : State, s.hold ≠ .running → ∃ t, step s = .next t ∧
    (∀ q : Reg, q ≠ 11 → q ≠ 12 → t.regs.get q = s.regs.get q) ∧
    t.pc = s.pc ∧ t.flags = s.flags ∧ t.mem = s.mem ∧ t.devTrace = s.devTrace ∧ t.schedule = s.schedule.next ∧
    (s.turn = .restart → t.hold = .running ∧ t.regs = s.regs) ∧
    (s.turn ≠ .restart →
      (∀ k : Timer, (0 < (s.timer k).toInt → (t.timer k).toInt = (s.timer k).toInt - 1) ∧
        (s.timer k = 0 → t.timer k = 0) ∧
        ((s.timer k).toInt < 0 → t.timer k = Config.timerNeg (s.timer k))) ∧
      (s.hold = .brk → t.hold = .brk) ∧
      ∀ k : Timer, s.hold = .wait k → t.hold = if t.timer k = 0 then .running else .wait k)

/-- One tick: each timer counts one down if positive, stays if 0, becomes what the parameter says if negative; a wait
whose timer is then 0 ends; nothing else changes (R20; the parameter is a free value, log 3; both timers in one tick,
log 28). -/
def Obligations.TickCountsBothTimers : Prop :=
  ∀ s : State, s.turn = .tick → ∃ t, step s = .next t ∧
    (∀ k : Timer, (0 < (s.timer k).toInt → (t.timer k).toInt = (s.timer k).toInt - 1) ∧
      (s.timer k = 0 → t.timer k = 0) ∧
      ((s.timer k).toInt < 0 → t.timer k = Config.timerNeg (s.timer k))) ∧
    (∀ k : Timer, s.hold = .wait k → t.hold = if t.timer k = 0 then .running else .wait k) ∧
    ((∀ k : Timer, s.hold ≠ .wait k) → t.hold = s.hold) ∧
    (∀ q : Reg, q ≠ 11 → q ≠ 12 → t.regs.get q = s.regs.get q) ∧
    t.pc = s.pc ∧ t.flags = s.flags ∧ t.mem = s.mem ∧ t.devTrace = s.devTrace

/-- The host's restart makes the clock run and changes nothing else (R204). When it happens is the schedule's (log 9). -/
def Obligations.RestartChangesOnlyHold : Prop :=
  ∀ s : State, s.turn = .restart → step s = .next { s with hold := .running, schedule := s.schedule.next }

/-- In every run from any state that does not stop, ticks occur again and again: after any number of moves there comes
another. A wait for a timer that holds `n > 0` ends after exactly `n` ticks unless the host ends it sooner: for fewer moves
the clock is still stopped, with as many ticks less on the timer; after `n` it runs, at the instruction it stopped before, with
memory, flags and the other registers as they were (R202, R205). Who moves when is the schedule's, which the model chose so
that ticks never cease, and so is that the core's turns fall to the tick while the clock is stopped (log 9). -/
def Obligations.WaitEndsAfterExactlyItsTicks : Prop :=
  (∀ (s : State) (N : Nat), ∃ n ≥ N, (∀ t, Sys2Proof.core.run n s ≠ .next t) ∨
    ∃ u : State, Sys2Proof.core.run n s = .next u ∧ u.turn = .tick ∧
      step u = .next (tick { u with schedule := u.schedule.next })) ∧
  ∀ (s : State) (k : Timer), s.hold = .wait k → HostKeepsAway (s.timer k).toNat s → 0 < (s.timer k).toInt →
    (∀ m < (s.timer k).toNat, ∃ u : State, Sys2Proof.core.run m s = .next u ∧ u.hold = .wait k ∧
      (u.timer k).toNat = (s.timer k).toNat - m) ∧
    ∃ u : State, Sys2Proof.core.run (s.timer k).toNat s = .next u ∧ u.hold = .running ∧ u.timer k = 0 ∧
      u.pc = s.pc ∧ u.flags = s.flags ∧ u.mem = s.mem ∧
      ∀ q : Reg, q ≠ 11 → q ≠ 12 → u.regs.get q = s.regs.get q

/-- Every step keeps the invariant: memory stays in its canonical form, and the clock never waits for a timer that stands
at 0 (R20, R202, R204). -/
def Obligations.StepKeepsTheInvariant : Prop :=
  ∀ s t : State, Inv s → step s = .next t → Inv t

/-- The invariant holds after reset, whatever two images are loaded (reset values: log 7, 8). -/
def Obligations.InvariantHoldsAtReset : Prop :=
  Inv State.reset ∧ ∀ prog data : List Word, Inv (bootWith prog data)

/-- No run changes a word of the program ROM or the data ROM, from any state, and so no run changes what any address fetches:
code cannot modify itself (R57). -/
def Obligations.RomsNeverChange : Prop :=
  ∀ (n : Nat) (s t : State), Sys2Proof.core.run n s = .next t →
    (∀ a < 0x2000, t.mem.read a = s.mem.read a) ∧ (∀ a : Word, fetch t.mem a = fetch s.mem a) ∧
    ∀ a : Word, 0x1000 ≤ a.toNat → fetch t.mem a = 0

/-- A core step that executes a load or a store in GPIO or VRAM completes and adds exactly that access at the end of the
history; every other step leaves the history as it is; so over any run the history only grows at its end, by at most one
access a move, each to GPIO or VRAM: none is dropped, invented or reordered (R48, R53, R54). That the accesses of `ldr` and
`str` in L-type run, words that R82 lets a model refuse, is the model's choice (log 15); the value a load obtains is a free value,
a function of the history and the address (DEVICE_READ, entry U12; log 4). -/
def Obligations.DeviceHistoryOnlyGrows : Prop :=
  (∀ (s : State) (i : Instr) (a : Word), s.turn = .core → s.hold = .running → decode (fetch s.mem s.pc) = .ok i →
    i.wellFormed = true → condHolds i.condOf s.flags = true → isDevice a →
    (i.loadAddr s = some a → ∃ t, step s = .next t ∧
      t.devTrace = s.devTrace ++ [.read a (Config.deviceRead s.devTrace a)]) ∧
    (i.storeAddr s = some a → ∃ t, step s = .next t ∧ t.devTrace = s.devTrace ++ [.write a (i.storeData s)])) ∧
  (∀ s t : State, step s = .next t → t.devTrace = s.devTrace ∨
    (s.turn = .core ∧ s.hold = .running ∧ ∃ i a, decode (fetch s.mem s.pc) = .ok i ∧ i.wellFormed = true ∧
      condHolds i.condOf s.flags = true ∧ isDevice a ∧ (i.loadAddr s = some a ∨ i.storeAddr s = some a))) ∧
  ∀ (n : Nat) (s t : State), Sys2Proof.core.run n s = .next t →
    ∃ added : List DevAccess, t.devTrace = s.devTrace ++ added ∧ added.length ≤ n ∧
      ∀ ev ∈ added, ∃ a v, isDevice a ∧ (ev = .read a v ∨ ev = .write a v)

/-- After reset `pc` is 0 and the clock runs; every fetch is the `nop` word. The values of `pc` and `hold` are the spec's
decision D5 (R26, R250; log 8). That the fetches give 0 is the model's choice: `State.reset` holds no program image (log 10),
where R26 has the image in place, so that every word of the program ROM is one that was not set (R45); outside it a fetch gives
0 by the spec's decision D7 (R44; log 16). -/
def Obligations.ResetStartsAtZero : Prop :=
  State.reset.pc = 0 ∧ State.reset.hold = .running ∧ ∀ a, fetch State.reset.mem a = 0

/-- A run starts with the images in place: fetching gives the program image, with 0 where it has no word, and loading
gives the data image (R45, R47, R251; log 10). Where the data image is that of data directives, `_datalen` is its length, the
initial value of word `k` is loaded from `_datastart + k`, and its variable is at `_ramstart + k`, in RAM (R96; the layout is
the spec's decision D37, log 33). -/
def Obligations.BootPlacesTheImages : Prop :=
  ∀ prog data : List Word, prog.length ≤ 4096 → data.length ≤ 4096 →
    (bootWith prog data).pc = 0 ∧ (bootWith prog data).hold = .running ∧
    (∀ a : Word, a.toNat < 4096 → fetch (bootWith prog data).mem a = prog.getD a.toNat 0) ∧
    (∀ k (h : k < data.length), memRead (BitVec.ofNat 32 (0x1000 + k)) (bootWith prog data) =
      .next (data[k], bootWith prog data)) ∧
    ∀ ds : List Assembler.Datum, data = Assembler.dataImage ds →
      (Assembler.Constant.datalen.value ds).toNat = data.length ∧
      ∀ k (h : k < data.length), regionOf (Assembler.variableAddr ds k) = .ram ∧
        (Assembler.variableAddr ds k).toNat = 0x2000 + k ∧
        memRead (Assembler.initialAddr ds k) (bootWith prog data) = .next (data[k], bootWith prog data)

/-! ## Registers -/

/-- `x0` reads 0 and a write to it has no effect (R11); `x15` reads the executing instruction's address plus 3 (R15) and
a write to it is the address of the next instruction, as it is (R16); every other register reads what was last written
(R12, R13) and keeps it when another is written. The 3 on a read and none on a write are the spec's decisions D3 and D39
(log 22). -/
def Obligations.RegisterFileReadsAndWrites : Prop :=
  ∀ (s : State) (v : Word),
    s.readReg 0 = 0 ∧ s.writeReg 0 v = s ∧ s.readReg 15 = s.pc + 3 ∧ (s.writeReg 15 v) = { s with pc := v } ∧
    ∀ r : Reg, r ≠ 0 → r ≠ 15 → (s.writeReg r v).readReg r = v ∧
      (∀ q, q ≠ r → (s.writeReg r v).readReg q = s.readReg q) ∧
      (s.writeReg r v).flags = s.flags ∧ (s.writeReg r v).hold = s.hold ∧ (s.writeReg r v).mem = s.mem

/-! ## Arithmetic and logic -/

/-- Whether an exact signed result is outside -2^31 .. 2^31 - 1 (R104). -/
abbrev outOfRange (n : Int) : Bool := decide (n < -2147483648 ∨ 2147483647 < n)

/-- `add` is the exact sum wrapped, `V` that the sum is out of range (R121). -/
def Obligations.AddIsTheWrappedSum : Prop :=
  AluFamily .addR .addI .addA (fun a b => wrap (a.toInt + b.toInt))
    (fun a b => outOfRange (a.toInt + b.toInt)) clear

/-- `sub` is the first operand less the second (R122), `sbn` the second less the first (R123). -/
def Obligations.SubAndSbnAreTheWrappedDifferences : Prop :=
  AluFamily .subR .subI .subA (fun a b => wrap (a.toInt - b.toInt)) (fun a b => outOfRange (a.toInt - b.toInt)) clear ∧
  AluFamily .sbnR .sbnI .sbnA (fun a b => wrap (b.toInt - a.toInt)) (fun a b => outOfRange (b.toInt - a.toInt)) clear

/-- `mul`: the low 32 bits of the product, the same read signed or unsigned (R124). -/
def Obligations.MulIsTheLowProduct : Prop :=
  AluFamily .mulR .mulI .mulA (fun a b => wrap (a.toInt * b.toInt)) clear clear ∧
  AluFamily .mulR .mulI .mulA (fun a b => BitVec.ofNat 32 (a.toNat * b.toNat)) clear clear

/-- `div`: the quotient rounded toward zero for a nonzero divisor but for the one pair whose quotient does not fit,
whose result is the parameter's; a zero divisor sets `E` and writes the parameter's value (R125; the parameters are free
values, log 1, 2). -/
def Obligations.DivTruncatesAndFlagsZeroDivisor : Prop :=
  AluFamily .divR .divI .divA
    (fun a b => if b = 0 then Config.alu.div0 a
      else if a.toInt = -2147483648 ∧ b.toInt = -1 then Config.alu.divOvf
      else if a.toInt < 0 ↔ b.toInt < 0 then wrap (a.toInt.natAbs / b.toInt.natAbs : Nat)
      else wrap (-(a.toInt.natAbs / b.toInt.natAbs : Nat)))
    clear (fun _ b => decide (b = 0))

/-- `mod`: the one number with the dividend's sign (or 0), smaller than the divisor, that the dividend exceeds by a
multiple of the divisor; a zero divisor sets `E` and writes the parameter's value (R126; a free value, log 1). -/
def Obligations.ModIsTheTruncatingRemainder : Prop :=
  AluFamily .modR .modI .modA
    (fun a b => if b = 0 then Config.alu.mod0 a
      else if a.toInt < 0 then wrap (-(a.toInt.natAbs % b.toInt.natAbs : Nat))
      else wrap (a.toInt.natAbs % b.toInt.natAbs : Nat))
    clear (fun _ b => decide (b = 0))

/-- Quotient and remainder belong together: `op1 = (op1 div op2) * op2 + (op1 mod op2)` for every nonzero `op2` but the
overflow pair, the remainder is 0 or has the sign of `op1`, and is smaller than `op2` (R126). -/
def Obligations.QuotientAndRemainderRebuild : Prop :=
  ∀ a b : Word, b ≠ 0 → ¬(a = 0x80000000 ∧ b = 0xFFFFFFFF) →
    (aluDiv Config.alu a b).result * b + (aluMod Config.alu a b).result = a ∧
    (aluMod Config.alu a b).result.toInt.natAbs < b.toInt.natAbs ∧
    ((aluMod Config.alu a b).result = 0 ∨ ((aluMod Config.alu a b).result.toInt < 0 ↔ a.toInt < 0))

/-- `exp`: the mathematical power reduced modulo 2^32 for an exponent that is not negative, with `n ^ 0 = 1`; the
parameter's value for a negative one (R127; a free value, log 1). -/
def Obligations.ExpIsTheWrappedPower : Prop :=
  AluFamily .expR .expI .expA
    (fun a b => if 0 ≤ b.toInt then wrap (a.toInt ^ b.toInt.toNat) else Config.alu.expNeg a b) clear clear

/-- `shl`: `op1` times a power of two, wrapped, for amounts up to 31; the parameter's value above (R128; a free value,
log 2). -/
def Obligations.ShlMultipliesByAPowerOfTwo : Prop :=
  AluFamily .shlR .shlI .shlA
    (fun a b => if b.toNat ≤ 31 then wrap (a.toNat * 2 ^ b.toNat : Nat) else Config.alu.shiftWide .left a b) clear clear

/-- `shr`: `op1` over a power of two, rounded down, for amounts up to 31; the parameter's value above (R129; a free
value, log 2). -/
def Obligations.ShrDividesByAPowerOfTwo : Prop :=
  AluFamily .shrR .shrI .shrA
    (fun a b => if b.toNat ≤ 31 then wrap (a.toInt.fdiv (2 ^ b.toNat)) else Config.alu.shiftWide .right a b) clear clear

/-- `and`, `orr`, `xor` work bit by bit on all 32 bits (R130, R131, R132). -/
def Obligations.LogicIsBitByBit : Prop :=
  AluFamily .andR .andI .andA (fun a b => BitVec.ofFnLE fun k : Fin 32 => a.getLsbD k && b.getLsbD k) clear clear ∧
  AluFamily .orrR .orrI .orrA (fun a b => BitVec.ofFnLE fun k : Fin 32 => a.getLsbD k || b.getLsbD k) clear clear ∧
  AluFamily .xorR .xorI .xorA (fun a b => BitVec.ofFnLE fun k : Fin 32 => a.getLsbD k ^^ b.getLsbD k) clear clear

/-- The L-type words of the twelve operations write no register; with `f` they write the flags of the operation on 0 and the
immediate. The spec reserves them and describes this effect; that the model runs them is its choice (log 14; R83, R134). -/
def Obligations.ReservedAluWordsWriteFlagsOnly : Prop :=
  ∀ (s : State) (f : Bool) (c : Cond) (imm : BitVec 20) (b : Word), condHolds c s.flags = true → b = imm.signExtend 32 →
    AluEffect (.addL imm f c) s 0 f b false false ∧
    AluEffect (.subL imm f c) s 0 f (wrap (-b.toInt)) false false ∧
    AluEffect (.sbnL imm f c) s 0 f b false false ∧
    AluEffect (.mulL imm f c) s 0 f 0 false false ∧
    AluEffect (.divL imm f c) s 0 f (if b = 0 then Config.alu.div0 0 else 0) false (decide (b = 0)) ∧
    AluEffect (.modL imm f c) s 0 f (if b = 0 then Config.alu.mod0 0 else 0) false (decide (b = 0)) ∧
    AluEffect (.expL imm f c) s 0 f
      (if b = 0 then 1 else if 0 < b.toInt then 0 else Config.alu.expNeg 0 b) false false ∧
    AluEffect (.shlL imm f c) s 0 f (if b.toNat ≤ 31 then 0 else Config.alu.shiftWide .left 0 b) false false ∧
    AluEffect (.shrL imm f c) s 0 f (if b.toNat ≤ 31 then 0 else Config.alu.shiftWide .right 0 b) false false ∧
    AluEffect (.andL imm f c) s 0 f 0 false false ∧
    AluEffect (.orrL imm f c) s 0 f b false false ∧
    AluEffect (.xorL imm f c) s 0 f b false false

/-! ## Pseudo-instructions -/

/-- Every pseudo-instruction is replaced by one first class instruction, its condition carried over: the word is that one's
word and the effect is that one's effect, from every state; `brk` is opcode 30 with no timer (R93). That `brk` has `s` = 0 is
the table of R203, the spec's choice (log 17); that `mov` and `cmp` of an immediate and `not` are A-type and I-type words is R94's
choice of format (log 26); that pseudo-instructions are constructors of their own is the model's (log 20). -/
def Obligations.PseudoIsItsTranslation : Prop :=
  (∀ c : Cond, decode (encode (.brkR c)) = .ok (.brkR c) ∧ opField (encode (.brkR c)) = 30 ∧
    sField (encode (.brkR c)) = 0) ∧
  ∀ (d r x : Reg) (f : Bool) (c : Cond) (i16 : BitVec 16) (i12 : BitVec 12) (p i : Instr),
    (p, i) ∈ [(.movR d x f c, .addR d 0 x f c), (.movA d i16 f c, .addA d i16 f c), (.cmpR r x c, .subR 0 r x true c),
      (.cmpI r i12 c, .subI 0 r i12 true c), (.nopR c, .addR 0 0 0 false c), (.notI d r f c, .xorI d r (-1) f c),
      (.pushR d c, .strR d 13 (-1) true c), (.popR d f c, .ldrR d 13 1 false f c), (.bxsR x c, .addR 15 0 x false c)] →
    encode p = encode i ∧ decode (encode p) = .ok i ∧ ∀ s : State, exec p s = exec i s

/-- `mov` copies the second operand, `not` complements its operand; with `s` the flags follow the value and `V`, `E` are
cleared; nothing else changes (R136, R139). -/
def Obligations.MovCopiesAndNotComplements : Prop :=
  ∀ (s : State) (d : Reg) (f : Bool) (c : Cond), condHolds c s.flags = true →
    (∀ x, AluEffect (.movR d x f c) s d f (s.readReg x) false false) ∧
    (∀ imm, AluEffect (.movA d imm f c) s d f (imm.signExtend 32) false false) ∧
    (∀ r, AluEffect (.notI d r f c) s d f (~~~ s.readReg r) false false)

/-- `nop` changes nothing but `pc`, with any condition (R138); `b xs` goes to the address the register holds and writes
no link and no flag (R192). -/
def Obligations.NopAndBranchToRegister : Prop :=
  ∀ (s : State) (c : Cond),
    exec (.nopR c) s = .next { s with pc := s.pc + 1 } ∧
    ∀ x : Reg, condHolds c s.flags = true → exec (.bxsR x c) s = .next { s with pc := s.readReg x }

/-! ## Loads and stores -/

/-- `ldr` from data ROM or RAM, in R-type, A-type and L-type (I-type reaches neither): the destination takes the word,
the flags follow it if `f`; in R-type the address is the register's value, before or after `v` is added, and the
register ends as that sum (R161, R164). That the L-type word runs is the model's choice (log 15). -/
def Obligations.LdrLoadsTheWord : Prop :=
  ∀ (s : State) (f : Bool) (c : Cond), condHolds c s.flags = true →
    (∀ d x v u a, (v = 0 ∨ (d ≠ x ∧ x ≠ 15)) →
      a = (if u then s.readReg x + v.signExtend 32 else s.readReg x) → isReadable a →
      Runs (.ldrR d x v u f c) s fun t =>
        LoadedModified s t d x f (s.mem.read a.toNat) v ∧ SameElsewhere s t ∧ SameMemory s t) ∧
    (∀ d imm, isReadable (BitVec.signExtend 32 imm) → Runs (.ldrA d imm f c) s fun t =>
      Loaded s t d f (s.mem.read (BitVec.signExtend 32 imm).toNat) ∧ SameElsewhere s t ∧ SameMemory s t) ∧
    (∀ imm, isReadable (BitVec.signExtend 32 imm) → Runs (.ldrL imm f c) s fun t =>
      Loaded s t 0 f (s.mem.read (BitVec.signExtend 32 imm).toNat) ∧ SameElsewhere s t ∧ SameMemory s t)

/-- `ldr` from GPIO or VRAM: the word is the oracle's answer to the history so far, and the history gains the access;
else as from memory (R48, R161; the oracle is a free value, log 4). That the L-type word runs is the model's choice (log
15). -/
def Obligations.LdrFromDeviceTakesTheOraclesWord : Prop :=
  ∀ (s : State) (f : Bool) (c : Cond), condHolds c s.flags = true →
    (∀ d x v u a, (v = 0 ∨ (d ≠ x ∧ x ≠ 15)) →
      a = (if u then s.readReg x + v.signExtend 32 else s.readReg x) → isDevice a →
      Runs (.ldrR d x v u f c) s fun t => LoadedModified s t d x f (Config.deviceRead s.devTrace a) v ∧
        t.devTrace = s.devTrace ++ [.read a (Config.deviceRead s.devTrace a)] ∧ t.hold = s.hold ∧ SameMemory s t) ∧
    (∀ d imm a, a = BitVec.signExtend 32 imm → isDevice a →
      Runs (.ldrA d imm f c) s fun t => Loaded s t d f (Config.deviceRead s.devTrace a) ∧
        t.devTrace = s.devTrace ++ [.read a (Config.deviceRead s.devTrace a)] ∧ t.hold = s.hold ∧ SameMemory s t) ∧
    (∀ imm a, a = BitVec.signExtend 32 imm → isDevice a →
      Runs (.ldrL imm f c) s fun t => Loaded s t 0 f (Config.deviceRead s.devTrace a) ∧
        t.devTrace = s.devTrace ++ [.read a (Config.deviceRead s.devTrace a)] ∧ t.hold = s.hold ∧ SameMemory s t)

/-- `str` to RAM: the word at the address becomes the source register's value (0 in L-type), every other word stands,
the address register of an R-type store ends as its value plus `v`, no other register and no flag changes (R162, R164).
That the L-type word runs is the model's choice (log 15). -/
def Obligations.StrStoresTheWord : Prop :=
  ∀ (s : State) (c : Cond), condHolds c s.flags = true →
    (∀ d x v u, (v = 0 ∨ (d ≠ x ∧ x ≠ 15)) → regionOf (accessAddr (s.readReg x) v u) = .ram →
      Runs (.strR d x v u c) s fun t => StoredModified s t x v ∧ SameElsewhere s t ∧
        (∀ b, t.mem.read b = if b = (accessAddr (s.readReg x) v u).toNat then s.readReg d else s.mem.read b)) ∧
    (∀ d imm, regionOf (imm16 imm) = .ram →
      Runs (.strA d imm c) s fun t => OnlyAdvanced s t ∧ t.flags = s.flags ∧ SameElsewhere s t ∧
        (∀ b, t.mem.read b = if b = (imm16 imm).toNat then s.readReg d else s.mem.read b)) ∧
    (∀ imm, regionOf (imm20 imm) = .ram →
      Runs (.strL imm c) s fun t => OnlyAdvanced s t ∧ t.flags = s.flags ∧ SameElsewhere s t ∧
        (∀ b, t.mem.read b = if b = (imm20 imm).toNat then 0 else s.mem.read b))

/-- `str` to GPIO or VRAM: one output event with the address and the value, and no word of memory changes (R48, R162).
That the L-type word runs is the model's choice (log 15). -/
def Obligations.StrToDeviceIsAnOutputEvent : Prop :=
  ∀ (s : State) (c : Cond), condHolds c s.flags = true →
    (∀ d x v u, (v = 0 ∨ (d ≠ x ∧ x ≠ 15)) → isDevice (accessAddr (s.readReg x) v u) →
      Runs (.strR d x v u c) s fun t => StoredModified s t x v ∧ SameMemory s t ∧ t.hold = s.hold ∧
        t.devTrace = s.devTrace ++ [.write (accessAddr (s.readReg x) v u) (s.readReg d)]) ∧
    (∀ d imm, isDevice (imm16 imm) →
      Runs (.strA d imm c) s fun t => OnlyAdvanced s t ∧ t.flags = s.flags ∧ SameMemory s t ∧ t.hold = s.hold ∧
        t.devTrace = s.devTrace ++ [.write (imm16 imm) (s.readReg d)]) ∧
    (∀ imm, isDevice (imm20 imm) →
      Runs (.strL imm c) s fun t => OnlyAdvanced s t ∧ t.flags = s.flags ∧ SameMemory s t ∧ t.hold = s.hold ∧
        t.devTrace = s.devTrace ++ [.write (imm20 imm) 0])

/-- The I-type forms of `ldr` and `str` reach no address the spec gives a meaning: their addresses are program ROM or
unmapped, so where their condition holds they always stop, and by which name (R46, R50, R160). Stopping there is the
treatment the spec names (log 11). -/
def Obligations.ITypeAccessesAlwaysStop : Prop :=
  ∀ (s : State) (d : Reg) (imm : BitVec 12) (f : Bool) (c : Cond), condHolds c s.flags = true →
    (0 ≤ imm.toInt → exec (.ldrI d imm f c) s = .refused (.loadFromProgramRom (imm12 imm)) ∧
      exec (.strI d imm c) s = .refused (.storeToRom (imm12 imm))) ∧
    (imm.toInt < 0 → exec (.ldrI d imm f c) s = .fault (.unmappedLoad (imm12 imm)) ∧
      exec (.strI d imm c) s = .fault (.unmappedStore (imm12 imm)))

/-- The memory map, with the bounds of every region (R41), and what becomes of an executed access at each address, in every
instruction that makes one (R51). A load from 0x1000 to 0x3FFF and a store from 0x2000 to 0x3FFF complete without a device
access, the store with its word at its address; either from 0x4000 to 0x4BFF completes and is recorded as a device access
(R47, R48, R49). The accesses the spec gives no meaning stop the model, by name: loads from the program ROM, stores to either
ROM, any access from 0x4C00 up (R46, R47, R50). Stopping there is the treatment the spec names (log 11). That `ldr` and `str` in
L-type run is the model's choice (log 15). -/
def Obligations.UnspecifiedAccessesStop : Prop :=
  (∀ a : Word,
    (regionOf a = .programRom ↔ a.toNat ≤ 0x0FFF) ∧
    (regionOf a = .dataRom ↔ 0x1000 ≤ a.toNat ∧ a.toNat ≤ 0x1FFF) ∧
    (regionOf a = .ram ↔ 0x2000 ≤ a.toNat ∧ a.toNat ≤ 0x3FFF) ∧
    (regionOf a = .gpio ↔ 0x4000 ≤ a.toNat ∧ a.toNat ≤ 0x43FF) ∧
    (regionOf a = .vram ↔ 0x4400 ≤ a.toNat ∧ a.toNat ≤ 0x4BFF) ∧
    (regionOf a = .unused ↔ 0x4C00 ≤ a.toNat ∧ a.toNat ≤ 0x4FFF) ∧
    (regionOf a = .outside ↔ 0x5000 ≤ a.toNat) ∧
    (isReadable a ↔ 0x1000 ≤ a.toNat ∧ a.toNat ≤ 0x3FFF) ∧
    (isDevice a ↔ 0x4000 ≤ a.toNat ∧ a.toNat ≤ 0x4BFF)) ∧
  ∀ (i : Instr) (s : State) (a : Word), i.wellFormed = true → condHolds i.condOf s.flags = true →
    (i.loadAddr s = some a → a.toNat < 0x1000 → exec i s = .refused (.loadFromProgramRom a)) ∧
    (i.loadAddr s = some a → 0x1000 ≤ a.toNat → a.toNat ≤ 0x3FFF → Runs i s fun t => t.devTrace = s.devTrace) ∧
    (i.loadAddr s = some a → 0x4000 ≤ a.toNat → a.toNat ≤ 0x4BFF → Runs i s fun t =>
      t.devTrace = s.devTrace ++ [.read a (Config.deviceRead s.devTrace a)]) ∧
    (i.loadAddr s = some a → 0x4C00 ≤ a.toNat → exec i s = .fault (.unmappedLoad a)) ∧
    (i.storeAddr s = some a → a.toNat < 0x2000 → exec i s = .refused (.storeToRom a)) ∧
    (i.storeAddr s = some a → 0x2000 ≤ a.toNat → a.toNat ≤ 0x3FFF → Runs i s fun t =>
      t.mem.read a.toNat = i.storeData s ∧ t.devTrace = s.devTrace) ∧
    (i.storeAddr s = some a → 0x4000 ≤ a.toNat → a.toNat ≤ 0x4BFF → Runs i s fun t =>
      SameMemory s t ∧ t.devTrace = s.devTrace ++ [.write a (i.storeData s)]) ∧
    (i.storeAddr s = some a → 0x4C00 ≤ a.toNat → exec i s = .fault (.unmappedStore a))

/-- The write-backs the spec gives no meaning are refused where the condition holds: to `x15`, and to the register that
is loaded or stored (R166). Refusing is the treatment the spec names (log 12). -/
def Obligations.WritebackConflictsAreRefused : Prop :=
  ∀ (s : State) (d x : Reg) (v : BitVec 7) (u f : Bool) (c : Cond), condHolds c s.flags = true → v ≠ 0 →
    (x = 15 → exec (.ldrR d x v u f c) s = .refused .writebackToPc ∧
      exec (.strR d x v u c) s = .refused .writebackToPc) ∧
    (x ≠ 15 → d = x → exec (.ldrR d x v u f c) s = .refused .writebackSameRegister ∧
      exec (.strR d x v u c) s = .refused .writebackSameRegister) ∧
    exec (.popR 13 f c) s = .refused .writebackSameRegister ∧ exec (.pushR 13 c) s = .refused .writebackSameRegister

/-- After any store to RAM that is executed, any load from RAM that is executed obtains the word just stored if it is from the
same address, and what the address held before if it is from another (R49; log 27): the destination takes that word, `x15` as the
address of the next instruction (R167), the flags follow it if the load writes flags (R161), and no register changes that the load does not name, so that a load
into `x0` discards it. For every pair
of forms that can reach RAM: `str` in R, A and L-type and `push`, then `ldr` in R, A and L-type, which loads into `x0`, and
`pop`, with every modification the spec admits. That the two L-type words run is the model's choice (log 15). -/
def Obligations.LoadReturnsTheLatestStore : Prop :=
  ∀ (s : State) (i : Instr) (a : Word), i.wellFormed = true → condHolds i.condOf s.flags = true →
    i.storeAddr s = some a → regionOf a = .ram →
    Runs i s fun t => ∀ (j : Instr) (b : Word) (e : Reg), j.wellFormed = true → condHolds j.condOf t.flags = true →
      j.loadAddr t = some b → regionOf b = .ram → j.loadDest = some e →
      ∀ w : Word, w = (if b = a then i.storeData s else s.mem.read b.toNat) →
        Runs j t fun u => (e ≠ 0 → e ≠ 15 → u.regs.get e = w) ∧ (e = 15 → u.pc = w) ∧
          (e ≠ 15 → u.pc = t.pc + 1) ∧ FlagsAfter t u j.writesFlags w false false ∧
          ∀ q, q ∉ j.regsWritten → u.regs.get q = t.regs.get q

/-- `ldh` in its four formats: the low half of the second operand above sixteen zeros, no access to memory (R163). That
the R-type, I-type and L-type words run is the model's choice (log 15). -/
def Obligations.LdhMovesTheLowHalfUp : Prop :=
  ∀ (s : State) (f : Bool) (c : Cond), condHolds c s.flags = true →
    (∀ d imm, Runs (.ldhA d imm f c) s fun t => Loaded s t d f (wrap (imm.toNat * 65536 : Nat)) ∧
      SameElsewhere s t ∧ SameMemory s t) ∧
    (∀ d x, Runs (.ldhR d x f c) s fun t => Loaded s t d f (s.readReg x <<< 16) ∧ SameElsewhere s t ∧ SameMemory s t) ∧
    (∀ d imm, Runs (.ldhI d imm f c) s fun t => Loaded s t d f (BitVec.signExtend 32 imm <<< 16) ∧
      SameElsewhere s t ∧ SameMemory s t) ∧
    (∀ imm, Runs (.ldhL imm f c) s fun t => Loaded s t 0 f (BitVec.signExtend 32 imm <<< 16) ∧
      SameElsewhere s t ∧ SameMemory s t)

/-- Three instructions build any 32-bit constant in a register, with another as scratch (R170). -/
def Obligations.ThreeInstructionsBuildAConstant : Prop :=
  ∀ (s : State) (C : Word) (p q : Reg), p ≠ 0 → p ≠ 15 → q ≠ 0 → q ≠ 15 → p ≠ q →
    Runs (.ldhA p ((C - (C.extractLsb' 0 16).signExtend 32).extractLsb' 16 16) false .always) s fun t =>
      Runs (.movA q (C.extractLsb' 0 16) false .always) t fun u =>
        Runs (.addR p p q false .always) u fun w => w.regs.get p = C

/-- `push` of any register but `sp`, where the word below the stack pointer is RAM: that word becomes the register's value,
the stack pointer is one less, nothing else changes (R168). -/
def Obligations.PushStoresBelowTheStackPointer : Prop :=
  ∀ (s : State) (d : Reg) (c : Cond), condHolds c s.flags = true → d ≠ 13 → regionOf (s.regs.sp - 1) = .ram →
    Runs (.pushR d c) s fun t => t.regs = { s.regs with sp := s.regs.sp - 1 } ∧ t.pc = s.pc + 1 ∧ t.flags = s.flags ∧
      SameElsewhere s t ∧
      ∀ b, t.mem.read b = if b = (s.regs.sp - 1).toNat then s.readReg d else s.mem.read b

/-- `pop` into any register but `sp`, where the stack pointer points to data ROM or RAM: the register takes the word there,
the stack pointer is one more, the flags follow the word if `s` is written (R169). -/
def Obligations.PopLoadsAtTheStackPointer : Prop :=
  ∀ (s : State) (d : Reg) (f : Bool) (c : Cond), condHolds c s.flags = true → d ≠ 13 → isReadable s.regs.sp →
    Runs (.popR d f c) s fun t =>
      (∀ q : Reg, q ≠ 15 → t.regs.get q =
        if q = d ∧ q ≠ 0 then s.mem.read s.regs.sp.toNat else if q = 13 then s.regs.sp + 1 else s.regs.get q) ∧
      t.pc = (if d = 15 then s.mem.read s.regs.sp.toNat else s.pc + 1) ∧
      FlagsAfter s t f (s.mem.read s.regs.sp.toNat) false false ∧ SameElsewhere s t ∧ SameMemory s t

/-- `push` followed by `pop` of the same register restores the register and the stack pointer (R169). -/
def Obligations.PushThenPopRestores : Prop :=
  ∀ (s : State) (d : Reg), d ≠ 13 → d ≠ 15 → regionOf (s.regs.sp - 1) = .ram →
    Runs (.pushR d .always) s fun t => Runs (.popR d false .always) t fun u => u.regs = s.regs ∧ u.flags = s.flags

/-! ## Branches and control -/

/-- Opcode 28 in its four formats continues at `cia + 3` plus the second operand, read before the link is written; with
`f` the link register takes `cia + 1`; nothing else changes (R190, R191; that the I-type and A-type words run is log
15). -/
def Obligations.BranchAddsTheOffsetAndLinks : Prop :=
  ∀ (s : State) (f : Bool) (c : Cond), condHolds c s.flags = true →
    ∀ (i : Instr) (op2 : Word),
      ((∃ x, i = .bR x f c ∧ op2 = s.readReg x) ∨ (∃ imm, i = .bI imm f c ∧ op2 = imm.signExtend 32) ∨
        (∃ imm, i = .bA imm f c ∧ op2 = imm.signExtend 32) ∨ (∃ imm, i = .bL imm f c ∧ op2 = imm.signExtend 32)) →
      exec i s = .next { s with
        pc := s.pc + 3 + op2
        regs := if f then { s.regs with lr := s.pc + 1 } else s.regs }

/-- A branch an assembler makes for a label reaches the label, from anywhere in the program ROM to anywhere in it
(R95, R190). That the word is L-type is R94's choice of format, the spec's decision D26 (log 26). -/
def Obligations.AssembledBranchReachesItsLabel : Prop :=
  ∀ (s : State) (f : Bool) (c : Cond) (T : Word), condHolds c s.flags = true → s.pc.toNat < 4096 → T.toNat < 4096 →
    ∃ i, Assembler.assemble (.b f c (Assembler.labelOffset s.pc.toNat T.toNat)) = some i ∧
      Runs i s fun t => t.pc = T

/-- `setf` in its four formats: the flags become the low four bits of the operand, from bit 3 down `Z`, `N`, `V`, `E`;
nothing else changes (R200). -/
def Obligations.SetfWritesTheLowFourBits : Prop :=
  ∀ (s : State) (c : Cond), condHolds c s.flags = true →
    ∀ (i : Instr) (op2 : Word),
      ((∃ x, i = .setfR x c ∧ op2 = s.readReg x) ∨ (∃ imm, i = .setfI imm c ∧ op2 = imm.signExtend 32) ∨
        (∃ imm, i = .setfA imm c ∧ op2 = imm.signExtend 32) ∨ (∃ imm, i = .setfL imm c ∧ op2 = imm.signExtend 32)) →
      exec i s = .next { s with
        pc := s.pc + 1
        flags := ⟨op2.getLsbD 3, op2.getLsbD 2, op2.getLsbD 1, op2.getLsbD 0⟩ }

/-- `brk` stops the clock before the next instruction (R201); `wait` stops it if its timer is not 0 and falls through if
it is (R202); nothing else changes. That a wait for a timer at 0 falls through is the spec's decision D29 (log 19). For a timer
with a negative value R202 says that a model refuses the wait: that it stops the clock as for any timer that is not 0 is the
model's choice (log 3, entry U14). -/
def Obligations.BrkAndWaitStopTheClock : Prop :=
  ∀ (s : State) (c : Cond), condHolds c s.flags = true →
    exec (.brkR c) s = .next { s with pc := s.pc + 1, hold := .brk } ∧
    exec (.waitT1 c) s = .next { s with pc := s.pc + 1, hold := if s.regs.t1 = 0 then s.hold else .wait .t1 } ∧
    exec (.waitT2 c) s = .next { s with pc := s.pc + 1, hold := if s.regs.t2 = 0 then s.hold else .wait .t2 }
end

