-- ==== Sys2Proof/Laws/Encoding.lean ====
section
/-!
SUPPORT. The fields of the words the encoder writes, and the words the fields of a word determine (spec/30_encoding.md R71
to R74, R78).
-/
namespace Sys2Proof

/-- The condition code is read back (R100). -/
@[simp] theorem Cond.ofBits_toBits (c : Cond) : Cond.ofBits c.toBits = some c := by cases c <;> rfl

/-- A code that names a condition is that condition's code (R100). -/
theorem Cond.eq_toBits_of_ofBits {b : BitVec 4} {c : Cond} (h : Cond.ofBits b = some c) : b = c.toBits := by
  revert b; cases c <;> decide

/-- The opcode is read back (R81). -/
@[simp] theorem Opcode.ofBits_toBits (o : Opcode) : Opcode.ofBits o.toBits = some o := by
  cases o with
  | alu op => cases op <;> rfl
  | _ => rfl

/-- A code that names an opcode is that opcode's code (R81). -/
theorem Opcode.eq_toBits_of_ofBits {b : BitVec 5} {o : Opcode} (h : Opcode.ofBits b = some o) : b = o.toBits := by
  revert b
  cases o with
  | alu op => cases op <;> decide
  | _ => decide

@[simp] theorem vOfE_eOf (v : BitVec 7) (u : Bool) : vOfE (eOf v u) = v := by
  apply BitVec.eq_of_getLsbD_eq; intro i hi
  interval_cases i <;> simp [vOfE, eOf]

@[simp] theorem uOfE_eOf (v : BitVec 7) (u : Bool) : uOfE (eOf v u) = u := by
  simp [uOfE, eOf]

@[simp] theorem eOf_vOfE_uOfE (e : BitVec 8) : eOf (vOfE e) (uOfE e) = e := by
  apply BitVec.eq_of_getLsbD_eq; intro i hi
  interval_cases i <;> simp [vOfE, uOfE, eOf]

section
variable (o : Opcode) (e : BitVec 8) (x r d : Reg) (f : Bool) (c : Cond)
variable (i12 : BitVec 12) (i16 : BitVec 16) (i20 : BitVec 20)

@[simp] theorem condField_wordR : condField (wordR o e x r d f c) = c.toBits := by
  apply BitVec.eq_of_getLsbD_eq; intro i hi
  interval_cases i <;> simp [condField, wordR, lowBits]
@[simp] theorem opField_wordR : opField (wordR o e x r d f c) = o.toBits := by
  apply BitVec.eq_of_getLsbD_eq; intro i hi
  interval_cases i <;> simp [opField, wordR, lowBits]
@[simp] theorem fmtField_wordR : fmtField (wordR o e x r d f c) = 0#2 := by
  apply BitVec.eq_of_getLsbD_eq; intro i hi
  interval_cases i <;> simp [fmtField, wordR, lowBits]
@[simp] theorem flagField_wordR : flagField (wordR o e x r d f c) = f := by
  simp [flagField, wordR, lowBits]
@[simp] theorem eField_wordR : eField (wordR o e x r d f c) = e := by
  apply BitVec.eq_of_getLsbD_eq; intro i hi
  interval_cases i <;> simp [eField, wordR, lowBits]
@[simp] theorem sField_wordR : sField (wordR o e x r d f c) = x := by
  apply BitVec.eq_of_getLsbD_eq; intro i hi
  interval_cases i <;> simp [sField, wordR, lowBits]
@[simp] theorem rField_wordR : rField (wordR o e x r d f c) = r := by
  apply BitVec.eq_of_getLsbD_eq; intro i hi
  interval_cases i <;> simp [rField, wordR, lowBits]
@[simp] theorem dField_wordR : dField (wordR o e x r d f c) = d := by
  apply BitVec.eq_of_getLsbD_eq; intro i hi
  interval_cases i <;> simp [dField, wordR, lowBits]

@[simp] theorem condField_wordI : condField (wordI o i12 r d f c) = c.toBits := by
  apply BitVec.eq_of_getLsbD_eq; intro i hi
  interval_cases i <;> simp [condField, wordI, lowBits]
@[simp] theorem opField_wordI : opField (wordI o i12 r d f c) = o.toBits := by
  apply BitVec.eq_of_getLsbD_eq; intro i hi
  interval_cases i <;> simp [opField, wordI, lowBits]
@[simp] theorem fmtField_wordI : fmtField (wordI o i12 r d f c) = 1#2 := by
  apply BitVec.eq_of_getLsbD_eq; intro i hi
  interval_cases i <;> simp [fmtField, wordI, lowBits]
@[simp] theorem flagField_wordI : flagField (wordI o i12 r d f c) = f := by
  simp [flagField, wordI, lowBits]
@[simp] theorem imm12Field_wordI : imm12Field (wordI o i12 r d f c) = i12 := by
  apply BitVec.eq_of_getLsbD_eq; intro i hi
  interval_cases i <;> simp [imm12Field, wordI, lowBits]
@[simp] theorem rField_wordI : rField (wordI o i12 r d f c) = r := by
  apply BitVec.eq_of_getLsbD_eq; intro i hi
  interval_cases i <;> simp [rField, wordI, lowBits]
@[simp] theorem dField_wordI : dField (wordI o i12 r d f c) = d := by
  apply BitVec.eq_of_getLsbD_eq; intro i hi
  interval_cases i <;> simp [dField, wordI, lowBits]

@[simp] theorem condField_wordA : condField (wordA o i16 d f c) = c.toBits := by
  apply BitVec.eq_of_getLsbD_eq; intro i hi
  interval_cases i <;> simp [condField, wordA, lowBits]
@[simp] theorem opField_wordA : opField (wordA o i16 d f c) = o.toBits := by
  apply BitVec.eq_of_getLsbD_eq; intro i hi
  interval_cases i <;> simp [opField, wordA, lowBits]
@[simp] theorem fmtField_wordA : fmtField (wordA o i16 d f c) = 2#2 := by
  apply BitVec.eq_of_getLsbD_eq; intro i hi
  interval_cases i <;> simp [fmtField, wordA, lowBits]
@[simp] theorem flagField_wordA : flagField (wordA o i16 d f c) = f := by
  simp [flagField, wordA, lowBits]
@[simp] theorem imm16Field_wordA : imm16Field (wordA o i16 d f c) = i16 := by
  apply BitVec.eq_of_getLsbD_eq; intro i hi
  interval_cases i <;> simp [imm16Field, wordA, lowBits]
@[simp] theorem dField_wordA : dField (wordA o i16 d f c) = d := by
  apply BitVec.eq_of_getLsbD_eq; intro i hi
  interval_cases i <;> simp [dField, wordA, lowBits]

@[simp] theorem condField_wordL : condField (wordL o i20 f c) = c.toBits := by
  apply BitVec.eq_of_getLsbD_eq; intro i hi
  interval_cases i <;> simp [condField, wordL, lowBits]
@[simp] theorem opField_wordL : opField (wordL o i20 f c) = o.toBits := by
  apply BitVec.eq_of_getLsbD_eq; intro i hi
  interval_cases i <;> simp [opField, wordL, lowBits]
@[simp] theorem fmtField_wordL : fmtField (wordL o i20 f c) = 3#2 := by
  apply BitVec.eq_of_getLsbD_eq; intro i hi
  interval_cases i <;> simp [fmtField, wordL, lowBits]
@[simp] theorem flagField_wordL : flagField (wordL o i20 f c) = f := by
  simp [flagField, wordL, lowBits]
@[simp] theorem imm20Field_wordL : imm20Field (wordL o i20 f c) = i20 := by
  apply BitVec.eq_of_getLsbD_eq; intro i hi
  interval_cases i <;> simp [imm20Field, wordL, lowBits]

end

/-- A word of the format is the word of its own fields. -/
theorem wordR_of_fields {w : Word} {o : Opcode} {c : Cond} (ho : opField w = o.toBits) (hf : fmtField w = 0#2)
    (hc : condField w = c.toBits) : wordR o (eField w) (sField w) (rField w) (dField w) (flagField w) c = w := by
  rw [wordR, lowBits, ← ho, ← hf, ← hc]
  apply BitVec.eq_of_getLsbD_eq; intro i hi
  interval_cases i <;> simp [eField, sField, rField, dField, condField, opField, fmtField, flagField]

/-- A word of the format is the word of its own fields. -/
theorem wordI_of_fields {w : Word} {o : Opcode} {c : Cond} (ho : opField w = o.toBits) (hf : fmtField w = 1#2)
    (hc : condField w = c.toBits) : wordI o (imm12Field w) (rField w) (dField w) (flagField w) c = w := by
  rw [wordI, lowBits, ← ho, ← hf, ← hc]
  apply BitVec.eq_of_getLsbD_eq; intro i hi
  interval_cases i <;> simp [imm12Field, rField, dField, condField, opField, fmtField, flagField]

/-- A word of the format is the word of its own fields. -/
theorem wordA_of_fields {w : Word} {o : Opcode} {c : Cond} (ho : opField w = o.toBits) (hf : fmtField w = 2#2)
    (hc : condField w = c.toBits) : wordA o (imm16Field w) (dField w) (flagField w) c = w := by
  rw [wordA, lowBits, ← ho, ← hf, ← hc]
  apply BitVec.eq_of_getLsbD_eq; intro i hi
  interval_cases i <;> simp [imm16Field, dField, condField, opField, fmtField, flagField]

/-- A word of the format is the word of its own fields. -/
theorem wordL_of_fields {w : Word} {o : Opcode} {c : Cond} (ho : opField w = o.toBits) (hf : fmtField w = 3#2)
    (hc : condField w = c.toBits) : wordL o (imm20Field w) (flagField w) c = w := by
  rw [wordL, lowBits, ← ho, ← hf, ← hc]
  apply BitVec.eq_of_getLsbD_eq; intro i hi
  interval_cases i <;> simp [imm20Field, condField, opField, fmtField, flagField]

/-- Where condition, opcode and format are named, decoding is decoding of the fields (R80). -/
theorem decode_of_fields {w : Word} {o : Opcode} {c : Cond} (hc : condField w = c.toBits) (ho : opField w = o.toBits) :
    decode w = decodeFormat o c w := by
  simp [decode, hc, ho]

/-- A word that decodes has a condition and an opcode, and decodes by its format (R80, R85, R101). -/
theorem decode_ok {w : Word} {i : Instr} (h : decode w = .ok i) :
    ∃ o c, condField w = c.toBits ∧ opField w = o.toBits ∧ decodeFormat o c w = .ok i := by
  unfold decode at h
  split at h
  · cases h
  · rename_i c hc
    split at h
    · cases h
    · rename_i o ho
      exact ⟨o, c, Cond.eq_toBits_of_ofBits hc, Opcode.eq_toBits_of_ofBits ho, h⟩

/-- What the decoder admits, it admits under its field condition. -/
theorem acceptIf_ok {ok : Bool} {why : Reserved} {rest : Except Reserved Instr} {i : Instr}
    (h : acceptIf ok why rest = .ok i) : ok = true ∧ rest = .ok i := by
  unfold acceptIf at h
  split at h
  · exact ⟨by assumption, h⟩
  · cases h

end Sys2Proof
end

