-- ==== Sys2Proof/Laws/State.lean ====
section
/-! SUPPORT. What each update of the state does to each field: no later proof unfolds a record update. -/
namespace Sys2Proof.Machine

@[simp] theorem State.advance_regs (s : State) : (s.advance).regs = s.regs := rfl
@[simp] theorem State.advance_pc (s : State) : (s.advance).pc = s.pc + 1 := rfl
@[simp] theorem State.advance_flags (s : State) : (s.advance).flags = s.flags := rfl
@[simp] theorem State.advance_hold (s : State) : (s.advance).hold = s.hold := rfl
@[simp] theorem State.advance_mem (s : State) : (s.advance).mem = s.mem := rfl
@[simp] theorem State.advance_devTrace (s : State) : (s.advance).devTrace = s.devTrace := rfl
@[simp] theorem State.advance_schedule (s : State) : (s.advance).schedule = s.schedule := rfl

@[simp] theorem State.takeTurn_regs (s : State) : (s.takeTurn).regs = s.regs := rfl
@[simp] theorem State.takeTurn_pc (s : State) : (s.takeTurn).pc = s.pc := rfl
@[simp] theorem State.takeTurn_flags (s : State) : (s.takeTurn).flags = s.flags := rfl
@[simp] theorem State.takeTurn_hold (s : State) : (s.takeTurn).hold = s.hold := rfl
@[simp] theorem State.takeTurn_mem (s : State) : (s.takeTurn).mem = s.mem := rfl
@[simp] theorem State.takeTurn_devTrace (s : State) : (s.takeTurn).devTrace = s.devTrace := rfl
@[simp] theorem State.takeTurn_schedule (s : State) : (s.takeTurn).schedule = s.schedule.next := rfl

@[simp] theorem Schedule.turn_cons (a : Agent) (l : List Agent) (k : Nat) : Schedule.turn ⟨a :: l, k⟩ = a := rfl
@[simp] theorem Schedule.next_cons (a : Agent) (l : List Agent) (k : Nat) : Schedule.next ⟨a :: l, k⟩ = ⟨l, k⟩ := rfl

/-- A used up agenda moves as the list drawn for it (log 9). -/
theorem Schedule.turn_nil (k : Nat) : Schedule.turn ⟨[], k⟩ = Schedule.turn ⟨Config.agendaAfter k ++ [.tick], k + 1⟩ := by
  cases h : Config.agendaAfter k <;> simp [Schedule.turn, Schedule.moves, h]

/-- A used up agenda goes on as the list drawn for it (log 9). -/
theorem Schedule.next_nil (k : Nat) : Schedule.next ⟨[], k⟩ = Schedule.next ⟨Config.agendaAfter k ++ [.tick], k + 1⟩ := by
  cases h : Config.agendaAfter k <;> simp [Schedule.next, Schedule.moves, h]

@[simp] theorem State.deviceStore_regs (s : State) (a v : Word) : (s.deviceStore a v).regs = s.regs := rfl
@[simp] theorem State.deviceStore_pc (s : State) (a v : Word) : (s.deviceStore a v).pc = s.pc := rfl
@[simp] theorem State.deviceStore_flags (s : State) (a v : Word) : (s.deviceStore a v).flags = s.flags := rfl
@[simp] theorem State.deviceStore_hold (s : State) (a v : Word) : (s.deviceStore a v).hold = s.hold := rfl
@[simp] theorem State.deviceStore_mem (s : State) (a v : Word) : (s.deviceStore a v).mem = s.mem := rfl
@[simp] theorem State.deviceStore_devTrace (s : State) (a v : Word) : (s.deviceStore a v).devTrace = s.devTrace ++ [.write a v] := rfl
@[simp] theorem State.deviceStore_schedule (s : State) (a v : Word) : (s.deviceStore a v).schedule = s.schedule := rfl

@[simp] theorem State.deviceLoad_snd_regs (s : State) (a : Word) : ((s.deviceLoad a).2).regs = s.regs := rfl
@[simp] theorem State.deviceLoad_snd_pc (s : State) (a : Word) : ((s.deviceLoad a).2).pc = s.pc := rfl
@[simp] theorem State.deviceLoad_snd_flags (s : State) (a : Word) : ((s.deviceLoad a).2).flags = s.flags := rfl
@[simp] theorem State.deviceLoad_snd_hold (s : State) (a : Word) : ((s.deviceLoad a).2).hold = s.hold := rfl
@[simp] theorem State.deviceLoad_snd_mem (s : State) (a : Word) : ((s.deviceLoad a).2).mem = s.mem := rfl
@[simp] theorem State.deviceLoad_snd_devTrace (s : State) (a : Word) : ((s.deviceLoad a).2).devTrace = s.devTrace ++ [.read a (Config.deviceRead s.devTrace a)] := rfl
@[simp] theorem State.deviceLoad_snd_schedule (s : State) (a : Word) : ((s.deviceLoad a).2).schedule = s.schedule := rfl

@[simp] theorem State.deviceLoad_fst (s : State) (a : Word) : (s.deviceLoad a).1 = Config.deviceRead s.devTrace a := rfl

@[simp] theorem restart_regs (s : State) : (restart s).regs = s.regs := rfl
@[simp] theorem restart_pc (s : State) : (restart s).pc = s.pc := rfl
@[simp] theorem restart_flags (s : State) : (restart s).flags = s.flags := rfl
@[simp] theorem restart_hold (s : State) : (restart s).hold = .running := rfl
@[simp] theorem restart_mem (s : State) : (restart s).mem = s.mem := rfl
@[simp] theorem restart_devTrace (s : State) : (restart s).devTrace = s.devTrace := rfl
@[simp] theorem restart_schedule (s : State) : (restart s).schedule = s.schedule := rfl

@[simp] theorem State.setFlagsIf_regs (s : State) (f : Bool) (fl : Flags) : (s.setFlagsIf f fl).regs = s.regs := by cases f <;> rfl
@[simp] theorem State.setFlagsIf_pc (s : State) (f : Bool) (fl : Flags) : (s.setFlagsIf f fl).pc = s.pc := by cases f <;> rfl
@[simp] theorem State.setFlagsIf_flags (s : State) (f : Bool) (fl : Flags) : (s.setFlagsIf f fl).flags = if f then fl else s.flags := by cases f <;> rfl
@[simp] theorem State.setFlagsIf_hold (s : State) (f : Bool) (fl : Flags) : (s.setFlagsIf f fl).hold = s.hold := by cases f <;> rfl
@[simp] theorem State.setFlagsIf_mem (s : State) (f : Bool) (fl : Flags) : (s.setFlagsIf f fl).mem = s.mem := by cases f <;> rfl
@[simp] theorem State.setFlagsIf_devTrace (s : State) (f : Bool) (fl : Flags) : (s.setFlagsIf f fl).devTrace = s.devTrace := by cases f <;> rfl
@[simp] theorem State.setFlagsIf_schedule (s : State) (f : Bool) (fl : Flags) : (s.setFlagsIf f fl).schedule = s.schedule := by cases f <;> rfl

@[simp] theorem State.linkIf_regs (s : State) (f : Bool) : (s.linkIf f).regs = if f then s.regs.set 14#4 (s.pc + 1) else s.regs := by cases f <;> rfl
@[simp] theorem State.linkIf_pc (s : State) (f : Bool) : (s.linkIf f).pc = s.pc := by cases f <;> rfl
@[simp] theorem State.linkIf_flags (s : State) (f : Bool) : (s.linkIf f).flags = s.flags := by cases f <;> rfl
@[simp] theorem State.linkIf_hold (s : State) (f : Bool) : (s.linkIf f).hold = s.hold := by cases f <;> rfl
@[simp] theorem State.linkIf_mem (s : State) (f : Bool) : (s.linkIf f).mem = s.mem := by cases f <;> rfl
@[simp] theorem State.linkIf_devTrace (s : State) (f : Bool) : (s.linkIf f).devTrace = s.devTrace := by cases f <;> rfl
@[simp] theorem State.linkIf_schedule (s : State) (f : Bool) : (s.linkIf f).schedule = s.schedule := by cases f <;> rfl

@[simp] theorem State.writeReg_regs (s : State) (r : Reg) (v : Word) : (s.writeReg r v).regs = if r = 15#4 then s.regs else s.regs.set r v := by
  unfold State.writeReg; split <;> rfl
@[simp] theorem State.writeReg_pc (s : State) (r : Reg) (v : Word) : (s.writeReg r v).pc = if r = 15#4 then v else s.pc := by
  unfold State.writeReg; split <;> rfl
@[simp] theorem State.writeReg_flags (s : State) (r : Reg) (v : Word) : (s.writeReg r v).flags = s.flags := by
  unfold State.writeReg; split <;> rfl
@[simp] theorem State.writeReg_hold (s : State) (r : Reg) (v : Word) : (s.writeReg r v).hold = s.hold := by
  unfold State.writeReg; split <;> rfl
@[simp] theorem State.writeReg_mem (s : State) (r : Reg) (v : Word) : (s.writeReg r v).mem = s.mem := by
  unfold State.writeReg; split <;> rfl
@[simp] theorem State.writeReg_devTrace (s : State) (r : Reg) (v : Word) : (s.writeReg r v).devTrace = s.devTrace := by
  unfold State.writeReg; split <;> rfl
@[simp] theorem State.writeReg_schedule (s : State) (r : Reg) (v : Word) : (s.writeReg r v).schedule = s.schedule := by
  unfold State.writeReg; split <;> rfl

@[simp] theorem State.writeBack_regs (s : State) (x : Reg) (b : Word) (v : BitVec 7) : (s.writeBack x b v).regs = if v = 0#7 then s.regs else if x = 15#4 then s.regs else s.regs.set x (b + modWord v) := by
  unfold State.writeBack; split <;> simp
@[simp] theorem State.writeBack_pc (s : State) (x : Reg) (b : Word) (v : BitVec 7) : (s.writeBack x b v).pc = if v = 0#7 then s.pc else if x = 15#4 then b + modWord v else s.pc := by
  unfold State.writeBack; split <;> simp
@[simp] theorem State.writeBack_flags (s : State) (x : Reg) (b : Word) (v : BitVec 7) : (s.writeBack x b v).flags = s.flags := by
  unfold State.writeBack; split <;> simp
@[simp] theorem State.writeBack_hold (s : State) (x : Reg) (b : Word) (v : BitVec 7) : (s.writeBack x b v).hold = s.hold := by
  unfold State.writeBack; split <;> simp
@[simp] theorem State.writeBack_mem (s : State) (x : Reg) (b : Word) (v : BitVec 7) : (s.writeBack x b v).mem = s.mem := by
  unfold State.writeBack; split <;> simp
@[simp] theorem State.writeBack_devTrace (s : State) (x : Reg) (b : Word) (v : BitVec 7) : (s.writeBack x b v).devTrace = s.devTrace := by
  unfold State.writeBack; split <;> simp
@[simp] theorem State.writeBack_schedule (s : State) (x : Reg) (b : Word) (v : BitVec 7) : (s.writeBack x b v).schedule = s.schedule := by
  unfold State.writeBack; split <;> simp

@[simp] theorem finishLoad_regs (s : State) (d : Reg) (f : Bool) (v : Word) : (finishLoad d f v s).regs = if d = 15#4 then s.regs else s.regs.set d v := by
  simp [finishLoad]
@[simp] theorem finishLoad_pc (s : State) (d : Reg) (f : Bool) (v : Word) : (finishLoad d f v s).pc = if d = 15#4 then v else s.pc := by
  simp [finishLoad]
@[simp] theorem finishLoad_flags (s : State) (d : Reg) (f : Bool) (v : Word) : (finishLoad d f v s).flags = if f then resultFlags v false false else s.flags := by
  simp [finishLoad]
@[simp] theorem finishLoad_hold (s : State) (d : Reg) (f : Bool) (v : Word) : (finishLoad d f v s).hold = s.hold := by
  simp [finishLoad]
@[simp] theorem finishLoad_mem (s : State) (d : Reg) (f : Bool) (v : Word) : (finishLoad d f v s).mem = s.mem := by
  simp [finishLoad]
@[simp] theorem finishLoad_devTrace (s : State) (d : Reg) (f : Bool) (v : Word) : (finishLoad d f v s).devTrace = s.devTrace := by
  simp [finishLoad]
@[simp] theorem finishLoad_schedule (s : State) (d : Reg) (f : Bool) (v : Word) : (finishLoad d f v s).schedule = s.schedule := by
  simp [finishLoad]

@[simp] theorem State.endWait_regs (s : State) : (s.endWait).regs = s.regs := by
  unfold State.endWait; split <;> (try split) <;> rfl
@[simp] theorem State.endWait_pc (s : State) : (s.endWait).pc = s.pc := by
  unfold State.endWait; split <;> (try split) <;> rfl
@[simp] theorem State.endWait_flags (s : State) : (s.endWait).flags = s.flags := by
  unfold State.endWait; split <;> (try split) <;> rfl
@[simp] theorem State.endWait_hold (s : State) : (s.endWait).hold = match s.hold with | .wait t => if s.timer t = 0#32 then .running else .wait t | h => h := by
  unfold State.endWait; split <;> (try split) <;> simp_all
@[simp] theorem State.endWait_mem (s : State) : (s.endWait).mem = s.mem := by
  unfold State.endWait; split <;> (try split) <;> rfl
@[simp] theorem State.endWait_devTrace (s : State) : (s.endWait).devTrace = s.devTrace := by
  unfold State.endWait; split <;> (try split) <;> rfl
@[simp] theorem State.endWait_schedule (s : State) : (s.endWait).schedule = s.schedule := by
  unfold State.endWait; split <;> (try split) <;> rfl

@[simp] theorem tick_regs (s : State) : (tick s).regs = { s.regs with t1 := tickWord s.regs.t1, t2 := tickWord s.regs.t2 } := by
  simp [tick]
@[simp] theorem tick_pc (s : State) : (tick s).pc = s.pc := by
  simp [tick]
@[simp] theorem tick_flags (s : State) : (tick s).flags = s.flags := by
  simp [tick]
@[simp] theorem tick_hold (s : State) : (tick s).hold = match s.hold with
    | .wait .t1 => if tickWord s.regs.t1 = 0#32 then .running else .wait .t1
    | .wait .t2 => if tickWord s.regs.t2 = 0#32 then .running else .wait .t2
    | h => h := by
  rcases s with ⟨_, _, _, h, _, _, _⟩
  rcases h with _ | _ | _ | _ <;> simp [tick] <;> rfl
@[simp] theorem tick_mem (s : State) : (tick s).mem = s.mem := by
  simp [tick]
@[simp] theorem tick_devTrace (s : State) : (tick s).devTrace = s.devTrace := by
  simp [tick]
@[simp] theorem tick_schedule (s : State) : (tick s).schedule = s.schedule := by
  simp [tick]

end Sys2Proof.Machine
end

