-- ==== Sys2Proof/Laws/Memory.lean ====
section
/-! SUPPORT. Memory: what reading gives after writing, and that every operation keeps the canonical form (log 5). -/
namespace Sys2Proof.Machine

/-- Every cell of the list lies at the bound or above. -/
theorem Memory.risingFrom_mono {lo lo' : Nat} {m : Memory} (hle : lo' ≤ lo) (h : Memory.risingFrom lo m = true) :
    Memory.risingFrom lo' m = true := by
  cases m with
  | nil => rfl
  | cons c rest =>
    simp only [Memory.risingFrom, Bool.and_eq_true, decide_eq_true_eq] at h ⊢
    exact ⟨hle.trans h.1, h.2⟩

/-- An address below the bound is not listed: it reads as unlisted. -/
theorem Memory.read_of_lt {lo a : Nat} {m : Memory} (h : Memory.risingFrom lo m = true) (ha : a < lo) :
    m.read a = Memory.unlisted a := by
  induction m generalizing lo with
  | nil => rfl
  | cons c rest ih =>
    simp only [Memory.risingFrom, Bool.and_eq_true, decide_eq_true_eq] at h
    rw [Memory.read, if_neg (by omega)]
    exact ih h.2 (by omega)

theorem Memory.read_insert (m : Memory) (a b : Nat) (v : Word) :
    (m.insert a v).read b = if b = a then v else m.read b := by
  induction m with
  | nil =>
    by_cases h : b = a
    · simp [Memory.insert, Memory.read, h]
    · simp [Memory.insert, Memory.read, h, Ne.symm h]
  | cons c rest ih =>
    unfold Memory.insert
    split
    · by_cases h : b = a
      · simp [Memory.read, h]
      · simp [Memory.read, h, Ne.symm h]
    · split
      · rename_i h1 h2
        by_cases h : b = a
        · simp [Memory.read, h]
        · simp [Memory.read, h, Ne.symm h, ← h2]
      · rename_i h1 h2
        by_cases h : c.1 = b
        · have : b ≠ a := fun e => h2 (e ▸ h).symm
          simp [Memory.read, h, this]
        · simp [Memory.read, h, ih]

theorem Memory.read_erase {lo : Nat} {m : Memory} (hm : Memory.risingFrom lo m = true) (a b : Nat) :
    (m.erase a).read b = if b = a then Memory.unlisted b else m.read b := by
  induction m generalizing lo with
  | nil => simp [Memory.erase, Memory.read]
  | cons c rest ih =>
    simp only [Memory.risingFrom, Bool.and_eq_true, decide_eq_true_eq] at hm
    unfold Memory.erase
    split
    · rename_i h
      by_cases hb : b = a
      · rw [if_pos hb, hb]; exact Memory.read_of_lt hm.2 (by omega)
      · rw [if_neg hb, Memory.read, if_neg (by omega)]
    · rename_i h
      by_cases hb : c.1 = b
      · rw [if_neg (by omega)]; simp [Memory.read, hb]
      · simp [Memory.read, hb, ih hm.2]

/-- Reading after writing, in canonical memory: the address written reads the value, every other address what it
read (R49). -/
theorem Memory.read_write {m : Memory} (hm : m.wf = true) (a b : Nat) (v : Word) :
    (m.write a v).read b = if b = a then v else m.read b := by
  simp only [Memory.wf, Bool.and_eq_true] at hm
  unfold Memory.write
  split
  · rename_i h
    rw [Memory.read_erase hm.1]
    by_cases hb : b = a
    · simp only [Memory.isDefault, Bool.and_eq_true, decide_eq_true_eq, beq_iff_eq] at h
      simp [hb, Memory.unlisted, h.1, h.2]
    · simp [hb]
  · exact Memory.read_insert m a b v

/-- Above the program ROM no canonical form is needed to read back what was written. -/
theorem Memory.read_write_high (m : Memory) {a : Nat} (ha : Config.progRomEnd ≤ a) (b : Nat) (v : Word) :
    (m.write a v).read b = if b = a then v else m.read b := by
  have : Memory.isDefault a v = false := by
    simp [Memory.isDefault]; omega
  rw [Memory.write, this]
  exact Memory.read_insert m a b v

theorem Memory.risingFrom_insert {lo a : Nat} {m : Memory} (v : Word) (h : Memory.risingFrom lo m = true) (ha : lo ≤ a) :
    Memory.risingFrom lo (m.insert a v) = true := by
  induction m generalizing lo with
  | nil => simp [Memory.insert, Memory.risingFrom, ha]
  | cons c rest ih =>
    simp only [Memory.risingFrom, Bool.and_eq_true, decide_eq_true_eq] at h
    unfold Memory.insert
    split
    · simp only [Memory.risingFrom, Bool.and_eq_true, decide_eq_true_eq]
      exact ⟨ha, by omega, h.2⟩
    · split
      · rename_i h2
        simp only [Memory.risingFrom, Bool.and_eq_true, decide_eq_true_eq]
        exact ⟨ha, h2 ▸ h.2⟩
      · simp only [Memory.risingFrom, Bool.and_eq_true, decide_eq_true_eq]
        exact ⟨h.1, ih h.2 (by omega)⟩

theorem Memory.risingFrom_erase {lo : Nat} {m : Memory} (a : Nat) (h : Memory.risingFrom lo m = true) :
    Memory.risingFrom lo (m.erase a) = true := by
  induction m generalizing lo with
  | nil => rfl
  | cons c rest ih =>
    simp only [Memory.risingFrom, Bool.and_eq_true, decide_eq_true_eq] at h
    unfold Memory.erase
    split
    · exact Memory.risingFrom_mono (by omega) h.2
    · simp only [Memory.risingFrom, Bool.and_eq_true, decide_eq_true_eq]
      exact ⟨h.1, ih h.2⟩

theorem Memory.all_insert {p : Cell → Bool} {m : Memory} {a : Nat} {v : Word} (h : m.all p = true) (hp : p (a, v) = true) :
    (m.insert a v).all p = true := by
  induction m with
  | nil => simp [Memory.insert, hp]
  | cons c rest ih =>
    simp only [List.all_cons, Bool.and_eq_true] at h
    unfold Memory.insert
    split
    · simp [hp, h.1, h.2]
    · split
      · simp only [List.all_cons, Bool.and_eq_true]; exact ⟨hp, h.2⟩
      · simp only [List.all_cons, Bool.and_eq_true]; exact ⟨h.1, ih h.2⟩

theorem Memory.all_erase {p : Cell → Bool} {m : Memory} (a : Nat) (h : m.all p = true) : (m.erase a).all p = true := by
  induction m with
  | nil => rfl
  | cons c rest ih =>
    simp only [List.all_cons, Bool.and_eq_true] at h
    unfold Memory.erase
    split
    · exact h.2
    · simp only [List.all_cons, Bool.and_eq_true]; exact ⟨h.1, ih h.2⟩

/-- A write at an address of ROM or RAM keeps the canonical form. -/
theorem Memory.wf_write {m : Memory} {a : Nat} (v : Word) (hm : m.wf = true) (ha : a < Config.ramEnd) :
    (m.write a v).wf = true := by
  simp only [Memory.wf, Bool.and_eq_true] at hm ⊢
  unfold Memory.write
  split
  · exact ⟨Memory.risingFrom_erase a hm.1, Memory.all_erase a hm.2⟩
  · rename_i h
    refine ⟨Memory.risingFrom_insert v hm.1 (Nat.zero_le a), Memory.all_insert hm.2 ?_⟩
    simp [Memory.cellOk, h, ha]

/-- Placing an image keeps the canonical form. -/
theorem Memory.wf_place {m : Memory} {base : Nat} {image : List Word} (hm : m.wf = true)
    (h : base + image.length ≤ Config.ramEnd) : (m.place base image).wf = true := by
  induction image generalizing m base with
  | nil => exact hm
  | cons w rest ih =>
    simp only [List.length_cons] at h
    exact ih (Memory.wf_write w hm (by omega)) (by omega)

/-- What an address reads after an image is placed. -/
theorem Memory.read_place {m : Memory} {base : Nat} {image : List Word} (hm : m.wf = true)
    (h : base + image.length ≤ Config.ramEnd) (b : Nat) :
    (m.place base image).read b =
      if base ≤ b ∧ b < base + image.length then image.getD (b - base) 0 else m.read b := by
  induction image generalizing m base with
  | nil => simp [Memory.place]
  | cons w rest ih =>
    simp only [List.length_cons] at h
    rw [Memory.place, ih (Memory.wf_write w hm (by omega)) (by omega), Memory.read_write hm]
    simp only [List.length_cons]
    by_cases h1 : b = base
    · subst h1; simp
    · by_cases h2 : base + 1 ≤ b ∧ b < base + 1 + rest.length
      · rw [if_pos h2, if_pos (by omega), show b - base = b - (base + 1) + 1 by omega]; simp
      · rw [if_neg h2, if_neg h1, if_neg (by omega)]

@[simp] theorem State.reset_mem_wf : State.reset.mem.wf = true := rfl

end Sys2Proof.Machine
end

