-- ==== Sys2Proof/Laws/Registers.lean ====
section
/-! SUPPORT. The register file: what reading gives after writing (spec/10_state.md R11, R15, R16). -/
namespace Sys2Proof.Machine

/-- A register number is one of sixteen. -/
theorem Reg.forall_of_sixteen {p : Reg → Prop}
    (h : ∀ n : Fin 16, p (BitVec.ofFin n)) (r : Reg) : p r := h r.toFin

@[simp] theorem Regs.get_zero (g : Regs) : g.get 0#4 = 0#32 := rfl
@[simp] theorem Regs.get_fifteen (g : Regs) : g.get 15#4 = 0#32 := rfl
@[simp] theorem Regs.set_zero (g : Regs) (v : Word) : g.set 0#4 v = g := rfl
@[simp] theorem Regs.set_fifteen (g : Regs) (v : Word) : g.set 15#4 v = g := rfl

/-- Reading after writing: the register written holds the value, unless it is `x0` (or `x15`, which is not held in
the file); every other register holds what it held. -/
theorem Regs.get_set (g : Regs) (r q : Reg) (v : Word) :
    (g.set r v).get q = if q = r ∧ q ≠ 0#4 ∧ q ≠ 15#4 then v else g.get q := by
  revert r q
  refine Reg.forall_of_sixteen fun r => Reg.forall_of_sixteen fun q => ?_
  fin_cases r <;> fin_cases q <;> rfl

theorem Regs.get_set_of_ne (g : Regs) {r q : Reg} (v : Word) (h : q ≠ r) : (g.set r v).get q = g.get q := by
  simp [Regs.get_set, h]

theorem Regs.get_set_self (g : Regs) {r : Reg} (v : Word) (h0 : r ≠ 0#4) (h15 : r ≠ 15#4) : (g.set r v).get r = v := by
  simp_all [Regs.get_set]

@[simp] theorem State.readReg_zero (s : State) : s.readReg 0#4 = 0#32 := rfl
@[simp] theorem State.readReg_fifteen (s : State) : s.readReg 15#4 = s.pc + 3 := rfl

theorem State.readReg_of_ne {s : State} {r : Reg} (h : r ≠ 15#4) : s.readReg r = s.regs.get r := by
  simp [State.readReg, h]

@[simp] theorem State.writeReg_zero (s : State) (v : Word) : s.writeReg 0#4 v = s := rfl

/-- What any register of the file holds after a write (R11, R16). -/
theorem State.writeReg_get (s : State) (r q : Reg) (v : Word) :
    (s.writeReg r v).regs.get q = if q = r ∧ q ≠ 0#4 ∧ q ≠ 15#4 then v else s.regs.get q := by
  by_cases h : r = 15#4
  · subst h
    have : ¬(q = 15#4 ∧ q ≠ 0#4 ∧ q ≠ 15#4) := fun ⟨a, _, b⟩ => b a
    simp [this]
  · simp [h, Regs.get_set]

@[simp] theorem Regs.get_withTimers (g : Regs) (a b : Word) (q : Reg) :
    Regs.get { g with t1 := a, t2 := b } q = if q = 11#4 then a else if q = 12#4 then b else g.get q := by
  revert q
  refine Reg.forall_of_sixteen fun q => ?_
  fin_cases q <;> rfl

/-- A tick counts the two timers and touches no other register (R20). -/
theorem tick_timer (s : State) (t : Timer) : (tick s).timer t = tickWord (s.timer t) := by
  cases t <;> simp [State.timer, Timer.reg] <;> rfl

end Sys2Proof.Machine
end

