-- ==== Sys2Proof/Laws/Ops.lean ====
section
/-! SUPPORT. For each shared operation, once, everything it can do when it answers a next state. -/
namespace Sys2Proof.Machine

/-- Sequencing answers a value exactly if the first part does and then the second. -/
theorem andThen_next {α β : Type} {o : Host.Outcome α Fault Refusal} {k : α → Host.Outcome β Fault Refusal} {b : β} :
    andThen o k = .next b ↔ ∃ a, o = .next a ∧ k a = .next b := by
  cases o <;> simp [andThen]

/-- A guarded instruction runs where its condition holds and only advances where it does not (R100, R102). -/
theorem guarded_next {c : Cond} {s t : State} {body : State → Host.Outcome State Fault Refusal} :
    guarded c s body = .next t ↔
      (condHolds c s.flags = true ∧ body s = .next t) ∨ (condHolds c s.flags = false ∧ t = s.advance) := by
  unfold guarded
  cases condHolds c s.flags <;> simp [eq_comm]

theorem guarded_of_holds {c : Cond} {s : State} (body : State → Host.Outcome State Fault Refusal)
    (h : condHolds c s.flags = true) : guarded c s body = body s := by simp [guarded, h]

theorem guarded_of_fails {c : Cond} {s : State} (body : State → Host.Outcome State Fault Refusal)
    (h : condHolds c s.flags = false) : guarded c s body = .next s.advance := by simp [guarded, h]

/-! ## The memory map -/

theorem regionOf_programRom {a : Word} : regionOf a = .programRom ↔ a.toNat < 0x1000 := by
  unfold regionOf
  split_ifs <;> simp only [true_iff, false_iff] <;>
    simp only [Config.progRomEnd, Config.dataRomEnd, Config.ramEnd, Config.gpioEnd, Config.vramEnd, Config.mapEnd] at * <;>
    omega

theorem regionOf_dataRom {a : Word} : regionOf a = .dataRom ↔ 0x1000 ≤ a.toNat ∧ a.toNat < 0x2000 := by
  unfold regionOf
  split_ifs <;> simp only [true_iff, false_iff] <;>
    simp only [Config.progRomEnd, Config.dataRomEnd, Config.ramEnd, Config.gpioEnd, Config.vramEnd, Config.mapEnd] at * <;>
    omega

theorem regionOf_ram {a : Word} : regionOf a = .ram ↔ 0x2000 ≤ a.toNat ∧ a.toNat < 0x4000 := by
  unfold regionOf
  split_ifs <;> simp only [true_iff, false_iff] <;>
    simp only [Config.progRomEnd, Config.dataRomEnd, Config.ramEnd, Config.gpioEnd, Config.vramEnd, Config.mapEnd] at * <;>
    omega

theorem regionOf_gpio {a : Word} : regionOf a = .gpio ↔ 0x4000 ≤ a.toNat ∧ a.toNat < 0x4400 := by
  unfold regionOf
  split_ifs <;> simp only [true_iff, false_iff] <;>
    simp only [Config.progRomEnd, Config.dataRomEnd, Config.ramEnd, Config.gpioEnd, Config.vramEnd, Config.mapEnd] at * <;>
    omega

theorem regionOf_vram {a : Word} : regionOf a = .vram ↔ 0x4400 ≤ a.toNat ∧ a.toNat < 0x4C00 := by
  unfold regionOf
  split_ifs <;> simp only [true_iff, false_iff] <;>
    simp only [Config.progRomEnd, Config.dataRomEnd, Config.ramEnd, Config.gpioEnd, Config.vramEnd, Config.mapEnd] at * <;>
    omega

theorem regionOf_unused {a : Word} : regionOf a = .unused ↔ 0x4C00 ≤ a.toNat ∧ a.toNat < 0x5000 := by
  unfold regionOf
  split_ifs <;> simp only [true_iff, false_iff] <;>
    simp only [Config.progRomEnd, Config.dataRomEnd, Config.ramEnd, Config.gpioEnd, Config.vramEnd, Config.mapEnd] at * <;>
    omega

theorem regionOf_outside {a : Word} : regionOf a = .outside ↔ 0x5000 ≤ a.toNat := by
  unfold regionOf
  split_ifs <;> simp only [true_iff, false_iff] <;>
    simp only [Config.progRomEnd, Config.dataRomEnd, Config.ramEnd, Config.gpioEnd, Config.vramEnd, Config.mapEnd] at * <;>
    omega

/-! ## Loads and stores -/

/-- A load of a plainly readable address answers the word there and changes nothing (R47, R49, R51). -/
theorem memRead_of_readable {a : Word} {s : State} (h : isReadable a) : memRead a s = .next (s.mem.read a.toNat, s) := by
  rcases h with h | h <;> simp [memRead, h]

/-- A load from device space answers the oracle's value and is recorded (R48, R51). -/
theorem memRead_of_device {a : Word} {s : State} (h : isDevice a) : memRead a s = .next (s.deviceLoad a) := by
  rcases h with h | h <;> simp [memRead, h]

/-- Everything a load can answer (R51). -/
theorem memRead_next {a : Word} {s : State} {r : Word × State} (h : memRead a s = .next r) :
    (isReadable a ∧ r = (s.mem.read a.toNat, s)) ∨ (isDevice a ∧ r = s.deviceLoad a) := by
  unfold memRead at h
  split at h <;> simp_all [isReadable, isDevice]

/-- A store to RAM writes the word (R49, R51). -/
theorem memWrite_of_ram {a v : Word} {s : State} (h : regionOf a = .ram) :
    memWrite a v s = .next { s with mem := s.mem.write a.toNat v } := by simp [memWrite, h]

/-- A store to device space is recorded (R48, R51). -/
theorem memWrite_of_device {a v : Word} {s : State} (h : isDevice a) : memWrite a v s = .next (s.deviceStore a v) := by
  rcases h with h | h <;> simp [memWrite, h]

/-- Everything a store can answer (R51). -/
theorem memWrite_next {a v : Word} {s t : State} (h : memWrite a v s = .next t) :
    (regionOf a = .ram ∧ t = { s with mem := s.mem.write a.toNat v }) ∨ (isDevice a ∧ t = s.deviceStore a v) := by
  unfold memWrite at h
  split at h <;> simp_all [isDevice]

/-- The write-backs that are not refused (R166). -/
theorem checkWriteback_next {d x : Reg} {v : BitVec 7} {rest : Host.Outcome State Fault Refusal} {t : State} :
    checkWriteback d x v rest = .next t ↔ (v = 0#7 ∨ (x ≠ 15#4 ∧ d ≠ x)) ∧ rest = .next t := by
  unfold checkWriteback
  split_ifs <;> simp_all

/-- The address of a `push` is the one below the stack pointer (R168). -/
theorem accessAddr_push (base : Word) : accessAddr base 127#7 true = base - 1#32 := by
  have h : modWord 127#7 = -1#32 := by decide
  simp only [accessAddr, if_true, h]
  exact (BitVec.sub_eq_add_neg base 1#32).symm

/-- The address of a `pop` is the stack pointer (R169). -/
theorem accessAddr_pop (base : Word) : accessAddr base 1#7 false = base := rfl

/-- Everything a load without modification can answer (R161). -/
theorem loadAt_next {d : Reg} {a : Word} {f : Bool} {s t : State} (h : loadAt d a f s = .next t) :
    (isReadable a ∧ t = finishLoad d f (s.mem.read a.toNat) s.advance) ∨
      (isDevice a ∧ t = finishLoad d f (Config.deviceRead s.devTrace a) (s.deviceLoad a).2.advance) := by
  obtain ⟨r, hr, ht⟩ := andThen_next.1 h
  rcases memRead_next hr with ⟨ha, rfl⟩ | ⟨ha, rfl⟩
  · exact .inl ⟨ha, by simpa using ht.symm⟩
  · exact .inr ⟨ha, by simpa using ht.symm⟩

/-- Everything a load with modification can answer (R161, R164). -/
theorem loadModified_next {d x : Reg} {base : Word} {v : BitVec 7} {u f : Bool} {s t : State}
    (h : loadModified d x base v u f s = .next t) :
    (isReadable (accessAddr base v u) ∧
        t = finishLoad d f (s.mem.read (accessAddr base v u).toNat) (s.advance.writeBack x base v)) ∨
      (isDevice (accessAddr base v u) ∧
        t = finishLoad d f (Config.deviceRead s.devTrace (accessAddr base v u))
          ((s.deviceLoad (accessAddr base v u)).2.advance.writeBack x base v)) := by
  obtain ⟨r, hr, ht⟩ := andThen_next.1 h
  rcases memRead_next hr with ⟨ha, rfl⟩ | ⟨ha, rfl⟩
  · exact .inl ⟨ha, by simpa using ht.symm⟩
  · exact .inr ⟨ha, by simpa using ht.symm⟩

/-- Everything a store without modification can answer (R162). -/
theorem storeAt_next {a data : Word} {s t : State} (h : storeAt a data s = .next t) :
    (regionOf a = .ram ∧ t = { s with mem := s.mem.write a.toNat data }.advance) ∨
      (isDevice a ∧ t = (s.deviceStore a data).advance) := by
  obtain ⟨r, hr, ht⟩ := andThen_next.1 h
  rcases memWrite_next hr with ⟨ha, rfl⟩ | ⟨ha, rfl⟩
  · exact .inl ⟨ha, by simpa using ht.symm⟩
  · exact .inr ⟨ha, by simpa using ht.symm⟩

/-- Everything a store with modification can answer (R162, R164). -/
theorem storeModified_next {x : Reg} {base data : Word} {v : BitVec 7} {u : Bool} {s t : State}
    (h : storeModified x base data v u s = .next t) :
    (regionOf (accessAddr base v u) = .ram ∧
        t = ({ s with mem := s.mem.write (accessAddr base v u).toNat data }.advance).writeBack x base v) ∨
      (isDevice (accessAddr base v u) ∧
        t = ((s.deviceStore (accessAddr base v u) data).advance).writeBack x base v) := by
  obtain ⟨r, hr, ht⟩ := andThen_next.1 h
  rcases memWrite_next hr with ⟨ha, rfl⟩ | ⟨ha, rfl⟩
  · exact .inl ⟨ha, by simpa using ht.symm⟩
  · exact .inr ⟨ha, by simpa using ht.symm⟩

/-! ## Results and flags -/

/-- The negative flag is the sign of the result (R103). -/
theorem resultFlags_n (w : Word) (v e : Bool) : (resultFlags w v e).n = true ↔ w.toInt < 0 := by
  simp [resultFlags, BitVec.msb_eq_toInt]

/-- The zero flag says that the result is 0 (R103). -/
theorem resultFlags_z (w : Word) (v e : Bool) : (resultFlags w v e).z = true ↔ w = 0#32 := by
  simp [resultFlags]

/-- What writing a register does, in the terms of the claims (R11, R16, R17). -/
theorem wrote_of_eq {s t : State} {d : Reg} {v : Word} (hr : t.regs = if d = 15#4 then s.regs else s.regs.set d v)
    (hp : t.pc = if d = 15#4 then v else s.pc + 1) : Wrote s t d v := by
  refine ⟨fun q hq => ?_, hp⟩
  rw [hr]
  split
  · rename_i h
    rw [if_neg (fun hh => hq (hh.1.trans h))]
  · rw [Regs.get_set]; simp [hq]

/-- What the flags are after an instruction that writes them if `f` (R103, R105). -/
theorem flagsAfter_of_eq {s t : State} {f : Bool} {w : Word} {v e : Bool}
    (h : t.flags = if f then resultFlags w v e else s.flags) : FlagsAfter s t f w v e := by
  cases f
  · simpa [FlagsAfter] using h
  · simp only [FlagsAfter, if_true] at h ⊢
    rw [h]
    exact ⟨resultFlags_z w v e, resultFlags_n w v e, rfl, rfl⟩

/-- An ALU instruction whose condition holds has the effect its answer says, and no other (R120). -/
theorem aluInstr_effect {out : AluOut} {d : Reg} {f : Bool} {c : Cond} {s : State} (h : condHolds c s.flags = true) :
    ∃ t, aluInstr out d f c s = .next t ∧ Wrote s t d out.result ∧ FlagsAfter s t f out.result out.v out.e ∧
      SameElsewhere s t ∧ SameMemory s t := by
  refine ⟨_, guarded_of_holds _ h, wrote_of_eq ?_ ?_, flagsAfter_of_eq ?_, ⟨?_, ?_, ?_⟩, fun a => ?_⟩ <;> simp

/-- Everything an ALU instruction can answer (R102, R120). -/
theorem aluInstr_next {out : AluOut} {d : Reg} {f : Bool} {c : Cond} {s t : State} (h : aluInstr out d f c s = .next t) :
    t = s.advance ∨ t = (s.advance.writeReg d out.result).setFlagsIf f (resultFlags out.result out.v out.e) := by
  rcases guarded_next.1 h with ⟨_, ht⟩ | ⟨_, ht⟩
  · exact .inr (by simpa using ht.symm)
  · exact .inl ht

/-! ## Arithmetic -/

/-- Repeated squaring is the power, for exponents below `2 ^ k` (R127). -/
theorem powWord_eq (k : Nat) (a : Word) (n : Nat) (h : n < 2 ^ k) : powWord k a n = a ^ n := by
  induction k generalizing a n with
  | zero => simp [powWord, show n = 0 by omega]
  | succ k ih =>
    have h2 : n / 2 < 2 ^ k := by omega
    have hsq : (a * a) ^ (n / 2) = a ^ (2 * (n / 2)) := by rw [pow_mul, pow_two]
    unfold powWord
    rw [ih _ _ h2, hsq]
    split
    · rw [← pow_succ', show 2 * (n / 2) + 1 = n by omega]
    · rw [show 2 * (n / 2) = n by omega]

/-- The word of a product is the product of the words (R124). -/
theorem wrap_mul (a b : Int) : wrap (a * b) = wrap a * wrap b := by
  simp [wrap, BitVec.ofInt_mul]

/-- The word of a word's signed value is the word. -/
@[simp] theorem wrap_toInt (a : Word) : wrap a.toInt = a := by simp [wrap]

/-- The power of a word is the word of the power of its signed value (R127). -/
theorem pow_eq_wrap (a : Word) (n : Nat) : a ^ n = wrap (a.toInt ^ n) := by
  induction n with
  | zero => simp [wrap]
  | succ n ih => rw [pow_succ, pow_succ, wrap_mul, ← ih, wrap_toInt]

/-! ## The core and the other agents -/

/-- A core turn with the clock running is a core step (R8, R9). -/
theorem step_of_core {s : State} (ht : s.turn = .core) (hh : s.hold = .running) : step s = coreStep s.takeTurn := by
  simp [step, ht, hh]

/-- Everything a step can be (R9, R22, log 9). -/
theorem step_next {s t : State} (h : step s = .next t) :
    (s.turn = .core ∧ s.hold = .running ∧ coreStep s.takeTurn = .next t) ∨ t = tick s.takeTurn ∨
      t = restart s.takeTurn := by
  unfold step at h
  split at h
  · split at h
    · exact .inl ⟨by assumption, by assumption, h⟩
    · exact .inr (.inl (by simpa using h.symm))
  · exact .inr (.inl (by simpa using h.symm))
  · exact .inr (.inr (by simpa using h.symm))

/-- Everything a step of the core can be (R8, R101). -/
theorem coreStep_next {s t : State} (h : coreStep s = .next t) :
    (∃ i, decode (fetch s.mem s.pc) = .ok i ∧ exec i s = .next t) ∨ t = s.advance := by
  unfold coreStep at h
  split at h
  · exact .inl ⟨_, by assumption, h⟩
  · unfold reservedOutcome at h
    split at h
    · exact .inr (by simpa using h.symm)
    · cases h

/-- A run of no moves ends where it starts. -/
theorem run_zero (s : State) : Sys2Proof.core.run 0 s = .next s := rfl

/-- A run of one more move that ends in a state makes that move and then runs on from there, on any machine. -/
theorem anyRun_succ_next (M : Host.Core) (n : Nat) (s t : M.State) :
    M.run (n + 1) s = .next t ↔ ∃ u, M.step s = .next u ∧ M.run n u = .next t := by
  rw [Host.Core.run]
  cases M.step s <;> simp

/-- The same on this machine. -/
theorem run_succ_next {n : Nat} {s t : State} :
    Sys2Proof.core.run (n + 1) s = .next t ↔ ∃ u : State, step s = .next u ∧ Sys2Proof.core.run n u = .next t :=
  anyRun_succ_next Sys2Proof.core n s t

/-- A positive timer counts down by one (R20). -/
theorem tickWord_of_pos {v : Word} (h : 0 < v.toInt) : tickWord v = v - 1 := by simp [tickWord, h]

/-- A timer at 0 stays there (R20). -/
@[simp] theorem tickWord_zero : tickWord 0#32 = 0#32 := rfl

/-- A timer holding a negative value becomes what the parameter says (R20, R21). -/
theorem tickWord_of_neg {v : Word} (h : v.toInt < 0) : tickWord v = Config.timerNeg v := by
  simp [tickWord, h, not_lt.2 h.le]

end Sys2Proof.Machine
end

