-- ==== Sys2Proof/Laws/Exec.lean ====
section
/-! SUPPORT. Once, everything an instruction can do when `exec` answers a next state; frames and invariants follow. -/
namespace Sys2Proof.Machine

/-- The state an instruction goes on from after its load, if it makes one: only device space remembers it (R48). -/
inductive LoadedFrom (i : Instr) (s : State) : State → Prop
  | plain : LoadedFrom i s s
  | device (a : Word) (ha : i.loadAddr s = some a) (hd : isDevice a) : LoadedFrom i s (s.deviceLoad a).2

/-- The state an instruction goes on from after its store (R48, R49). -/
inductive StoredTo (i : Instr) (s : State) : State → Prop
  | ram (a w : Word) (ha : i.storeAddr s = some a) (hr : regionOf a = .ram) :
      StoredTo i s { s with mem := s.mem.write a.toNat w }
  | device (a w : Word) (ha : i.storeAddr s = some a) (hd : isDevice a) : StoredTo i s (s.deviceStore a w)

/-- An address register modification that is none, or of a register the instruction is said to write. -/
def ModifiesOwn (i : Instr) (x : Reg) (v : BitVec 7) : Prop := v = 0#7 ∨ (x ∈ i.regsWritten ∧ x ≠ 15#4)

/-- The ways an instruction ends. -/
inductive Effect (i : Instr) (s : State) : State → Prop
  /-- Its condition is false, or it is a `nop`, or a `wait` for a timer at 0. -/
  | advanced : Effect i s s.advance
  /-- A result, of the ALU or loaded, goes to the destination, after the address register is modified. -/
  | result (s' : State) (d x : Reg) (base w : Word) (v : BitVec 7) (f : Bool) (fl : Flags) (hs : LoadedFrom i s s')
      (hd : d ∈ i.regsWritten ∨ d = 0#4) (hx : ModifiesOwn i x v) (hf : f = true → i.writesFlags = true) :
      Effect i s (((s'.advance.writeBack x base v).writeReg d w).setFlagsIf f fl)
  /-- A store, then the address register is modified. -/
  | stored (s' : State) (x : Reg) (base : Word) (v : BitVec 7) (hs : StoredTo i s s') (hx : ModifiesOwn i x v) :
      Effect i s (s'.advance.writeBack x base v)
  /-- A branch. -/
  | branched (f : Bool) (p : Word) (hb : i.isBranch = true) (hf : f = true → 14#4 ∈ i.regsWritten) :
      Effect i s { s.linkIf f with pc := p }
  /-- The flags are set from an operand. -/
  | flagsSet (fl : Flags) (hf : i.writesFlags = true) : Effect i s { s.advance with flags := fl }
  /-- The clock stops, for a timer only if it does not stand at 0. -/
  | stopped (h : Hold) (hb : i.stopsClock = true) (ht : ∀ t, h = .wait t → s.timer t ≠ 0#32) :
      Effect i s { s.advance with hold := h }

/-- The result of an instruction without address modification. -/
theorem Effect.plainResult {i : Instr} {s s' : State} (d : Reg) (w : Word) (f : Bool) (fl : Flags)
    (hs : LoadedFrom i s s') (hd : d ∈ i.regsWritten ∨ d = 0#4) (hf : f = true → i.writesFlags = true) :
    Effect i s ((s'.advance.writeReg d w).setFlagsIf f fl) :=
  .result s' d 0#4 0#32 w 0#7 f fl hs hd (.inl rfl) hf

/-- The effect of a load without modification. -/
theorem Effect.ofLoadAt {i : Instr} {s t : State} {d : Reg} {a : Word} {f : Bool} (h : loadAt d a f s = .next t)
    (ha : i.loadAddr s = some a) (hd : d ∈ i.regsWritten ∨ d = 0#4) (hf : f = true → i.writesFlags = true) :
    Effect i s t := by
  rcases loadAt_next h with ⟨_, rfl⟩ | ⟨hv, rfl⟩
  · exact .plainResult _ _ _ _ .plain hd hf
  · exact .plainResult _ _ _ _ (.device a ha hv) hd hf

/-- The effect of a store without modification. -/
theorem Effect.ofStoreAt {i : Instr} {s t : State} {a w : Word} (h : storeAt a w s = .next t)
    (ha : i.storeAddr s = some a) : Effect i s t := by
  rcases storeAt_next h with ⟨hr, rfl⟩ | ⟨hd, rfl⟩
  · exact .stored _ 0#4 0#32 0#7 (.ram a w ha hr) (.inl rfl)
  · exact .stored _ 0#4 0#32 0#7 (.device a w ha hd) (.inl rfl)

/-- The effect of a load with modification. -/
theorem Effect.ofLoadModified {i : Instr} {s t : State} {d x : Reg} {base : Word} {v : BitVec 7} {u f : Bool}
    (h : loadModified d x base v u f s = .next t) (ha : i.loadAddr s = some (accessAddr base v u))
    (hd : d ∈ i.regsWritten) (hx : ModifiesOwn i x v) (hf : f = true → i.writesFlags = true) : Effect i s t := by
  rcases loadModified_next h with ⟨_, rfl⟩ | ⟨hv, rfl⟩
  · exact .result _ _ _ _ _ _ _ _ .plain (.inl hd) hx hf
  · exact .result _ _ _ _ _ _ _ _ (.device _ ha hv) (.inl hd) hx hf

/-- The effect of a store with modification. -/
theorem Effect.ofStoreModified {i : Instr} {s t : State} {x : Reg} {base w : Word} {v : BitVec 7} {u : Bool}
    (h : storeModified x base w v u s = .next t) (ha : i.storeAddr s = some (accessAddr base v u))
    (hx : ModifiesOwn i x v) : Effect i s t := by
  rcases storeModified_next h with ⟨hr, rfl⟩ | ⟨hd, rfl⟩
  · exact .stored _ _ _ _ (.ram _ w ha hr) hx
  · exact .stored _ _ _ _ (.device _ w ha hd) hx

/-- The effect of a guarded instruction is that of its body, or only the advance. -/
theorem Effect.ofGuarded {i : Instr} {s t : State} {c : Cond} {body : State → Host.Outcome State Fault Refusal}
    (h : guarded c s body = .next t) (hb : body s = .next t → Effect i s t) : Effect i s t := by
  rcases guarded_next.1 h with ⟨_, h⟩ | ⟨_, rfl⟩
  · exact hb h
  · exact .advanced

/-- The effect of an ALU instruction. -/
theorem Effect.ofAlu {i : Instr} {s t : State} {out : AluOut} {d : Reg} {f : Bool} {c : Cond}
    (h : aluInstr out d f c s = .next t) (hd : d ∈ i.regsWritten ∨ d = 0#4) (hf : f = true → i.writesFlags = true) :
    Effect i s t := by
  rcases aluInstr_next h with rfl | rfl
  · exact .advanced
  · exact .plainResult _ _ _ _ .plain hd hf

/-- The effect of `ldh`. -/
theorem Effect.ofLoadHigh {i : Instr} {s t : State} {op2 : Word} {d : Reg} {f : Bool}
    (h : loadHigh d op2 f s = .next t) (hd : d ∈ i.regsWritten ∨ d = 0#4) (hf : f = true → i.writesFlags = true) :
    Effect i s t := by
  cases h
  exact .plainResult _ _ _ _ .plain hd hf

/-- The effect of `wait`. -/
theorem Effect.ofWait {i : Instr} {s t : State} {k : Timer} (h : waitFor k s = .next t) (hi : i.stopsClock = true) :
    Effect i s t := by
  cases h
  split
  · exact .advanced
  · exact .stopped _ hi (by rintro _ ⟨⟩; assumption)

/-- Whatever an instruction does, it is one of these effects. -/
theorem exec_next {i : Instr} {s t : State} (h : exec i s = .next t) : Effect i s t := by
  cases i
  case ldrR d x v u f c =>
    simp only [exec, execLdrR, guarded_next, checkWriteback_next] at h
    rcases h with ⟨_, hv, h⟩ | ⟨_, rfl⟩
    · refine .ofLoadModified h rfl (by simp [Instr.regsWritten]) ?_ (by simp [Instr.writesFlags])
      by_cases h0 : v = 0#7
      · exact .inl h0
      · exact .inr ⟨by simp [Instr.regsWritten, h0], (hv.resolve_left h0).1⟩
    · exact .advanced
  case strR d x v u c =>
    simp only [exec, execStrR, guarded_next, checkWriteback_next] at h
    rcases h with ⟨_, hv, h⟩ | ⟨_, rfl⟩
    · refine .ofStoreModified h rfl ?_
      by_cases h0 : v = 0#7
      · exact .inl h0
      · exact .inr ⟨by simp [Instr.regsWritten, h0], (hv.resolve_left h0).1⟩
    · exact .advanced
  case popR d f c =>
    simp only [exec, execPopR, guarded_next, checkWriteback_next] at h
    rcases h with ⟨_, _, h⟩ | ⟨_, rfl⟩
    · exact .ofLoadModified h rfl (by simp [Instr.regsWritten]) (.inr ⟨by simp [Instr.regsWritten], by decide⟩)
        (by simp [Instr.writesFlags])
    · exact .advanced
  case pushR d c =>
    simp only [exec, execPushR, guarded_next, checkWriteback_next] at h
    rcases h with ⟨_, _, h⟩ | ⟨_, rfl⟩
    · exact .ofStoreModified h rfl (.inr ⟨by simp [Instr.regsWritten], by decide⟩)
    · exact .advanced
  case ldrI | ldrA =>
    simp only [exec, execLdrI, execLdrA] at h
    exact .ofGuarded h fun h => .ofLoadAt h rfl (.inl (by simp [Instr.regsWritten])) (by simp [Instr.writesFlags])
  case ldrL =>
    simp only [exec, execLdrL] at h
    exact .ofGuarded h fun h => .ofLoadAt h rfl (.inr rfl) (by simp [Instr.writesFlags])
  case strI | strA | strL =>
    simp only [exec, execStrI, execStrA, execStrL] at h
    exact .ofGuarded h fun h => .ofStoreAt h rfl
  case addR | addI | addA | subR | subI | subA | sbnR | sbnI | sbnA | mulR | mulI | mulA | divR | divI | divA | modR
    | modI | modA | expR | expI | expA | shlR | shlI | shlA | shrR | shrI | shrA | andR | andI | andA | orrR |
    orrI | orrA | xorR | xorI | xorA | movR | movA | notI =>
    exact .ofAlu h (.inl (by simp [Instr.regsWritten])) (by simp [Instr.writesFlags])
  case addL | subL | sbnL | mulL | divL | modL | expL | shlL | shrL | andL | orrL | xorL | cmpR | cmpI =>
    exact .ofAlu h (.inr rfl) (by simp [Instr.writesFlags])
  case ldhR | ldhI | ldhA =>
    simp only [exec, execLdhR, execLdhI, execLdhA] at h
    exact .ofGuarded h fun h => .ofLoadHigh h (.inl (by simp [Instr.regsWritten])) (by simp [Instr.writesFlags])
  case ldhL =>
    simp only [exec, execLdhL] at h
    exact .ofGuarded h fun h => .ofLoadHigh h (.inr rfl) (by simp [Instr.writesFlags])
  case bR | bI | bA | bL =>
    simp only [exec, execBR, execBI, execBA, execBL] at h
    refine .ofGuarded h fun h => ?_
    cases h
    exact .branched _ _ rfl (by simp +contextual [Instr.regsWritten])
  case setfR | setfI | setfA | setfL =>
    simp only [exec, execSetfR, execSetfI, execSetfA, execSetfL] at h
    refine .ofGuarded h fun h => ?_
    cases h
    exact .flagsSet _ rfl
  case brkR =>
    simp only [exec, execBrkR] at h
    refine .ofGuarded h fun h => ?_
    cases h
    exact .stopped .brk rfl (by simp)
  case waitT1 | waitT2 =>
    simp only [exec, execWaitT1, execWaitT2] at h
    exact .ofGuarded h fun h => .ofWait h rfl
  case nopR =>
    simp only [exec, execNopR] at h
    refine .ofGuarded h fun h => ?_
    cases h
    exact .advanced
  case bxsR =>
    simp only [exec, execBxsR] at h
    refine .ofGuarded h fun h => ?_
    cases h
    exact .plainResult 15#4 _ false ⟨false, false, false, false⟩ .plain (.inl (by simp [Instr.regsWritten])) (by simp)

/-! ## What a load or a store that is executed does -/

/-- A `checkWriteback` of an admitted pair lets the access happen (R166). -/
theorem checkWriteback_of_ok {d x : Reg} {v : BitVec 7} (h : writebackOk d x v = true)
    (rest : Host.Outcome State Fault Refusal) : checkWriteback d x v rest = rest := by
  simp only [writebackOk, Bool.or_eq_true, beq_iff_eq, Bool.and_eq_true, bne_iff_ne] at h
  unfold checkWriteback
  split_ifs <;> simp_all

/-- An instruction that is executed and answers a next state is well-formed (R166). -/
theorem wellFormed_of_next {i : Instr} {s t : State} (h : exec i s = .next t) (hc : condHolds i.condOf s.flags = true) :
    i.wellFormed = true := by
  cases i
  case ldrR | strR | popR | pushR =>
    simp only [Instr.condOf] at hc
    simp only [exec, execLdrR, execStrR, execPopR, execPushR, guarded_of_holds _ hc, checkWriteback_next] at h
    simpa [Instr.wellFormed, writebackOk, and_comm] using h.1
  all_goals rfl

/-- A load without modification, in the shape of one with it. -/
theorem loadAt_eq (d : Reg) (a : Word) (f : Bool) (s : State) : loadAt d a f s =
    andThen (memRead a s) fun r => .next (finishLoad d f r.1 (r.2.advance.writeBack 0#4 0#32 0#7)) := by
  simp [loadAt, State.writeBack]

/-- A store without modification, in the shape of one with it. -/
theorem storeAt_eq (a w : Word) (s : State) : storeAt a w s =
    andThen (memWrite a w s) fun t => .next (t.advance.writeBack 0#4 0#32 0#7) := by
  simp [storeAt, State.writeBack]

/-- An admitted modification is of a register the instruction names, or none (R166). -/
theorem modifiesOwn_of_ok {i : Instr} {d x : Reg} {v : BitVec 7} (h : writebackOk d x v = true)
    (hx : v ≠ 0#7 → x ∈ i.regsWritten) : ModifiesOwn i x v := by
  simp only [writebackOk, Bool.or_eq_true, beq_iff_eq, Bool.and_eq_true, bne_iff_ne] at h
  by_cases hv : v = 0#7
  · exact .inl hv
  · exact .inr ⟨hx hv, (h.resolve_left hv).2⟩

/-- A load that is executed reads its address, modifies its address register and then writes its destination and the flags
(R161, R164). -/
theorem exec_load {i : Instr} {s : State} {a : Word} {d : Reg} (hw : i.wellFormed = true)
    (hc : condHolds i.condOf s.flags = true) (ha : i.loadAddr s = some a) (hd : i.loadDest = some d) :
    (d ∈ i.regsWritten ∨ d = 0#4) ∧ ∃ x base v, ModifiesOwn i x v ∧ exec i s = andThen (memRead a s) fun r =>
      .next (finishLoad d i.writesFlags r.1 (r.2.advance.writeBack x base v)) := by
  cases i <;> cases ha <;> cases hd
  case ldrR | popR =>
    simp only [Instr.condOf] at hc
    simp only [Instr.wellFormed] at hw
    simp only [exec, execLdrR, execPopR, guarded_of_holds _ hc, checkWriteback_of_ok hw]
    exact ⟨.inl (by simp [Instr.regsWritten]), _, _, _,
      modifiesOwn_of_ok hw (by simp +contextual [Instr.regsWritten]), rfl⟩
  all_goals
    simp only [Instr.condOf] at hc
    simp only [exec, execLdrI, execLdrA, execLdrL, guarded_of_holds _ hc]
    exact ⟨by simp [Instr.regsWritten, noDest], 0#4, 0#32, 0#7, .inl rfl, loadAt_eq _ _ _ _⟩

/-- A store that is executed writes its word to its address and then modifies its address register (R162, R164). -/
theorem exec_store {i : Instr} {s : State} {a : Word} (hw : i.wellFormed = true)
    (hc : condHolds i.condOf s.flags = true) (ha : i.storeAddr s = some a) :
    ∃ x base v, ModifiesOwn i x v ∧
      exec i s = andThen (memWrite a (i.storeData s) s) fun t => .next (t.advance.writeBack x base v) := by
  cases i <;> simp only [Instr.storeAddr, Option.some.injEq, reduceCtorEq] at ha <;> subst ha
  case strR | pushR =>
    simp only [Instr.condOf] at hc
    simp only [Instr.wellFormed] at hw
    simp only [exec, execStrR, execPushR, guarded_of_holds _ hc, checkWriteback_of_ok hw]
    exact ⟨_, _, _, modifiesOwn_of_ok hw (by simp +contextual [Instr.regsWritten]), rfl⟩
  all_goals
    simp only [Instr.condOf] at hc
    simp only [exec, execStrI, execStrA, execStrL, guarded_of_holds _ hc]
    exact ⟨0#4, 0#32, 0#7, .inl rfl, storeAt_eq _ _ _⟩

/-! ## The schedule along a run -/

/-- No instruction touches the schedule (log 9). -/
theorem exec_schedule {i : Instr} {s t : State} (h : exec i s = .next t) : t.schedule = s.schedule := by
  cases exec_next h with
  | result _ _ _ _ _ _ _ _ hs => cases hs <;> simp
  | stored _ _ _ _ hs => cases hs <;> simp
  | _ => simp

/-- A step takes one move from the schedule (log 9). -/
theorem step_schedule {s t : State} (h : step s = .next t) : t.schedule = s.schedule.next := by
  rcases step_next h with ⟨_, _, h⟩ | rfl | rfl
  · rcases coreStep_next h with ⟨i, _, h⟩ | rfl
    · simpa using exec_schedule h
    · simp
  · simp
  · simp

/-- A run of `n` moves takes `n` moves from the schedule (log 9). -/
theorem run_schedule {n : Nat} {s t : State} (h : Sys2Proof.core.run n s = .next t) :
    t.schedule = Schedule.next^[n] s.schedule := by
  induction n generalizing s with
  | zero => cases (run_zero s).symm.trans h; rfl
  | succ n ih =>
    obtain ⟨u, hu, h⟩ := run_succ_next.1 h
    rw [ih h, step_schedule hu, Function.iterate_succ_apply]

/-- An agenda is used up in as many moves as it has agents. -/
theorem Schedule.iterate_append (l r : List Agent) (k : Nat) : Schedule.next^[l.length] ⟨l ++ r, k⟩ = ⟨r, k⟩ := by
  induction l with
  | nil => rfl
  | cons a l ih => rw [List.length_cons, Function.iterate_succ_apply]; exact ih

/-- A tick comes after finitely many moves from any schedule (R205; log 9). -/
theorem Schedule.exists_tick (c : Schedule) : ∃ n, (Schedule.next^[n] c).turn = .tick := by
  obtain ⟨l, k⟩ := c
  have drawn : ∃ n, (Schedule.next^[n] ⟨[], k⟩).turn = .tick := by
    have h := Schedule.iterate_append (Config.agendaAfter k) [.tick] (k + 1)
    refine ⟨(Config.agendaAfter k).length, ?_⟩
    cases hn : (Config.agendaAfter k).length with
    | zero => rw [hn] at h; rw [Function.iterate_zero, id, Schedule.turn_nil]; exact congrArg Schedule.turn h
    | succ n =>
      rw [hn, Function.iterate_succ_apply] at h
      rw [Function.iterate_succ_apply, Schedule.next_nil, h]
      rfl
  obtain ⟨n, hn⟩ := drawn
  refine ⟨n + l.length, ?_⟩
  rw [Function.iterate_add_apply, show (⟨l, k⟩ : Schedule) = ⟨l ++ [], k⟩ by rw [List.append_nil],
    Schedule.iterate_append, hn]

end Sys2Proof.Machine
end

