-- ==== Sys2Proof/Laws/PerInstr.lean ====
section
/-!
SUPPORT. Facts per instruction, one lemma per constructor. EncodeCond: the low four bits of an instruction's word are the
code of its condition (spec/30_encoding.md R78, 40_conditions_flags.md R100).
-/
namespace Sys2Proof.Laws.EncodeCond

/-- The word of an instruction carries its condition. -/
def Statement (i : Instr) : Prop := condField (encode i) = (Instr.condOf i).toBits

theorem addR (d r x : Reg) (f : Bool) (c : Cond) : Statement (.addR d r x f c) :=
  condField_wordR ..
theorem addI (d r : Reg) (imm : BitVec 12) (f : Bool) (c : Cond) : Statement (.addI d r imm f c) :=
  condField_wordI ..
theorem addA (d : Reg) (imm : BitVec 16) (f : Bool) (c : Cond) : Statement (.addA d imm f c) :=
  condField_wordA ..
theorem addL (imm : BitVec 20) (f : Bool) (c : Cond) : Statement (.addL imm f c) :=
  condField_wordL ..
theorem subR (d r x : Reg) (f : Bool) (c : Cond) : Statement (.subR d r x f c) :=
  condField_wordR ..
theorem subI (d r : Reg) (imm : BitVec 12) (f : Bool) (c : Cond) : Statement (.subI d r imm f c) :=
  condField_wordI ..
theorem subA (d : Reg) (imm : BitVec 16) (f : Bool) (c : Cond) : Statement (.subA d imm f c) :=
  condField_wordA ..
theorem subL (imm : BitVec 20) (f : Bool) (c : Cond) : Statement (.subL imm f c) :=
  condField_wordL ..
theorem sbnR (d r x : Reg) (f : Bool) (c : Cond) : Statement (.sbnR d r x f c) :=
  condField_wordR ..
theorem sbnI (d r : Reg) (imm : BitVec 12) (f : Bool) (c : Cond) : Statement (.sbnI d r imm f c) :=
  condField_wordI ..
theorem sbnA (d : Reg) (imm : BitVec 16) (f : Bool) (c : Cond) : Statement (.sbnA d imm f c) :=
  condField_wordA ..
theorem sbnL (imm : BitVec 20) (f : Bool) (c : Cond) : Statement (.sbnL imm f c) :=
  condField_wordL ..
theorem mulR (d r x : Reg) (f : Bool) (c : Cond) : Statement (.mulR d r x f c) :=
  condField_wordR ..
theorem mulI (d r : Reg) (imm : BitVec 12) (f : Bool) (c : Cond) : Statement (.mulI d r imm f c) :=
  condField_wordI ..
theorem mulA (d : Reg) (imm : BitVec 16) (f : Bool) (c : Cond) : Statement (.mulA d imm f c) :=
  condField_wordA ..
theorem mulL (imm : BitVec 20) (f : Bool) (c : Cond) : Statement (.mulL imm f c) :=
  condField_wordL ..
theorem divR (d r x : Reg) (f : Bool) (c : Cond) : Statement (.divR d r x f c) :=
  condField_wordR ..
theorem divI (d r : Reg) (imm : BitVec 12) (f : Bool) (c : Cond) : Statement (.divI d r imm f c) :=
  condField_wordI ..
theorem divA (d : Reg) (imm : BitVec 16) (f : Bool) (c : Cond) : Statement (.divA d imm f c) :=
  condField_wordA ..
theorem divL (imm : BitVec 20) (f : Bool) (c : Cond) : Statement (.divL imm f c) :=
  condField_wordL ..
theorem modR (d r x : Reg) (f : Bool) (c : Cond) : Statement (.modR d r x f c) :=
  condField_wordR ..
theorem modI (d r : Reg) (imm : BitVec 12) (f : Bool) (c : Cond) : Statement (.modI d r imm f c) :=
  condField_wordI ..
theorem modA (d : Reg) (imm : BitVec 16) (f : Bool) (c : Cond) : Statement (.modA d imm f c) :=
  condField_wordA ..
theorem modL (imm : BitVec 20) (f : Bool) (c : Cond) : Statement (.modL imm f c) :=
  condField_wordL ..
theorem expR (d r x : Reg) (f : Bool) (c : Cond) : Statement (.expR d r x f c) :=
  condField_wordR ..
theorem expI (d r : Reg) (imm : BitVec 12) (f : Bool) (c : Cond) : Statement (.expI d r imm f c) :=
  condField_wordI ..
theorem expA (d : Reg) (imm : BitVec 16) (f : Bool) (c : Cond) : Statement (.expA d imm f c) :=
  condField_wordA ..
theorem expL (imm : BitVec 20) (f : Bool) (c : Cond) : Statement (.expL imm f c) :=
  condField_wordL ..
theorem shlR (d r x : Reg) (f : Bool) (c : Cond) : Statement (.shlR d r x f c) :=
  condField_wordR ..
theorem shlI (d r : Reg) (imm : BitVec 12) (f : Bool) (c : Cond) : Statement (.shlI d r imm f c) :=
  condField_wordI ..
theorem shlA (d : Reg) (imm : BitVec 16) (f : Bool) (c : Cond) : Statement (.shlA d imm f c) :=
  condField_wordA ..
theorem shlL (imm : BitVec 20) (f : Bool) (c : Cond) : Statement (.shlL imm f c) :=
  condField_wordL ..
theorem shrR (d r x : Reg) (f : Bool) (c : Cond) : Statement (.shrR d r x f c) :=
  condField_wordR ..
theorem shrI (d r : Reg) (imm : BitVec 12) (f : Bool) (c : Cond) : Statement (.shrI d r imm f c) :=
  condField_wordI ..
theorem shrA (d : Reg) (imm : BitVec 16) (f : Bool) (c : Cond) : Statement (.shrA d imm f c) :=
  condField_wordA ..
theorem shrL (imm : BitVec 20) (f : Bool) (c : Cond) : Statement (.shrL imm f c) :=
  condField_wordL ..
theorem andR (d r x : Reg) (f : Bool) (c : Cond) : Statement (.andR d r x f c) :=
  condField_wordR ..
theorem andI (d r : Reg) (imm : BitVec 12) (f : Bool) (c : Cond) : Statement (.andI d r imm f c) :=
  condField_wordI ..
theorem andA (d : Reg) (imm : BitVec 16) (f : Bool) (c : Cond) : Statement (.andA d imm f c) :=
  condField_wordA ..
theorem andL (imm : BitVec 20) (f : Bool) (c : Cond) : Statement (.andL imm f c) :=
  condField_wordL ..
theorem orrR (d r x : Reg) (f : Bool) (c : Cond) : Statement (.orrR d r x f c) :=
  condField_wordR ..
theorem orrI (d r : Reg) (imm : BitVec 12) (f : Bool) (c : Cond) : Statement (.orrI d r imm f c) :=
  condField_wordI ..
theorem orrA (d : Reg) (imm : BitVec 16) (f : Bool) (c : Cond) : Statement (.orrA d imm f c) :=
  condField_wordA ..
theorem orrL (imm : BitVec 20) (f : Bool) (c : Cond) : Statement (.orrL imm f c) :=
  condField_wordL ..
theorem xorR (d r x : Reg) (f : Bool) (c : Cond) : Statement (.xorR d r x f c) :=
  condField_wordR ..
theorem xorI (d r : Reg) (imm : BitVec 12) (f : Bool) (c : Cond) : Statement (.xorI d r imm f c) :=
  condField_wordI ..
theorem xorA (d : Reg) (imm : BitVec 16) (f : Bool) (c : Cond) : Statement (.xorA d imm f c) :=
  condField_wordA ..
theorem xorL (imm : BitVec 20) (f : Bool) (c : Cond) : Statement (.xorL imm f c) :=
  condField_wordL ..
theorem ldrR (d x : Reg) (v : BitVec 7) (u : Bool) (f : Bool) (c : Cond) : Statement (.ldrR d x v u f c) :=
  condField_wordR ..
theorem ldrI (d : Reg) (imm : BitVec 12) (f : Bool) (c : Cond) : Statement (.ldrI d imm f c) :=
  condField_wordI ..
theorem ldrA (d : Reg) (imm : BitVec 16) (f : Bool) (c : Cond) : Statement (.ldrA d imm f c) :=
  condField_wordA ..
theorem ldrL (imm : BitVec 20) (f : Bool) (c : Cond) : Statement (.ldrL imm f c) :=
  condField_wordL ..
theorem strR (d x : Reg) (v : BitVec 7) (u : Bool) (c : Cond) : Statement (.strR d x v u c) :=
  condField_wordR ..
theorem strI (d : Reg) (imm : BitVec 12) (c : Cond) : Statement (.strI d imm c) :=
  condField_wordI ..
theorem strA (d : Reg) (imm : BitVec 16) (c : Cond) : Statement (.strA d imm c) :=
  condField_wordA ..
theorem strL (imm : BitVec 20) (c : Cond) : Statement (.strL imm c) :=
  condField_wordL ..
theorem ldhR (d x : Reg) (f : Bool) (c : Cond) : Statement (.ldhR d x f c) :=
  condField_wordR ..
theorem ldhI (d : Reg) (imm : BitVec 12) (f : Bool) (c : Cond) : Statement (.ldhI d imm f c) :=
  condField_wordI ..
theorem ldhA (d : Reg) (imm : BitVec 16) (f : Bool) (c : Cond) : Statement (.ldhA d imm f c) :=
  condField_wordA ..
theorem ldhL (imm : BitVec 20) (f : Bool) (c : Cond) : Statement (.ldhL imm f c) :=
  condField_wordL ..
theorem bR (x : Reg) (f : Bool) (c : Cond) : Statement (.bR x f c) :=
  condField_wordR ..
theorem bI (imm : BitVec 12) (f : Bool) (c : Cond) : Statement (.bI imm f c) :=
  condField_wordI ..
theorem bA (imm : BitVec 16) (f : Bool) (c : Cond) : Statement (.bA imm f c) :=
  condField_wordA ..
theorem bL (imm : BitVec 20) (f : Bool) (c : Cond) : Statement (.bL imm f c) :=
  condField_wordL ..
theorem setfR (x : Reg) (c : Cond) : Statement (.setfR x c) :=
  condField_wordR ..
theorem setfI (imm : BitVec 12) (c : Cond) : Statement (.setfI imm c) :=
  condField_wordI ..
theorem setfA (imm : BitVec 16) (c : Cond) : Statement (.setfA imm c) :=
  condField_wordA ..
theorem setfL (imm : BitVec 20) (c : Cond) : Statement (.setfL imm c) :=
  condField_wordL ..
theorem brkR (c : Cond) : Statement (.brkR c) :=
  condField_wordR ..
theorem waitT1 (c : Cond) : Statement (.waitT1 c) :=
  condField_wordR ..
theorem waitT2 (c : Cond) : Statement (.waitT2 c) :=
  condField_wordR ..
theorem movR (d x : Reg) (f : Bool) (c : Cond) : Statement (.movR d x f c) :=
  condField_wordR ..
theorem movA (d : Reg) (imm : BitVec 16) (f : Bool) (c : Cond) : Statement (.movA d imm f c) :=
  condField_wordA ..
theorem cmpR (r x : Reg) (c : Cond) : Statement (.cmpR r x c) :=
  condField_wordR ..
theorem cmpI (r : Reg) (imm : BitVec 12) (c : Cond) : Statement (.cmpI r imm c) :=
  condField_wordI ..
theorem nopR (c : Cond) : Statement (.nopR c) :=
  condField_wordR ..
theorem notI (d r : Reg) (f : Bool) (c : Cond) : Statement (.notI d r f c) :=
  condField_wordI ..
theorem pushR (d : Reg) (c : Cond) : Statement (.pushR d c) :=
  condField_wordR ..
theorem popR (d : Reg) (f : Bool) (c : Cond) : Statement (.popR d f c) :=
  condField_wordR ..
theorem bxsR (x : Reg) (c : Cond) : Statement (.bxsR x c) :=
  condField_wordR ..

end Sys2Proof.Laws.EncodeCond
end

