-- ==== Sys2Proof/Tests/Slice0.lean ====
section
/-!
SUPPORT. The model's own tests. Words and expected results are those of spec/95_test_vectors.md, or written out from the
formulas at its head. A test checks one step, or that the hypotheses of a statement can be met together.
-/
namespace Sys2Proof.Tests

open Sys2Proof Sys2Proof.Machine

/-- A state whose next moves are those of given agents. -/
def moves (l : List Agent) (s : State) : State := { s with schedule := { s.schedule with agenda := l } }

/-- A running machine with given registers and memory, the core to move. -/
def ready (g : Regs) (m : Memory) : State := moves [.core] { State.reset with regs := g, mem := m }

/-- One step on a word placed at `pc`. -/
def stepOn (w : Word) (s : State) : Host.Outcome State Fault Refusal := step (s.withFetchWord 32 w.toNat)

/-- The step answers a next state that passes a check. -/
def gives (o : Host.Outcome State Fault Refusal) (check : State → Bool) : Bool :=
  match o with
  | .next t => check t
  | _ => false

/-- The step stops with a refusal that passes a check. -/
def refuses (o : Host.Outcome State Fault Refusal) (why : Refusal) : Bool :=
  match o with
  | .refused r => r == why
  | _ => false

/-- The step stops with a fault that passes a check. -/
def faults (o : Host.Outcome State Fault Refusal) (why : Fault) : Bool :=
  match o with
  | .fault r => r == why
  | _ => false

/-- Four flags, in the order `Z N V E`. -/
def zf (z n v e : Bool) : Flags := { z := z, n := n, v := v, e := e }

/-! ## Ill-formed instructions are refused -/

theorem test_wf_load_into_modified : (Instr.ldrR 2 2 1 false false .always).wellFormed = false := by decide
theorem test_wf_load_modifies_pc : (Instr.ldrR 1 15 1 false false .always).wellFormed = false := by decide
theorem test_wf_store_of_modified : (Instr.strR 2 2 127 true .always).wellFormed = false := by decide
theorem test_wf_store_modifies_pc : (Instr.strR 1 15 127 true .always).wellFormed = false := by decide
theorem test_wf_push_sp : (Instr.pushR 13 .always).wellFormed = false := by decide
theorem test_wf_pop_sp : (Instr.popR 13 false .always).wellFormed = false := by decide
theorem test_wf_unmodified_same_register :
    (Instr.ldrR 2 2 0 true false .always).wellFormed = true ∧
    (Instr.strR 15 15 0 false .always).wellFormed = true :=
  by decide

/-! ## Decoding, every constructor (95 sections 2.1 to 2.3) -/

theorem test_decode_add :
    decode 0x00213000#32 = .ok (.addR 3 1 2 false .always) ∧
    decode 0xFFB13032#32 = .ok (.addI 3 1 (-5) true .ne) ∧
    decode 0x80019040#32 = .ok (.addA 9 0x8001 false .always) ∧
    decode 0x00005076#32 = .ok (.addL 5 true .le) :=
  by decide
theorem test_decode_sub :
    decode 0x00213080#32 = .ok (.subR 3 1 2 false .always) ∧
    decode 0xFFB130B2#32 = .ok (.subI 3 1 (-5) true .ne) ∧
    decode 0x800190C0#32 = .ok (.subA 9 0x8001 false .always) ∧
    decode 0x000050F6#32 = .ok (.subL 5 true .le) :=
  by decide
theorem test_decode_sbn :
    decode 0x00213100#32 = .ok (.sbnR 3 1 2 false .always) ∧
    decode 0xFFB13132#32 = .ok (.sbnI 3 1 (-5) true .ne) ∧
    decode 0x80019140#32 = .ok (.sbnA 9 0x8001 false .always) ∧
    decode 0x00005176#32 = .ok (.sbnL 5 true .le) :=
  by decide
theorem test_decode_mul :
    decode 0x00213180#32 = .ok (.mulR 3 1 2 false .always) ∧
    decode 0xFFB131B2#32 = .ok (.mulI 3 1 (-5) true .ne) ∧
    decode 0x800191C0#32 = .ok (.mulA 9 0x8001 false .always) ∧
    decode 0x000051F6#32 = .ok (.mulL 5 true .le) :=
  by decide
theorem test_decode_div :
    decode 0x00213200#32 = .ok (.divR 3 1 2 false .always) ∧
    decode 0xFFB13232#32 = .ok (.divI 3 1 (-5) true .ne) ∧
    decode 0x80019240#32 = .ok (.divA 9 0x8001 false .always) ∧
    decode 0x00005276#32 = .ok (.divL 5 true .le) :=
  by decide
theorem test_decode_mod :
    decode 0x00213280#32 = .ok (.modR 3 1 2 false .always) ∧
    decode 0xFFB132B2#32 = .ok (.modI 3 1 (-5) true .ne) ∧
    decode 0x800192C0#32 = .ok (.modA 9 0x8001 false .always) ∧
    decode 0x000052F6#32 = .ok (.modL 5 true .le) :=
  by decide
theorem test_decode_exp :
    decode 0x00213300#32 = .ok (.expR 3 1 2 false .always) ∧
    decode 0xFFB13332#32 = .ok (.expI 3 1 (-5) true .ne) ∧
    decode 0x80019340#32 = .ok (.expA 9 0x8001 false .always) ∧
    decode 0x00005376#32 = .ok (.expL 5 true .le) :=
  by decide
theorem test_decode_shl :
    decode 0x00213380#32 = .ok (.shlR 3 1 2 false .always) ∧
    decode 0xFFB133B2#32 = .ok (.shlI 3 1 (-5) true .ne) ∧
    decode 0x800193C0#32 = .ok (.shlA 9 0x8001 false .always) ∧
    decode 0x000053F6#32 = .ok (.shlL 5 true .le) :=
  by decide
theorem test_decode_shr :
    decode 0x00213400#32 = .ok (.shrR 3 1 2 false .always) ∧
    decode 0xFFB13432#32 = .ok (.shrI 3 1 (-5) true .ne) ∧
    decode 0x80019440#32 = .ok (.shrA 9 0x8001 false .always) ∧
    decode 0x00005476#32 = .ok (.shrL 5 true .le) :=
  by decide
theorem test_decode_and :
    decode 0x00213480#32 = .ok (.andR 3 1 2 false .always) ∧
    decode 0xFFB134B2#32 = .ok (.andI 3 1 (-5) true .ne) ∧
    decode 0x800194C0#32 = .ok (.andA 9 0x8001 false .always) ∧
    decode 0x000054F6#32 = .ok (.andL 5 true .le) :=
  by decide
theorem test_decode_orr :
    decode 0x00213500#32 = .ok (.orrR 3 1 2 false .always) ∧
    decode 0xFFB13532#32 = .ok (.orrI 3 1 (-5) true .ne) ∧
    decode 0x80019540#32 = .ok (.orrA 9 0x8001 false .always) ∧
    decode 0x00005576#32 = .ok (.orrL 5 true .le) :=
  by decide
theorem test_decode_xor :
    decode 0x00213580#32 = .ok (.xorR 3 1 2 false .always) ∧
    decode 0xFFB135B2#32 = .ok (.xorI 3 1 (-5) true .ne) ∧
    decode 0x800195C0#32 = .ok (.xorA 9 0x8001 false .always) ∧
    decode 0x000055F6#32 = .ok (.xorL 5 true .le) :=
  by decide
theorem test_decode_ldr :
    decode 0x02201811#32 = .ok (.ldrR 1 2 1 false true .eq) ∧
    decode 0x81201800#32 = .ok (.ldrR 1 2 (-64) true false .always) ∧
    decode 0x7FF01820#32 = .ok (.ldrI 1 0x7FF false .always) ∧
    decode 0x20001840#32 = .ok (.ldrA 1 0x2000 false .always) ∧
    decode 0x02000860#32 = .ok (.ldrL 0x02000 false .always) :=
  by decide
theorem test_decode_str :
    decode 0xFF201880#32 = .ok (.strR 1 2 (-1) true .always) ∧
    decode 0xFFF048AB#32 = .ok (.strI 4 (-1) .es) ∧
    decode 0x2000F8C0#32 = .ok (.strA 15 0x2000 .always) ∧
    decode 0x020008E0#32 = .ok (.strL 0x02000 .always) :=
  by decide
theorem test_decode_ldh :
    decode 0x00201900#32 = .ok (.ldhR 1 2 false .always) ∧
    decode 0x12301920#32 = .ok (.ldhI 1 0x123 false .always) ∧
    decode 0x80001950#32 = .ok (.ldhA 1 0x8000 true .always) ∧
    decode 0x8000097C#32 = .ok (.ldhL 0x80000 true .ec) :=
  by decide
theorem test_decode_b :
    decode 0x00100E10#32 = .ok (.bR 1 true .always) ∧
    decode 0x00500E20#32 = .ok (.bI 5 false .always) ∧
    decode 0x00050E40#32 = .ok (.bA 5 false .always) ∧
    decode 0x00007E75#32 = .ok (.bL 7 true .lt) ∧
    decode 0x80000E60#32 = .ok (.bL (-524288) false .always) :=
  by decide
theorem test_decode_setf :
    decode 0x00100E90#32 = .ok (.setfR 1 .always) ∧
    decode 0x00C00EB0#32 = .ok (.setfI 0xC .always) ∧
    decode 0x000C0ED1#32 = .ok (.setfA 0xC .eq) ∧
    decode 0x00009EF7#32 = .ok (.setfL 9 .gt) :=
  by decide
theorem test_decode_brk_and_wait :
    decode 0x00000F01#32 = .ok (.brkR .eq) ∧
    decode 0x00B00F00#32 = .ok (.waitT1 .always) ∧
    decode 0x00C00F00#32 = .ok (.waitT2 .always) :=
  by decide
/-- The words of the pseudo-instructions decode to what they stand for. -/
theorem test_decode_pseudo :
    decode 0x00201000#32 = .ok (Instr.movR 1 2 false .always).expand ∧
    decode 0xFFFF1050#32 = .ok (Instr.movA 1 (-1) true .always).expand ∧
    decode 0x00210090#32 = .ok (Instr.cmpR 1 2 .always).expand ∧
    decode 0x00A100B0#32 = .ok (Instr.cmpI 1 10 .always).expand ∧
    decode 0x00000001#32 = .ok (Instr.nopR .eq).expand ∧
    decode 0xFFF125B0#32 = .ok (Instr.notI 2 1 true .always).expand ∧
    decode 0xFFD0E880#32 = .ok (Instr.pushR 14 .always).expand ∧
    decode 0x02D01810#32 = .ok (Instr.popR 1 true .always).expand ∧
    decode 0x00E0F000#32 = .ok (Instr.bxsR 14 .always).expand :=
  by decide
/-- The reserved words of 95 section 2.3, each by its reason. -/
theorem test_decode_refuses :
    decode 0x00211800#32 = .error .firstOperandNotZero ∧
    decode 0x00000600#32 = .error .unassignedOpcode ∧
    decode 0x00000F80#32 = .error .unassignedOpcode ∧
    decode 0x000009C0#32 = .error .unassignedOpcode ∧
    decode 0x01213000#32 = .error .unusedFieldNotZero ∧
    decode 0x00101E00#32 = .error .unusedFieldNotZero ∧
    decode 0x000C1ED0#32 = .error .unusedFieldNotZero ∧
    decode 0x00201890#32 = .error .flagBit ∧
    decode 0x000C0EC0#32 = .error .flagBit ∧
    decode 0x00000F10#32 = .error .flagBit ∧
    decode 0x00500F00#32 = .error .timerSelector ∧
    decode 0x00000F20#32 = .error .formatPairing ∧
    decode 0x0021300D#32 = .error .reservedCondition ∧
    decode 0x0021300E#32 = .error .reservedCondition :=
  by decide
theorem test_decode_odd_words :
    decode 0x0021300F#32 = .ok (.addR 3 1 2 false .never) ∧
    decode 0x01201800#32 = .ok (.ldrR 1 2 0 true false .always) :=
  by decide
theorem test_encode_words :
    encode (.addR 3 1 2 true .ne) = 0x00213012#32 ∧
    encode (.movA 11 60 false .always) = 0x003CB040#32 ∧
    encode (.strR 1 2 127 true .always) = 0xFF201880#32 ∧
    encode (.pushR 14 .always) = 0xFFD0E880#32 ∧
    encode (.popR 1 true .always) = 0x02D01810#32 ∧
    encode (.bL 237 true .always) = 0x000EDE70#32 ∧
    encode (.notI 2 1 false .always) = 0xFFF125A0#32 ∧
    encode (.waitT2 .always) = 0x00C00F00#32 :=
  by decide
theorem test_table_word :
    decodeTableWord 32 0x00213080 = some (.subR 3 1 2 false .always) ∧ decodeTableWord 32 0x00000600 = none :=
  by decide

/-! ## One step of each instruction (95 sections 3 to 7) -/

theorem test_add_positive_overflow :
    gives (stepOn 0x00213010#32 (ready { x1 := 0x7FFFFFFF, x2 := 0x00000001 } [])) (fun t =>
      t.regs.x3 == 0x80000000#32 && t.flags == zf false true true false) = true :=
  by decide
theorem test_sub_overflow :
    gives (stepOn 0x00213090#32 (ready { x1 := 0x80000000, x2 := 0x00000001 } [])) (fun t =>
      t.regs.x3 == 0x7FFFFFFF#32 && t.flags == zf false false true false) = true :=
  by decide
theorem test_sbn_order :
    gives (stepOn 0x00213110#32 (ready { x1 := 0x00000005, x2 := 0x00000003 } [])) (fun t =>
      t.regs.x3 == 0xFFFFFFFE#32 && t.flags == zf false true false false) = true :=
  by decide
theorem test_mul_negative :
    gives (stepOn 0x00213190#32 (ready { x1 := 0xFFFFFFFD, x2 := 0x00000007 } [])) (fun t =>
      t.regs.x3 == 0xFFFFFFEB#32 && t.flags == zf false true false false) = true :=
  by decide
theorem test_div_toward_zero :
    gives (stepOn 0x00213210#32 (ready { x1 := 0xFFFFFFF9, x2 := 0x00000002 } [])) (fun t =>
      t.regs.x3 == 0xFFFFFFFD#32 && t.flags == zf false true false false) = true :=
  by decide
theorem test_mod_sign_of_dividend :
    gives (stepOn 0x00213290#32 (ready { x1 := 0x00000007, x2 := 0xFFFFFFFE } [])) (fun t =>
      t.regs.x3 == 0x00000001#32 && t.flags == zf false false false false) = true :=
  by decide
theorem test_exp_wraps :
    gives (stepOn 0x00213310#32 (ready { x1 := 0x00000003, x2 := 0x00000015 } [])) (fun t =>
      t.regs.x3 == 0x6F7C52B3#32 && t.flags == zf false false false false) = true :=
  by decide
theorem test_shl_thirtyone :
    gives (stepOn 0x00213390#32 (ready { x1 := 0x00000001, x2 := 0x0000001F } [])) (fun t =>
      t.regs.x3 == 0x80000000#32 && t.flags == zf false true false false) = true :=
  by decide
theorem test_shr_sign_extends :
    gives (stepOn 0x00213410#32 (ready { x1 := 0x80000000, x2 := 0x0000001F } [])) (fun t =>
      t.regs.x3 == 0xFFFFFFFF#32 && t.flags == zf false true false false) = true :=
  by decide
theorem test_and_bits :
    gives (stepOn 0x00213490#32 (ready { x1 := 0xF0F0F0F0, x2 := 0xFF00FF00 } [])) (fun t =>
      t.regs.x3 == 0xF000F000#32 && t.flags == zf false true false false) = true :=
  by decide
theorem test_orr_bits :
    gives (stepOn 0x00213510#32 (ready { x1 := 0xF0F0F0F0, x2 := 0xFF00FF00 } [])) (fun t =>
      t.regs.x3 == 0xFFF0FFF0#32 && t.flags == zf false true false false) = true :=
  by decide
theorem test_xor_bits :
    gives (stepOn 0x00213590#32 (ready { x1 := 0xF0F0F0F0, x2 := 0xFF00FF00 } [])) (fun t =>
      t.regs.x3 == 0x0FF00FF0#32 && t.flags == zf false false false false) = true :=
  by decide
theorem test_addi_negative :
    gives (stepOn 0xFFB13020#32 { ready { x1 := 0x00000005 } [] with flags := zf false false true true }) (fun t =>
      t.regs.x3 == 0x00000000#32 && t.flags == zf false false true true) = true :=
  by decide
theorem test_subi :
    gives (stepOn 0x005130A0#32 { ready { x1 := 0x00000003 } [] with flags := zf false false true true }) (fun t =>
      t.regs.x3 == 0xFFFFFFFE#32 && t.flags == zf false false true true) = true :=
  by decide
theorem test_sbni_negates :
    gives (stepOn 0x00013120#32 { ready { x1 := 0x00000007 } [] with flags := zf false false true true }) (fun t =>
      t.regs.x3 == 0xFFFFFFF9#32 && t.flags == zf false false true true) = true :=
  by decide
theorem test_muli :
    gives (stepOn 0xFFD131A0#32 { ready { x1 := 0x00000007 } [] with flags := zf false false true true }) (fun t =>
      t.regs.x3 == 0xFFFFFFEB#32 && t.flags == zf false false true true) = true :=
  by decide
theorem test_divi :
    gives (stepOn 0xFFE13220#32 { ready { x1 := 0x00000007 } [] with flags := zf false false true true }) (fun t =>
      t.regs.x3 == 0xFFFFFFFD#32 && t.flags == zf false false true true) = true :=
  by decide
theorem test_modi :
    gives (stepOn 0x00A132A0#32 { ready { x1 := 0x000004D2 } [] with flags := zf false false true true }) (fun t =>
      t.regs.x3 == 0x00000004#32 && t.flags == zf false false true true) = true :=
  by decide
theorem test_expi :
    gives (stepOn 0x00213320#32 { ready { x1 := 0x00000009 } [] with flags := zf false false true true }) (fun t =>
      t.regs.x3 == 0x00000051#32 && t.flags == zf false false true true) = true :=
  by decide
theorem test_shli :
    gives (stepOn 0x004133A0#32 { ready { x1 := 0xFFFFFFFF } [] with flags := zf false false true true }) (fun t =>
      t.regs.x3 == 0xFFFFFFF0#32 && t.flags == zf false false true true) = true :=
  by decide
theorem test_shri :
    gives (stepOn 0x00413420#32 { ready { x1 := 0xFFFFFFF0 } [] with flags := zf false false true true }) (fun t =>
      t.regs.x3 == 0xFFFFFFFF#32 && t.flags == zf false false true true) = true :=
  by decide
theorem test_andi :
    gives (stepOn 0x0FF134A0#32 { ready { x1 := 0x12345678 } [] with flags := zf false false true true }) (fun t =>
      t.regs.x3 == 0x00000078#32 && t.flags == zf false false true true) = true :=
  by decide
theorem test_orri :
    gives (stepOn 0xFFF13520#32 { ready { x1 := 0x00000001 } [] with flags := zf false false true true }) (fun t =>
      t.regs.x3 == 0xFFFFFFFF#32 && t.flags == zf false false true true) = true :=
  by decide
theorem test_xori :
    gives (stepOn 0xFFF135A0#32 { ready { x1 := 0x12345678 } [] with flags := zf false false true true }) (fun t =>
      t.regs.x3 == 0xEDCBA987#32 && t.flags == zf false false true true) = true :=
  by decide
theorem test_adda_least :
    gives (stepOn 0x80003050#32 (ready { } [])) (fun t =>
      t.regs.x3 == 0xFFFF8000#32 && t.flags == zf false true false false) = true :=
  by decide
theorem test_suba :
    gives (stepOn 0x000530D0#32 (ready { } [])) (fun t =>
      t.regs.x3 == 0xFFFFFFFB#32 && t.flags == zf false true false false) = true :=
  by decide
theorem test_sbna :
    gives (stepOn 0x00053150#32 (ready { } [])) (fun t =>
      t.regs.x3 == 0x00000005#32 && t.flags == zf false false false false) = true :=
  by decide
theorem test_mula :
    gives (stepOn 0x000531D0#32 (ready { } [])) (fun t =>
      t.regs.x3 == 0x00000000#32 && t.flags == zf true false false false) = true :=
  by decide
theorem test_diva :
    gives (stepOn 0x00053250#32 (ready { } [])) (fun t =>
      t.regs.x3 == 0x00000000#32 && t.flags == zf true false false false) = true :=
  by decide
theorem test_moda :
    gives (stepOn 0x000532D0#32 (ready { } [])) (fun t =>
      t.regs.x3 == 0x00000000#32 && t.flags == zf true false false false) = true :=
  by decide
theorem test_expa_zero_to_zero :
    gives (stepOn 0x00003350#32 (ready { } [])) (fun t =>
      t.regs.x3 == 0x00000001#32 && t.flags == zf false false false false) = true :=
  by decide
theorem test_shla :
    gives (stepOn 0x000433D0#32 (ready { } [])) (fun t =>
      t.regs.x3 == 0x00000000#32 && t.flags == zf true false false false) = true :=
  by decide
theorem test_shra :
    gives (stepOn 0x00043450#32 (ready { } [])) (fun t =>
      t.regs.x3 == 0x00000000#32 && t.flags == zf true false false false) = true :=
  by decide
theorem test_anda :
    gives (stepOn 0x000534D0#32 (ready { } [])) (fun t =>
      t.regs.x3 == 0x00000000#32 && t.flags == zf true false false false) = true :=
  by decide
theorem test_orra :
    gives (stepOn 0x80013550#32 (ready { } [])) (fun t =>
      t.regs.x3 == 0xFFFF8001#32 && t.flags == zf false true false false) = true :=
  by decide
theorem test_xora :
    gives (stepOn 0x7FFF35D0#32 (ready { } [])) (fun t =>
      t.regs.x3 == 0x00007FFF#32 && t.flags == zf false false false false) = true :=
  by decide
theorem test_addl_flags_only :
    gives (stepOn 0x80000070#32 { ready { x1 := 0x00000001 } [] with flags := zf false false true true }) (fun t =>
      t.regs == { x1 := 1 } && t.flags == zf false true false false && t.pc == 0x1#32) = true :=
  by decide
theorem test_subl_flags_only :
    gives (stepOn 0x000050F0#32 { ready { x1 := 0x00000001 } [] with flags := zf false false true true }) (fun t =>
      t.regs == { x1 := 1 } && t.flags == zf false true false false && t.pc == 0x1#32) = true :=
  by decide
theorem test_sbnl_flags_only :
    gives (stepOn 0x00005170#32 { ready { x1 := 0x00000001 } [] with flags := zf false false true true }) (fun t =>
      t.regs == { x1 := 1 } && t.flags == zf false false false false && t.pc == 0x1#32) = true :=
  by decide
theorem test_mull_flags_only :
    gives (stepOn 0x000051F0#32 { ready { x1 := 0x00000001 } [] with flags := zf false false true true }) (fun t =>
      t.regs == { x1 := 1 } && t.flags == zf true false false false && t.pc == 0x1#32) = true :=
  by decide
theorem test_divl_flags_only :
    gives (stepOn 0x00005270#32 { ready { x1 := 0x00000001 } [] with flags := zf false false true true }) (fun t =>
      t.regs == { x1 := 1 } && t.flags == zf true false false false && t.pc == 0x1#32) = true :=
  by decide
theorem test_modl_flags_only :
    gives (stepOn 0x000052F0#32 { ready { x1 := 0x00000001 } [] with flags := zf false false true true }) (fun t =>
      t.regs == { x1 := 1 } && t.flags == zf true false false false && t.pc == 0x1#32) = true :=
  by decide
theorem test_expl_flags_only :
    gives (stepOn 0x00005370#32 { ready { x1 := 0x00000001 } [] with flags := zf false false true true }) (fun t =>
      t.regs == { x1 := 1 } && t.flags == zf true false false false && t.pc == 0x1#32) = true :=
  by decide
theorem test_shll_flags_only :
    gives (stepOn 0x000053F0#32 { ready { x1 := 0x00000001 } [] with flags := zf false false true true }) (fun t =>
      t.regs == { x1 := 1 } && t.flags == zf true false false false && t.pc == 0x1#32) = true :=
  by decide
theorem test_shrl_flags_only :
    gives (stepOn 0x00005470#32 { ready { x1 := 0x00000001 } [] with flags := zf false false true true }) (fun t =>
      t.regs == { x1 := 1 } && t.flags == zf true false false false && t.pc == 0x1#32) = true :=
  by decide
theorem test_andl_flags_only :
    gives (stepOn 0x000054F0#32 { ready { x1 := 0x00000001 } [] with flags := zf false false true true }) (fun t =>
      t.regs == { x1 := 1 } && t.flags == zf true false false false && t.pc == 0x1#32) = true :=
  by decide
theorem test_orrl_flags_only :
    gives (stepOn 0x80000570#32 { ready { x1 := 0x00000001 } [] with flags := zf false false true true }) (fun t =>
      t.regs == { x1 := 1 } && t.flags == zf false true false false && t.pc == 0x1#32) = true :=
  by decide
theorem test_xorl_flags_only :
    gives (stepOn 0x000055F0#32 { ready { x1 := 0x00000001 } [] with flags := zf false false true true }) (fun t =>
      t.regs == { x1 := 1 } && t.flags == zf false false false false && t.pc == 0x1#32) = true :=
  by decide
theorem test_add_to_x0 :
    gives (stepOn 0x00210010#32 (ready { x1 := 0x00000001, x2 := 0xFFFFFFFF } [])) (fun t =>
      t.regs == { x1 := 1, x2 := 0xFFFFFFFF } && t.flags == zf true false false false && t.pc == 0x1#32) = true :=
  by decide
theorem test_add_pc_to_pc :
    gives (stepOn 0x001FF000#32 { ready { x1 := 0x00000001 } [] with pc := 0x10 }) (fun t =>
      t.pc == 0x14#32) = true :=
  by decide
/-- The quotient is a free value; `E`, `V` and `pc` are not (R125). -/
theorem test_div_by_zero_sets_e :
    gives (stepOn 0x00213210#32 (ready { x1 := 5 } [])) (fun t => t.flags.e && !t.flags.v && t.pc == 1#32) = true :=
  by decide
theorem test_ldr_pre_decrement :
    gives (stepOn 0xFF201800#32 (ready { x2 := 0x00002001 } [(0x2000, 4)])) (fun t =>
      t.regs.x1 == 0x00000004#32 && t.regs.x2 == 0x00002000#32) = true :=
  by decide
theorem test_ldr_flags :
    gives (stepOn 0x00201810#32 { ready { x2 := 0x00002000 } [(0x2000, 0x80000000)] with flags := zf false false true true }) (fun t =>
      t.regs.x1 == 0x80000000#32 && t.flags == zf false true false false) = true :=
  by decide
theorem test_ldra :
    gives (stepOn 0x20001840#32 (ready { } [(0x2000, 7)])) (fun t =>
      t.regs.x1 == 0x00000007#32 && t.pc == 0x1#32) = true :=
  by decide
theorem test_ldra_into_pc :
    gives (stepOn 0x2000F840#32 (ready { } [(0x2000, 0x40)])) (fun t =>
      t.pc == 0x40#32) = true :=
  by decide
theorem test_ldrl_flags_only :
    gives (stepOn 0x02000870#32 (ready { } [(0x2000, 0)])) (fun t =>
      t.regs == { } && t.flags == zf true false false false) = true :=
  by decide
theorem test_ldri_refused :
    refuses (stepOn 0x7FF01820#32 (ready { } [])) (.loadFromProgramRom 0x7FF) = true :=
  by decide
theorem test_str_pre_decrement :
    gives (stepOn 0xFF201880#32 (ready { x1 := 0x00000008, x2 := 0x00003000 } [])) (fun t =>
      t.mem.read 0x2FFF == 8#32 && t.regs.x2 == 0x00002FFF#32) = true :=
  by decide
theorem test_str_post_increment :
    gives (stepOn 0x02201880#32 (ready { x1 := 0x00000008, x2 := 0x00002000 } [])) (fun t =>
      t.mem.read 0x2000 == 8#32 && t.regs.x2 == 0x00002001#32) = true :=
  by decide
theorem test_stra_pc :
    gives (stepOn 0x2000F8C0#32 { ready { } [] with pc := 0x10 }) (fun t =>
      t.mem.read 0x2000 == 0x13#32) = true :=
  by decide
theorem test_strl_stores_zero :
    gives (stepOn 0x020008E0#32 (ready { } [(0x2000, 5)])) (fun t =>
      t.mem.read 0x2000 == 0#32) = true :=
  by decide
theorem test_stri_faults :
    faults (stepOn 0xFFF018A0#32 (ready { } [])) (.unmappedStore 0xFFFFFFFF) = true :=
  by decide
theorem test_ldhr :
    gives (stepOn 0x00201900#32 (ready { x2 := 0xABCD1234 } [])) (fun t =>
      t.regs.x1 == 0x12340000#32) = true :=
  by decide
theorem test_ldhi :
    gives (stepOn 0x12301920#32 (ready { } [])) (fun t =>
      t.regs.x1 == 0x01230000#32) = true :=
  by decide
theorem test_ldha_flags :
    gives (stepOn 0x80001950#32 (ready { } [])) (fun t =>
      t.regs.x1 == 0x80000000#32 && t.flags == zf false true false false) = true :=
  by decide
theorem test_ldhl_flags_only :
    gives (stepOn 0x08000970#32 (ready { } [])) (fun t =>
      t.regs == { } && t.flags == zf false true false false) = true :=
  by decide
theorem test_br_links :
    gives (stepOn 0x00100E10#32 { ready { x1 := 0x0000000A } [] with pc := 0x10 }) (fun t =>
      t.pc == 0x1D#32 && t.regs.lr == 0x00000011#32) = true :=
  by decide
theorem test_bi :
    gives (stepOn 0x00500E20#32 { ready { } [] with pc := 0x10 }) (fun t =>
      t.pc == 0x18#32) = true :=
  by decide
theorem test_ba :
    gives (stepOn 0x00050E40#32 { ready { lr := 0x00000009 } [] with pc := 0x10 }) (fun t =>
      t.pc == 0x18#32 && t.regs.lr == 0x00000009#32) = true :=
  by decide
theorem test_bl_links :
    gives (stepOn 0x000EDE70#32 { ready { } [] with pc := 0x10 }) (fun t =>
      t.pc == 0x100#32 && t.regs.lr == 0x00000011#32) = true :=
  by decide
theorem test_bl_not_taken :
    gives (stepOn 0x00007E75#32 { ready { lr := 0x00000009 } [] with pc := 0x20 }) (fun t =>
      t.pc == 0x21#32 && t.regs.lr == 0x00000009#32) = true :=
  by decide
theorem test_setfr :
    gives (stepOn 0x00100E90#32 (ready { x1 := 0x12345676 } [])) (fun t =>
      t.flags == zf false true true false) = true :=
  by decide
theorem test_setfi :
    gives (stepOn 0x00C00EB0#32 (ready { } [])) (fun t =>
      t.flags == zf true true false false) = true :=
  by decide
theorem test_setfa :
    gives (stepOn 0x000C0ED0#32 (ready { } [])) (fun t =>
      t.flags == zf true true false false && t.pc == 0x1#32) = true :=
  by decide
theorem test_setfl :
    gives (stepOn 0x00001EF0#32 (ready { } [])) (fun t =>
      t.flags == zf false false false true) = true :=
  by decide
theorem test_brk :
    gives (stepOn 0x00000F00#32 (ready { } [])) (fun t =>
      t.hold == .brk && t.pc == 0x1#32) = true :=
  by decide
theorem test_wait_t1_stops :
    gives (stepOn 0x00B00F00#32 (ready { t1 := 0x00000003 } [])) (fun t =>
      t.hold == .wait .t1 && t.pc == 0x1#32) = true :=
  by decide
theorem test_wait_t1_falls_through :
    gives (stepOn 0x00B00F00#32 (ready { t2 := 0x00000003 } [])) (fun t =>
      t.hold == .running && t.pc == 0x1#32) = true :=
  by decide
theorem test_wait_t2_stops :
    gives (stepOn 0x00C00F00#32 (ready { t1 := 0x00000005, t2 := 0x00000001 } [])) (fun t =>
      t.hold == .wait .t2) = true :=
  by decide
theorem test_never :
    gives (stepOn 0x0021300F#32 (ready { x1 := 0x00000001, x2 := 0x00000002, x3 := 0x00000009 } [])) (fun t =>
      t.regs.x3 == 0x00000009#32 && t.pc == 0x1#32) = true :=
  by decide
theorem test_never_on_reserved_opcode :
    gives (stepOn 0x0000060F#32 (ready { } [])) (fun t =>
      t.pc == 0x1#32) = true :=
  by decide

/-! ## The pseudo-instructions as constructors -/

theorem test_mov_register :
    gives (exec (.movR 1 2 false .always) (ready { x2 := 0x00000007 } [])) (fun t =>
      t.regs.x1 == 0x00000007#32) = true :=
  by decide
theorem test_mov_immediate :
    gives (exec (.movA 1 (-1) true .always) (ready { } [])) (fun t =>
      t.regs.x1 == 0xFFFFFFFF#32 && t.flags == zf false true false false) = true :=
  by decide
theorem test_cmp_register :
    gives (exec (.cmpR 1 2 .always) (ready { x1 := 0x80000000, x2 := 0x00000001 } [])) (fun t =>
      t.flags == zf false false true false && t.regs == { x1 := 0x80000000, x2 := 1 }) = true :=
  by decide
theorem test_cmp_immediate :
    gives (exec (.cmpI 1 10 .always) (ready { x1 := 0x0000000A } [])) (fun t =>
      t.flags == zf true false false false) = true :=
  by decide
theorem test_nop :
    gives (exec (.nopR .always) (ready { x1 := 0x00000001 } [])) (fun t =>
      t == { ready { x1 := 1 } [] with pc := 1 }) = true :=
  by decide
theorem test_not :
    gives (exec (.notI 2 1 false .always) (ready { x1 := 0x12345678 } [])) (fun t =>
      t.regs.x2 == 0xEDCBA987#32) = true :=
  by decide
theorem test_push :
    gives (exec (.pushR 1 .always) (ready { x1 := 0x00000009, sp := 0x00004000 } [])) (fun t =>
      t.mem.read 0x3FFF == 9#32 && t.regs.sp == 0x00003FFF#32) = true :=
  by decide
theorem test_pop_pc :
    gives (exec (.popR 15 false .always) (ready { sp := 0x00003FFF } [(0x3FFF, 0x12)])) (fun t =>
      t.pc == 0x12#32 && t.regs.sp == 0x00004000#32) = true :=
  by decide
theorem test_pops :
    gives (exec (.popR 1 true .always) (ready { x1 := 0x00000005, sp := 0x00003FFF } [(0x3FFF, 0)])) (fun t =>
      t.regs.x1 == 0x00000000#32 && t.flags == zf true false false false && t.regs.sp == 0x00004000#32) = true :=
  by decide
theorem test_b_register :
    gives (exec (.bxsR 14 .always) (ready { lr := 0x00000003 } [])) (fun t =>
      t.pc == 0x3#32) = true :=
  by decide

/-! ## Refused accesses, devices, agents (95 sections 5 and 7) -/

theorem test_refused_accesses :
    refuses (stepOn 0x00001840#32 (ready { } [])) (.loadFromProgramRom 0) = true ∧
    refuses (stepOn 0x100018C0#32 (ready { } [])) (.storeToRom 0x1000) = true ∧
    faults (stepOn 0x4C001840#32 (ready { } [])) (.unmappedLoad 0x4C00) = true ∧
    faults (stepOn 0xFFFF1840#32 (ready { } [])) (.unmappedLoad 0xFFFFFFFF) = true ∧
    refuses (stepOn 0x02D0D800#32 (ready { } [])) .writebackSameRegister = true ∧
    refuses (stepOn 0x02F01800#32 (ready { } [])) .writebackToPc = true ∧
    refuses (stepOn 0x00211800#32 (ready { } [])) (.reservedWord .firstOperandNotZero) = true :=
  by decide
theorem test_device_store :
    gives (stepOn 0x400018C0#32 (ready { x1 := 0x00000001 } [])) (fun t =>
      t.devTrace == [.write 0x4000 1] && t.regs == { x1 := 1 }) = true :=
  by decide
theorem test_device_load :
    exec (.ldrA 1 0x4400 false .always) (ready { } []) =
      .next { ready { x1 := Config.deviceRead [] 0x4400 } [] with
        pc := 1, devTrace := [.read 0x4400 (Config.deviceRead [] 0x4400)] } :=
  rfl
theorem test_unwritten_word_is_free :
    exec (.ldrA 1 0x3FFF false .always) (ready { } []) =
      .next { ready { x1 := Config.unwritten 0x3FFF } [] with pc := 1 } :=
  rfl
theorem test_tick_counts :
    tick (ready { t1 := 1, t2 := 0x7FFFFFFF } []) = ready { t1 := 0, t2 := 0x7FFFFFFE } [] :=
  by decide
theorem test_tick_stays_at_zero : tick (ready { t1 := 1, t2 := 0 } []) = ready { } [] := by decide
theorem test_tick_ends_wait :
    tick { ready { t1 := 5, t2 := 1 } [] with hold := .wait .t2 } = ready { t1 := 4, t2 := 0 } [] :=
  by decide
theorem test_restart_of_brk :
    step (moves [.restart] { ready { } [] with hold := .brk }) = .next (moves [] (ready { } [])) :=
  rfl
theorem test_restart_leaves_timer :
    step (moves [.restart] { ready { t1 := 7 } [] with hold := .wait .t1 }) = .next (moves [] (ready { t1 := 7 } [])) :=
  rfl
/-- A tick comes while the core runs. -/
theorem test_tick_while_running :
    step (moves [.tick, .core] (ready { t1 := 7 } [])) = .next (moves [.core] (ready { t1 := 6 } [])) :=
  rfl
/-- Who moves first after reset is open: whoever is first in the free list, or the tick after it. -/
theorem test_first_move_is_free : State.reset.schedule.moves = Config.agendaAfter 0 ++ [.tick] := rfl
theorem test_fetch_outside_is_nop :
    gives (step { ready { x1 := 1 } [(0x2000, 0x00000F00)] with pc := 0x2000 }) (fun t =>
      t.hold == .running && t.pc == 0x2001#32) = true :=
  by decide
theorem test_reset_wf : State.reset.mem.wf = true := by decide
theorem test_memory_wf :
    Memory.wf [(0, 1), (0x1000, 0), (0x3FFF, 0)] = true ∧ Memory.wf [(0, 0)] = false ∧
    Memory.wf [(0x4000, 1)] = false ∧ Memory.wf [(2, 1), (1, 1)] = false ∧ Memory.wf [(1, 1), (1, 2)] = false :=
  by decide
theorem test_writing_the_default_removes :
    Memory.write [(0, 1), (5, 2)] 0 0 = [(5, 2)] ∧ Memory.write [(5, 2)] 0x2000 0 = [(5, 2), (0x2000, 0)] :=
  by decide
theorem test_region_bounds :
    regionOf 0x0 = .programRom ∧ regionOf 0xFFF = .programRom ∧
    regionOf 0x1000 = .dataRom ∧ regionOf 0x1FFF = .dataRom ∧
    regionOf 0x2000 = .ram ∧ regionOf 0x3FFF = .ram ∧
    regionOf 0x4000 = .gpio ∧ regionOf 0x43FF = .gpio ∧
    regionOf 0x4400 = .vram ∧ regionOf 0x4BFF = .vram ∧
    regionOf 0x4C00 = .unused ∧ regionOf 0x4FFF = .unused ∧
    regionOf 0x5000 = .outside ∧ regionOf 0xFFFFFFFF = .outside :=
  by decide
theorem test_boot_places :
    (bootWith [1, 0, 3] [10, 0]).mem = [(0, 1), (2, 3), (0x1000, 10), (0x1001, 0)] :=
  by decide
/-- The data of program P3 of 95_test_vectors.md. -/
theorem test_data_constants :
    Assembler.dataImage [.var [10], .array [20, 0xFFFFFFFF]] = [10, 20, 0xFFFFFFFF] ∧
    Assembler.Constant.datalen.value [.var [10], .array [20, 0xFFFFFFFF]] = 3 ∧
    Assembler.Constant.datastart.value [] = 0x1000 ∧ Assembler.Constant.ramstart.value [] = 0x2000 ∧
    Assembler.initialAddr [] 2 = 0x1002 ∧ Assembler.variableAddr [] 2 = 0x2002 :=
  by decide
theorem test_assemble_label :
    Assembler.assembleWord (.b true .always (Assembler.labelOffset 0x10 0x100)) = some 0x000EDE70#32 ∧
    Assembler.assembleWord (.alu .add false .always 3 1 (.imm (-5))) = some 0xFFB13020#32 ∧
    Assembler.assembleWord (.ldr (some .ia) true .eq 1 (.reg 2)) = some 0x02201811#32 ∧
    Assembler.assembleWord (.ldh false .always 1 0xFFFF) = some 0xFFFF1940#32 :=
  by decide
theorem test_assemble_text : Assembler.text (.ldr (some .ia) true .eq 1 (.reg 2)) = "ldriaseq x1 x2" := by decide

/-! ## The hypotheses of the statements can be met -/

theorem test_witness_PseudoIsItsTranslation :
    (Instr.pushR 14 .eq, Instr.strR 14 13 (-1) true .eq) ∈
    [(Instr.movR 14 0 false .eq, Instr.addR 14 0 0 false .eq), (.pushR 14 .eq, .strR 14 13 (-1) true .eq)] :=
  by decide
theorem test_witness_ReservedAluWordsWriteFlagsOnly :
    condHolds .always State.reset.flags = true ∧ (0xFFF80000 : Word) = BitVec.signExtend 32 (0x80000 : BitVec 20) ∧
    (0 : Word) = BitVec.signExtend 32 (0 : BitVec 20) ∧ (0x1F : Word) = BitVec.signExtend 32 (0x1F : BitVec 20) ∧
    (0x20 : Word) = BitVec.signExtend 32 (0x20 : BitVec 20) :=
  by decide
theorem test_witness_EncodeOfDecodeIsTheWord : decode 0x02201811#32 = .ok (.ldrR 1 2 1 false true .eq) := by decide
theorem test_witness_UnassignedOpcodesAreRefused :
    opField 0x00000600#32 = 12 ∧
    condField 0x00000600#32 = 0 ∧
    (ready { } [(0, 0x00000600)]).turn = .core ∧
    (ready { } [(0, 0x00000600)]).hold = .running ∧
    fetch [(0, 0x00000600)] 0 = 0x00000600 ∧
    opField 0x00000F8C#32 = 31 ∧
    condField 0x00000F8C#32 = 12 :=
  by decide
/-- A state in which the core runs one reserved word, for every statement about such words. -/
theorem test_witness_RefusedByCore :
    (ready { } [(0, 0x00211800)]).turn = .core ∧ (ready { } [(0, 0x00211800)]).hold = .running ∧
    fetch [(0, 0x00211800)] 0 = 0x00211800 ∧ condField 0x00211800#32 ≠ 15 ∧ condField 0x00211800#32 ≠ 13 ∧
    condField 0x00211800#32 ≠ 14 ∧ condField 0x0000000D#32 = 13 ∧ condField 0xFFFFFFFE#32 = 14 :=
  by decide
theorem test_witness_NonzeroFirstOperandIsRefused :
    opField 0x00211800#32 = 16 ∧ fmtField 0x00211800#32 = 0 ∧ rField 0x00211800#32 = 1 ∧
    opField 0x000F0920#32 = 18 ∧ fmtField 0x000F0920#32 = 1 ∧ rField 0x000F0920#32 = 15 :=
  by decide
theorem test_witness_UnusedFieldsAndBitFourAreChecked :
    opField 0x01213000#32 = 0 ∧
    fmtField 0x01213000#32 = 0 ∧
    eField 0x01213000#32 = 1 ∧
    opField 0x80000900#32 = 18 ∧
    fmtField 0x80000900#32 = 0 ∧
    eField 0x80000900#32 = 128 ∧
    opField 0x00101E00#32 = 28 ∧
    fmtField 0x00101E00#32 = 0 ∧
    dField 0x00101E00#32 = 1 ∧
    opField 0x00080EB0#32 = 29 ∧
    fmtField 0x00080EB0#32 = 1 ∧
    rField 0x00080EB0#32 = 8 ∧
    opField 0x000C1ED0#32 = 29 ∧
    fmtField 0x000C1ED0#32 = 2 ∧
    dField 0x000C1ED0#32 = 1 ∧
    opField 0x00201890#32 = 17 ∧
    flagField 0x00201890#32 = true ∧
    opField 0x000C0EC0#32 = 29 ∧
    flagField 0x000C0EC0#32 = false ∧
    opField 0x00500F00#32 = 30 ∧
    fmtField 0x00500F00#32 = 0 ∧
    sField 0x00500F00#32 = 5 ∧
    opField 0x00000F20#32 = 30 ∧
    fmtField 0x00000F20#32 = 1 :=
  by decide
theorem test_witness_FalseConditionOnlyAdvances :
    condHolds (Instr.condOf (.brkR .eq)) State.reset.flags = false ∧
    condHolds (Instr.condOf (.ldrI 1 0 false .never)) State.reset.flags = false ∧
    condHolds (Instr.condOf (.addL 5 true .es)) State.reset.flags = false :=
  by decide
theorem test_witness_NeverConditionIsNop :
    (ready { } [(0, 0x0000060F)]).turn = .core ∧
    (ready { } [(0, 0x0000060F)]).hold = .running ∧
    condField (fetch [(0, 0x0000060F)] 0) = 15 ∧
    condField (fetch [(0, 0xFFFFFFFF)] 0) = 15 :=
  by decide
/-- Both forms, at the most negative operand. -/
theorem test_witness_CompareThenConditions :
    condHolds .always State.reset.flags = true ∧
    (ready { x1 := 0x80000000, x2 := 1 } []).readReg 1 = 0x80000000 ∧
    (ready { x1 := 0x80000000, x2 := 1 } []).readReg 2 = 1 ∧
    BitVec.signExtend 32 0x800#12 = 0xFFFFF800#32 :=
  by decide
theorem test_witness_OnlyFlagWritersChangeFlags :
    exec (.bL 0 true .always) State.reset = .next { State.reset with pc := 3, regs := { lr := 1 } } ∧
    (Instr.bL 0 true .always).writesFlags = false :=
  ⟨rfl, rfl⟩
theorem test_witness_OnlyNamedRegistersChange :
    exec (.addA 3 5 false .always) State.reset = .next { State.reset with pc := 1, regs := { x3 := 5 } } ∧
    (4 : Reg) ∉ (Instr.addA 3 5 false .always).regsWritten :=
  ⟨rfl, by decide⟩
theorem test_witness_OnlyTheStoredWordChanges :
    exec (.strA 0 0x2000 .always) State.reset = .next { State.reset with pc := 1, mem := [(0x2000, 0)] } ∧
    (Instr.strA 0 0x2000 .always).storeAddr State.reset = some 0x2000 ∧ (0x1FFF : Nat) ≠ (0x2000 : Word).toNat ∧
    (0x2001 : Nat) ≠ (0x2000 : Word).toNat :=
  ⟨rfl, rfl, by decide, by decide⟩
theorem test_witness_OnlyListedTransfersLeaveTheLine :
    exec (.brkR .always) State.reset = .next { State.reset with pc := 1, hold := .brk } ∧
    (Instr.brkR .always).isBranch = false ∧ (15 : Reg) ∉ (Instr.brkR .always).regsWritten ∧
    exec (.bL 5 true .eq) State.reset = .next { State.reset with pc := 1 } ∧
    condHolds (Instr.bL 5 true .eq).condOf State.reset.flags = false :=
  ⟨rfl, rfl, by decide, rfl, rfl⟩
theorem test_witness_OnlyStopsAndDevicesTouchTheRest :
    exec (.strA 0 0x4BFF .always) State.reset =
      .next { State.reset with pc := 1, devTrace := [.write 0x4BFF 0] } ∧ (Instr.strA 0 0x4BFF .always).stopsClock = false :=
  ⟨rfl, rfl⟩
theorem test_witness_EveryAdmittedInstructionCompletes :
    (Instr.ldrR 1 2 63 false true .always).wellFormed = true ∧
    (Instr.ldrR 1 2 63 false true .always).loadAddr (ready { x2 := 0x1000 } []) = some 0x1000 ∧ isReadable 0x1000 ∧
    isReadable 0x3FFF ∧ isDevice 0x4000 ∧ isDevice 0x4BFF ∧
    (Instr.pushR 1 .always).storeAddr (ready { sp := 0x4000 } []) = some 0x3FFF ∧ regionOf 0x3FFF = .ram :=
  by unfold isReadable isDevice; decide
theorem test_witness_StepRunsTheDecodedInstruction :
    (ready { } [(0, 0x00000F00)]).turn = .core ∧
    (ready { } [(0, 0x00000F00)]).hold = .running ∧
    decode (fetch [(0, 0x00000F00)] 0) = .ok (.brkR .always) :=
  by decide
theorem test_witness_InvalidFetchDoesNothing :
    (ready { } []).turn = .core ∧
    (ready { } []).hold = .running ∧
    0x1000 ≤ (0x1000 : Word).toNat ∧
    ∀ cell ∈ [((0xFFE : Nat), (1 : Word))], cell.1 ≠ (0xFFF : Word).toNat :=
  by decide
theorem test_witness_StoppedClockChangesOnlyTimers :
    (moves [.core] { State.reset with hold := .brk }).hold ≠ .running ∧
    (moves [.core] { State.reset with hold := .brk }).turn ≠ .restart ∧
    (moves [.restart] { State.reset with hold := .wait .t2 }).hold ≠ .running ∧
    (moves [.restart] { State.reset with hold := .wait .t2 }).turn = .restart :=
  by decide
theorem test_witness_TickCountsBothTimers :
    (moves [.tick] State.reset).turn = .tick ∧ 0 < (0x7FFFFFFF#32).toInt ∧ (0x80000000#32).toInt < 0 :=
  by decide
theorem test_witness_RestartChangesOnlyHold :
    (moves [.restart] State.reset).turn = .restart :=
  by decide
theorem test_witness_WaitEndsAfterExactlyItsTicks :
    (moves [.tick, .core, .core, .restart] { ready { t1 := 3 } [] with hold := .wait .t1 }).hold = .wait .t1 ∧
    HostKeepsAway 3 (moves [.tick, .core, .core, .restart] { ready { t1 := 3 } [] with hold := .wait .t1 }) ∧
    ((moves [.tick, .core, .core, .restart] { ready { t1 := 3 } [] with hold := .wait .t1 }).timer .t1).toNat = 3 ∧
    0 < (3#32).toInt ∧ 0 < (0x7FFFFFFF#32).toInt :=
  by unfold HostKeepsAway; decide
theorem test_witness_StepKeepsTheInvariant :
    Inv (moves [.core] State.reset) ∧ step (moves [.core] State.reset) = .next { State.reset with pc := 1 } :=
  ⟨⟨rfl, by rintro t ⟨⟩⟩, rfl⟩
theorem test_witness_RomsNeverChange :
    Sys2Proof.core.run 1 (moves [.core] State.reset) = .next { State.reset with pc := 1 } ∧
    0x1FFF < 0x2000 :=
  ⟨rfl, by decide⟩
theorem test_witness_DeviceHistoryOnlyGrows :
    Sys2Proof.core.run 1 (moves [.core] (ready { } [(0, 0x400008C0)])) =
      .next { moves [] (ready { } [(0, 0x400008C0)]) with pc := 1, devTrace := [.write 0x4000 0] } :=
  rfl
/-- The clauses about one step: a store at the first device address, a load at the last. -/
theorem test_witness_DeviceHistoryOnlyGrows_step :
    (ready { } [(0, 0x400008C0)]).turn = .core ∧ (ready { } [(0, 0x400008C0)]).hold = .running ∧
    decode (fetch [(0, 0x400008C0)] 0) = .ok (.strA 0 0x4000 .always) ∧ (Instr.strA 0 0x4000 .always).wellFormed = true ∧
    condHolds (Instr.strA 0 0x4000 .always).condOf State.reset.flags = true ∧ isDevice 0x4000 ∧
    (Instr.strA 0 0x4000 .always).storeAddr State.reset = some 0x4000 ∧
    decode (fetch [(0, 0x4BFF1840)] 0) = .ok (.ldrA 1 0x4BFF false .always) ∧ isDevice 0x4BFF ∧
    (Instr.ldrA 1 0x4BFF false .always).loadAddr State.reset = some 0x4BFF :=
  by unfold isDevice; decide
theorem test_witness_BootPlacesTheImages :
    ([0x00000F00#32] : List Word).length ≤ 4096 ∧ (List.replicate 4096 0#32).length ≤ 4096 ∧ (0xFFF : Word).toNat < 4096 ∧
    Assembler.dataImage [.array (List.replicate 4096 0#32)] = List.replicate 4096 0#32 :=
  ⟨by decide, le_of_eq List.length_replicate, by decide, List.append_nil _⟩
theorem test_witness_RegisterFileReadsAndWrites :
    (1 : Reg) ≠ 0 ∧ (1 : Reg) ≠ 15 ∧ (14 : Reg) ≠ 0 ∧ (14 : Reg) ≠ 15 ∧ (15 : Reg) ≠ 14 :=
  by decide
/-- The hypothesis of every statement that asks only for a condition that holds: `AddIsTheWrappedSum`,
`SubAndSbnAreTheWrappedDifferences`, `MulIsTheLowProduct`, `DivTruncatesAndFlagsZeroDivisor`, `ModIsTheTruncatingRemainder`,
`ExpIsTheWrappedPower`, `ShlMultipliesByAPowerOfTwo`, `ShrDividesByAPowerOfTwo`, `LogicIsBitByBit`,
`MovCopiesAndNotComplements`, `NopAndBranchToRegister`, `LdhMovesTheLowHalfUp`, `BranchAddsTheOffsetAndLinks`,
`SetfWritesTheLowFourBits`, `BrkAndWaitStopTheClock`. -/
theorem test_witness_condition_holds :
    condHolds .always State.reset.flags = true ∧ condHolds .ge State.reset.flags = true ∧
    condHolds .es (zf true true true true) = true :=
  by decide
/-- Operands for each branch of the quotient and the remainder. -/
theorem test_witness_DivTruncatesAndFlagsZeroDivisor :
    (0x80000000#32).toInt = -2147483648 ∧ (0xFFFFFFFF#32).toInt = -1 ∧ (0xFFFFFFF9#32).toInt < 0 ∧ ¬(7#32).toInt < 0 :=
  by decide
theorem test_witness_QuotientAndRemainderRebuild :
    (0xFFFFFFFF : Word) ≠ 0 ∧ ¬((0x80000001 : Word) = 0x80000000 ∧ (0xFFFFFFFF : Word) = 0xFFFFFFFF) ∧
    (0x80000000 : Word) ≠ 0 :=
  by decide
/-- Both sides of the amounts of `ShlMultipliesByAPowerOfTwo` and `ShrDividesByAPowerOfTwo`. -/
theorem test_witness_shift_amounts :
    (31#32).toNat ≤ 31 ∧ ¬(32#32).toNat ≤ 31 ∧ ¬(0xFFFFFFFF#32).toNat ≤ 31 :=
  by decide
/-- Both sides of the exponents of `ExpIsTheWrappedPower`. -/
theorem test_witness_exponents :
    0 ≤ (0#32).toInt ∧ 0 ≤ (0x7FFFFFFF#32).toInt ∧ ¬0 ≤ (0x80000000#32).toInt :=
  by decide
/-- Each clause, at the bounds of what is readable. -/
theorem test_witness_LdrLoadsTheWord :
    condHolds .always State.reset.flags = true ∧ ((1 : BitVec 7) = 0 ∨ ((1 : Reg) ≠ 2 ∧ (2 : Reg) ≠ 15)) ∧
    (ready { x2 := 0x2040 } []).readReg 2 + BitVec.signExtend 32 (-64 : BitVec 7) = 0x2000 ∧ isReadable 0x2000 ∧
    (ready { x2 := 0x1FFF } []).readReg 2 = 0x1FFF ∧ isReadable 0x1FFF ∧
    isReadable (BitVec.signExtend 32 (0x1000 : BitVec 16)) ∧ isReadable (BitVec.signExtend 32 (0x03FFF : BitVec 20)) :=
  by unfold isReadable; decide
theorem test_witness_LdrFromDeviceTakesTheOraclesWord :
    condHolds .always State.reset.flags = true ∧ ((0 : BitVec 7) = 0 ∨ ((15 : Reg) ≠ 15 ∧ (15 : Reg) ≠ 15)) ∧
    ({ State.reset with pc := 0x3FFD } : State).readReg 15 = 0x4000 ∧ isDevice 0x4000 ∧
    isDevice (BitVec.signExtend 32 (0x4400 : BitVec 16)) ∧ isDevice (BitVec.signExtend 32 (0x04BFF : BitVec 20)) :=
  by unfold isDevice; decide
theorem test_witness_StrStoresTheWord :
    condHolds .always State.reset.flags = true ∧ ((127 : BitVec 7) = 0 ∨ ((1 : Reg) ≠ 2 ∧ (2 : Reg) ≠ 15)) ∧
    regionOf (accessAddr ((ready { x2 := 0x4000 } []).readReg 2) 127 true) = .ram ∧
    regionOf (imm16 0x2000) = .ram ∧ regionOf (imm20 0x03FFF) = .ram :=
  by decide
theorem test_witness_StrToDeviceIsAnOutputEvent :
    condHolds .always State.reset.flags = true ∧ ((1 : BitVec 7) = 0 ∨ ((1 : Reg) ≠ 2 ∧ (2 : Reg) ≠ 15)) ∧
    isDevice (accessAddr ((ready { x2 := 0x43FF } []).readReg 2) 1 true) ∧
    isDevice (imm16 0x4000) ∧ isDevice (imm20 0x04BFF) :=
  by unfold isDevice; decide
theorem test_witness_ITypeAccessesAlwaysStop :
    condHolds .always State.reset.flags = true ∧ 0 ≤ (0x7FF#12).toInt ∧ 0 ≤ (0#12).toInt ∧ (0x800#12).toInt < 0 ∧
    (0xFFF#12).toInt < 0 :=
  by decide
theorem test_witness_UnspecifiedAccessesStop :
    (Instr.ldrA 1 0x0FFF false .always).wellFormed = true ∧
    condHolds (Instr.ldrA 1 0x0FFF false .always).condOf State.reset.flags = true ∧
    (Instr.ldrA 1 0x0FFF false .always).loadAddr State.reset = some 0xFFF ∧
    (Instr.ldrA 1 0x4C00 false .always).loadAddr State.reset = some 0x4C00 ∧
    (Instr.strL 0x01FFF .always).storeAddr State.reset = some 0x1FFF ∧
    (Instr.pushR 1 .always).storeAddr State.reset = some 0xFFFFFFFF ∧
    (Instr.ldrA 1 0x1000 false .always).loadAddr State.reset = some 0x1000 ∧
    (Instr.ldrL 0x03FFF false .always).loadAddr State.reset = some 0x3FFF ∧
    (Instr.ldrA 1 0x4000 false .always).loadAddr State.reset = some 0x4000 ∧
    (Instr.ldrL 0x04BFF false .always).loadAddr State.reset = some 0x4BFF ∧
    (Instr.strA 1 0x2000 .always).storeAddr State.reset = some 0x2000 ∧
    (Instr.strL 0x03FFF .always).storeAddr State.reset = some 0x3FFF ∧
    (Instr.strA 1 0x4000 .always).storeAddr State.reset = some 0x4000 ∧
    (Instr.strL 0x04BFF .always).storeAddr State.reset = some 0x4BFF ∧
    (Instr.strL 0x04C00 .always).storeAddr State.reset = some 0x4C00 :=
  by decide
theorem test_witness_WritebackConflictsAreRefused :
    condHolds .always State.reset.flags = true ∧ (1 : BitVec 7) ≠ 0 ∧ (14 : Reg) ≠ 15 ∧ (0 : Reg) ≠ 15 :=
  by decide
theorem test_witness_LoadReturnsTheLatestStore :
    exec (.strA 0 0x2000 .always) (ready { x2 := 0x3FFF } []) =
      .next { ready { x2 := 0x3FFF } [(0x2000, 0)] with pc := 1 } ∧
    (Instr.strA 0 0x2000 .always).wellFormed = true ∧
    condHolds (Instr.strA 0 0x2000 .always).condOf State.reset.flags = true ∧
    (Instr.strA 0 0x2000 .always).storeAddr (ready { x2 := 0x3FFF } []) = some 0x2000 ∧ regionOf 0x2000 = .ram ∧
    (Instr.ldrR 1 2 1 false true .always).wellFormed = true ∧
    condHolds (Instr.ldrR 1 2 1 false true .always).condOf State.reset.flags = true ∧
    (Instr.ldrR 1 2 1 false true .always).loadAddr { ready { x2 := 0x3FFF } [(0x2000, 0)] with pc := 1 } = some 0x3FFF ∧
    regionOf 0x3FFF = .ram ∧ (Instr.ldrR 1 2 1 false true .always).loadDest = some 1 ∧ (1 : Reg) ≠ 0 ∧ (1 : Reg) ≠ 15 ∧
    (Instr.ldrL 0x02000 true .always).loadAddr { ready { x2 := 0x3FFF } [(0x2000, 0)] with pc := 1 } = some 0x2000 ∧
    (Instr.ldrL 0x02000 true .always).loadDest = some 0 ∧ (Instr.popR 15 true .always).loadDest = some 15 :=
  ⟨rfl, by decide⟩
theorem test_witness_ThreeInstructionsBuildAConstant :
    (1 : Reg) ≠ 0 ∧ (1 : Reg) ≠ 15 ∧ (2 : Reg) ≠ 0 ∧ (2 : Reg) ≠ 15 ∧ (1 : Reg) ≠ 2 :=
  by decide
theorem test_witness_PushStoresBelowTheStackPointer :
    condHolds .always State.reset.flags = true ∧ (15 : Reg) ≠ 13 ∧ regionOf ((ready { sp := 0x4000 } []).regs.sp - 1) = .ram ∧
    regionOf ((ready { sp := 0x2001 } []).regs.sp - 1) = .ram :=
  by decide
theorem test_witness_PopLoadsAtTheStackPointer :
    condHolds .always State.reset.flags = true ∧ (15 : Reg) ≠ 13 ∧ isReadable (ready { sp := 0x3FFF } []).regs.sp ∧
    isReadable (ready { sp := 0x1000 } []).regs.sp :=
  by unfold isReadable; decide
theorem test_witness_PushThenPopRestores :
    (0 : Reg) ≠ 13 ∧ (14 : Reg) ≠ 13 ∧ (14 : Reg) ≠ 15 ∧ regionOf ((ready { sp := 0x4000 } []).regs.sp - 1) = .ram :=
  by decide
theorem test_witness_AssembledBranchReachesItsLabel :
    condHolds .always State.reset.flags = true ∧ State.reset.pc.toNat < 4096 ∧ (0xFFF : Word).toNat < 4096 :=
  by decide

end Sys2Proof.Tests
end

section
/-! The dispatch of the core (spec/00_scope.md R8). -/
namespace Sys2Proof.Proofs
open Sys2Proof Sys2Proof.Machine

/-- On a word that decodes, a core step is `exec` of the instruction, with no `pc` update of its own (R8). -/
theorem coreStep_of_decode {s : State} {i : Instr} (hd : decode (fetch s.mem s.pc) = .ok i) : coreStep s = exec i s := by
  simp only [coreStep, hd]

/-- Settles O17: the core's turn is a core step (`step_of_core`), and taking the turn moves neither memory nor `pc`, so
that step fetches the same word. -/
theorem stepRunsTheDecodedInstruction : Obligations.StepRunsTheDecodedInstruction := by
  intro s i hturn hrunning hdecode
  have hfetched : decode (fetch s.takeTurn.mem s.takeTurn.pc) = .ok i := by
    rwa [State.takeTurn_mem, State.takeTurn_pc]
  calc step s = coreStep s.takeTurn := step_of_core hturn hrunning
    _ = exec i s.takeTurn := coreStep_of_decode hfetched

end Sys2Proof.Proofs
end
section
/-!
The state and the agents (spec/10_state.md R10 to R26): what an instruction leaves unchanged, what a tick and a restart do,
and the invariant of every step. Everything about an instruction comes from `exec_next`, which lists the ways one can end.
-/
namespace Sys2Proof.Proofs
open Sys2Proof Sys2Proof.Machine

/-! ## The register file -/

/-- A write to another register than `x15` is seen by no other register: `x15` reads as a view of `pc`, which only a write
to `x15` sets (R15, R16). -/
theorem readReg_writeReg_of_ne (s : State) {r q : Reg} (v : Word) (hr : r ≠ 15#4) (hq : q ≠ r) :
    (s.writeReg r v).readReg q = s.readReg q := by
  by_cases h15 : q = 15#4
  · subst h15; simp [hr]
  · rw [State.readReg_of_ne h15, State.readReg_of_ne h15, State.writeReg_get]
    simp [hq]

/-- A register that holds a value reads what was last written (R12, R13). -/
theorem readReg_writeReg_self (s : State) {r : Reg} (v : Word) (h0 : r ≠ 0#4) (h15 : r ≠ 15#4) :
    (s.writeReg r v).readReg r = v := by
  rw [State.readReg_of_ne h15, State.writeReg_get]
  simp [h0, h15]

/-- A write to `x15` is the address of the next instruction and nothing else (R16). -/
theorem writeReg_fifteen (s : State) (v : Word) : s.writeReg 15#4 v = { s with pc := v } := rfl

/-- Settles O29: `x0` and `x15` by their own equations, the other registers by reading after writing. -/
theorem registerFileReadsAndWrites : Obligations.RegisterFileReadsAndWrites := by
  intro s v
  refine ⟨State.readReg_zero s, State.writeReg_zero s v, State.readReg_fifteen s, writeReg_fifteen s v,
    fun r h0 h15 => ⟨readReg_writeReg_self s v h0 h15, fun q hq => readReg_writeReg_of_ne s v h15 hq, ?_, ?_, ?_⟩⟩
  · exact State.writeReg_flags s r v
  · exact State.writeReg_hold s r v
  · exact State.writeReg_mem s r v

/-! ## What an instruction leaves unchanged -/

/-- A load changes no field but the history of device accesses (R48). -/
theorem loadedFrom_changes_only_devTrace {i : Instr} {s s' : State} (h : LoadedFrom i s s') :
    ∃ history, s' = { s with devTrace := history } := by
  cases h with
  | plain => exact ⟨s.devTrace, rfl⟩
  | device => exact ⟨_, rfl⟩

/-- A store changes no field but memory and the history of device accesses (R48, R49). -/
theorem storedTo_changes_only_memory {i : Instr} {s s' : State} (h : StoredTo i s s') :
    ∃ m history, s' = { s with mem := m, devTrace := history } := by
  cases h with
  | ram => exact ⟨_, s.devTrace, rfl⟩
  | device => exact ⟨s.mem, _, rfl⟩

/-- Settles O11: of the ways an instruction ends, only a result with bit 4 set and `setf` touch the flags, and both belong
to instructions that write them. -/
theorem onlyFlagWritersChangeFlags : Obligations.OnlyFlagWritersChangeFlags := by
  intro i s t h hno
  cases exec_next h with
  | advanced => rfl
  | result s' d x base w v f fl hs hd hx hf =>
    obtain ⟨history, rfl⟩ := loadedFrom_changes_only_devTrace hs
    have hf0 : f = false := by simpa [hno] using hf
    simp [hf0]
  | stored s' x base v hs hx =>
    obtain ⟨m, history, rfl⟩ := storedTo_changes_only_memory hs
    simp
  | branched f p => simp
  | flagsSet fl hf => simp [hno] at hf
  | stopped => rfl

/-- A register the instruction does not name keeps its value under the instruction's address register modification
(R164). -/
theorem writeBack_get_of_notNamed {i : Instr} {x q : Reg} {v : BitVec 7} (s : State) (base : Word)
    (hx : ModifiesOwn i x v) (hq : q ∉ i.regsWritten) : (s.writeBack x base v).regs.get q = s.regs.get q := by
  rcases hx with h0 | ⟨hmem, h15⟩
  · simp [h0]
  · have hne : q ≠ x := fun e => hq (e ▸ hmem)
    by_cases h0 : v = 0#7 <;> simp [h0, h15, Regs.get_set_of_ne _ _ hne]

/-- A register the instruction does not name keeps its value when the destination is written; a destination `x0` holds
none (R11). -/
theorem writeReg_get_of_notNamed {i : Instr} {d q : Reg} (s : State) (w : Word) (hd : d ∈ i.regsWritten ∨ d = 0#4)
    (hq : q ∉ i.regsWritten) : (s.writeReg d w).regs.get q = s.regs.get q := by
  rw [State.writeReg_get]
  refine if_neg fun ⟨hqd, hq0, _⟩ => ?_
  rcases hd with hmem | h0
  · exact hq (hqd ▸ hmem)
  · exact hq0 (hqd.trans h0)

/-- Settles O12: in each way an instruction ends, every register written is one it names, or `x0`, which holds nothing. -/
theorem onlyNamedRegistersChange : Obligations.OnlyNamedRegistersChange := by
  intro i s t h q hq
  cases exec_next h with
  | advanced => rfl
  | result s' d x base w v f fl hs hd hx hf =>
    obtain ⟨history, rfl⟩ := loadedFrom_changes_only_devTrace hs
    rw [State.setFlagsIf_regs, writeReg_get_of_notNamed _ _ hd hq, writeBack_get_of_notNamed _ _ hx hq]
    rfl
  | stored s' x base v hs hx =>
    obtain ⟨m, history, rfl⟩ := storedTo_changes_only_memory hs
    rw [writeBack_get_of_notNamed _ _ hx hq]
    rfl
  | branched f p hb hf =>
    cases f with
    | false => rfl
    | true =>
      have hne : q ≠ 14#4 := fun e => hq (e ▸ hf rfl)
      exact Regs.get_set_of_ne s.regs _ hne
  | flagsSet => rfl
  | stopped => rfl

/-- An address register modification the instruction admits does not touch `pc` (R166). -/
theorem writeBack_pc_of_modifiesOwn {i : Instr} {x : Reg} {v : BitVec 7} (s : State) (base : Word)
    (hx : ModifiesOwn i x v) : (s.writeBack x base v).pc = s.pc := by
  rcases hx with h0 | ⟨_, h15⟩
  · simp [h0]
  · simp [h15]

/-- An instruction that is no branch and does not write `x15` is followed by the one in line (R17). -/
theorem exec_pc_of_noTransfer {i : Instr} {s t : State} (h : exec i s = .next t) (hb : i.isBranch = false)
    (h15 : 15#4 ∉ i.regsWritten) : t.pc = s.pc + 1 := by
  cases exec_next h with
  | advanced => rfl
  | result s' d x base w v f fl hs hd hx hf =>
    obtain ⟨history, rfl⟩ := loadedFrom_changes_only_devTrace hs
    have hd15 : d ≠ 15#4 := by
      rintro rfl
      exact hd.elim h15 (by decide)
    rw [State.setFlagsIf_pc, State.writeReg_pc, if_neg hd15, writeBack_pc_of_modifiesOwn _ _ hx]
    rfl
  | stored s' x base v hs hx =>
    obtain ⟨m, history, rfl⟩ := storedTo_changes_only_memory hs
    rw [writeBack_pc_of_modifiesOwn _ _ hx]
    rfl
  | branched f p hbr => simp [hb] at hbr
  | flagsSet => rfl
  | stopped => rfl

/-- Where its condition is false an instruction only advances `pc`: every arm of `exec` is `guarded` by the condition, and
this is the other branch of it (R100, R102). -/
theorem exec_of_condition_fails {i : Instr} {s : State} (hc : condHolds i.condOf s.flags = false) :
    exec i s = .next s.advance := by
  cases i <;> exact if_neg (Bool.eq_false_iff.1 hc)

/-- Settles O14: both kinds of instruction go on to `pc + 1`, and word addition wraps. -/
theorem onlyListedTransfersLeaveTheLine : Obligations.OnlyListedTransfersLeaveTheLine := by
  intro i s t h hline
  have hpc : t.pc = s.pc + 1 := by
    rcases hline with ⟨hb, h15⟩ | hc
    · exact exec_pc_of_noTransfer h hb h15
    · cases (exec_of_condition_fails hc).symm.trans h
      rfl
  refine ⟨hpc, fun hlast => ?_⟩
  rw [hpc, hlast]
  rfl

/-- An instruction leaves the clock as it is, or it is one that stops it; where it then waits, the timer does not stand
at 0 (R201, R202). -/
theorem exec_hold {i : Instr} {s t : State} (h : exec i s = .next t) :
    t.hold = s.hold ∨ (i.stopsClock = true ∧ ∀ k, t.hold = .wait k → t.timer k ≠ 0#32) := by
  cases exec_next h with
  | advanced => exact .inl rfl
  | result s' d x base w v f fl hs hd hx hf =>
    obtain ⟨history, rfl⟩ := loadedFrom_changes_only_devTrace hs
    exact .inl (by simp)
  | stored s' x base v hs hx =>
    obtain ⟨m, history, rfl⟩ := storedTo_changes_only_memory hs
    exact .inl (by simp)
  | branched f p => exact .inl (by simp)
  | flagsSet => exact .inl rfl
  | stopped hold hb ht => exact .inr ⟨hb, ht⟩

/-- An instruction records no device access, or the one load or the one store it makes in device space (R48). -/
theorem exec_devTrace {i : Instr} {s t : State} (h : exec i s = .next t) :
    t.devTrace = s.devTrace ∨
      (∃ a, i.loadAddr s = some a ∧ isDevice a ∧
        t.devTrace = s.devTrace ++ [.read a (Config.deviceRead s.devTrace a)]) ∨
      ∃ a v, i.storeAddr s = some a ∧ isDevice a ∧ t.devTrace = s.devTrace ++ [.write a v] := by
  cases exec_next h with
  | advanced => exact .inl rfl
  | result s' d x base w v f fl hs hd hx hf =>
    cases hs with
    | plain => exact .inl (by simp)
    | device a ha hdev => exact .inr (.inl ⟨a, ha, hdev, by simp⟩)
  | stored s' x base v hs hx =>
    cases hs with
    | ram => exact .inl (by simp)
    | device a w ha hdev => exact .inr (.inr ⟨a, w, ha, hdev, by simp⟩)
  | branched f p => exact .inl (by simp)
  | flagsSet => exact .inl rfl
  | stopped => exact .inl rfl

/-- Settles O15: the schedule, the clock and the device history, each by its own lemma. -/
theorem onlyStopsAndDevicesTouchTheRest : Obligations.OnlyStopsAndDevicesTouchTheRest := by
  intro i s t h
  refine ⟨exec_schedule h, fun hno => (exec_hold h).resolve_right fun ⟨hstops, _⟩ => ?_, exec_devTrace h⟩
  exact Bool.false_ne_true (hno.symm.trans hstops)

/-! ## The tick and the restart -/

/-- One less than a positive count is a word, so the count does not wrap (R20). -/
theorem toInt_sub_one_of_pos {v : Word} (hpos : 0 < v.toInt) : (v - 1).toInt = v.toInt - 1 := by
  have hlt : v.toInt < 2 ^ 31 := v.toInt_lt
  rw [BitVec.toInt_sub, show (1 : Word).toInt = 1 from rfl]
  exact Int.bmod_eq_of_le (by omega) (by omega)

/-- What one tick makes of a count (R20, R21). -/
theorem tickWord_counts (v : Word) :
    (0 < v.toInt → (tickWord v).toInt = v.toInt - 1) ∧ (v = 0 → tickWord v = 0) ∧
      (v.toInt < 0 → tickWord v = Config.timerNeg v) := by
  refine ⟨fun hpos => ?_, ?_, tickWord_of_neg⟩
  · rw [tickWord_of_pos hpos]
    exact toInt_sub_one_of_pos hpos
  · rintro rfl
    exact tickWord_zero

/-- A wait goes on exactly while its timer, counted, does not stand at 0 (R20, R204). -/
theorem tick_hold_of_wait {s : State} {k : Timer} (h : s.hold = .wait k) :
    (tick s).hold = if (tick s).timer k = 0#32 then .running else .wait k := by
  rw [tick_timer, tick_hold, h]
  cases k <;> rfl

/-- A tick leaves a clock that does not wait as it is (R20, R204). -/
theorem tick_hold_of_no_wait {s : State} (h : ∀ k, s.hold ≠ .wait k) : (tick s).hold = s.hold := by
  rw [tick_hold]
  cases hh : s.hold with
  | running => rfl
  | brk => rfl
  | wait k => exact absurd hh (h k)

/-- A tick changes no register but the timers `x11` and `x12` (R20). -/
theorem tick_get_of_no_timer (s : State) {q : Reg} (h11 : q ≠ 11#4) (h12 : q ≠ 12#4) :
    (tick s).regs.get q = s.regs.get q := by
  simp [h11, h12]

/-- A turn of the tick is a tick (R9). -/
theorem step_of_tick {s : State} (ht : s.turn = .tick) : step s = .next (tick s.takeTurn) := by
  simp [step, ht]

/-- A turn of the host is the restart (R9, R204). -/
theorem step_of_restart {s : State} (ht : s.turn = .restart) : step s = .next (restart s.takeTurn) := by
  simp [step, ht]

/-- While the clock is stopped, every turn but the host's is a tick, the core's too (R22; log 9). -/
theorem step_of_stopped {s : State} (hh : s.hold ≠ .running) (ht : s.turn ≠ .restart) :
    step s = .next (tick s.takeTurn) := by
  cases hturn : s.turn with
  | core => simp [step, hturn, hh]
  | tick => exact step_of_tick hturn
  | restart => exact absurd hturn ht

/-- Settles O20: the step is `tick`, whose effect on each field the lemmas above say. -/
theorem tickCountsBothTimers : Obligations.TickCountsBothTimers := by
  intro s hturn
  refine ⟨tick s.takeTurn, step_of_tick hturn, fun k => ?_, fun k hk => tick_hold_of_wait hk,
    tick_hold_of_no_wait (s := s.takeTurn), fun q => tick_get_of_no_timer s.takeTurn, tick_pc _, tick_flags _, tick_mem _,
    tick_devTrace _⟩
  rw [tick_timer]
  exact tickWord_counts _

/-- Settles O19: the step of a stopped clock is the restart or the tick, by whether it is the host's turn. -/
theorem stoppedClockChangesOnlyTimers : Obligations.StoppedClockChangesOnlyTimers := by
  intro s hstopped
  by_cases hturn : s.turn = .restart
  · exact ⟨restart s.takeTurn, step_of_restart hturn, fun _ _ _ => rfl, rfl, rfl, rfl, rfl, rfl,
      fun _ => ⟨rfl, rfl⟩, fun hne => absurd hturn hne⟩
  · refine ⟨tick s.takeTurn, step_of_stopped hstopped hturn, fun q => tick_get_of_no_timer s.takeTurn, tick_pc _,
      tick_flags _, tick_mem _, tick_devTrace _, tick_schedule _, fun hr => absurd hr hturn,
      fun _ => ⟨fun k => ?_, fun hbrk => ?_, fun k hk => tick_hold_of_wait hk⟩⟩
    · rw [tick_timer]
      exact tickWord_counts _
    · have hnowait : ∀ k, s.takeTurn.hold ≠ .wait k := fun k hk => by
        rw [State.takeTurn_hold, hbrk] at hk
        cases hk
      exact (tick_hold_of_no_wait hnowait).trans hbrk

/-! ## Reset -/

/-- A fetch from a memory that lists no word is the `nop` word: program ROM not set, and all outside it (R44, R45). -/
theorem fetch_nil (a : Word) : fetch [] a = 0#32 := by
  unfold fetch
  split
  · rename_i hrom
    have hlt : a.toNat < Config.progRomEnd := regionOf_programRom.1 hrom
    simp [Memory.read, Memory.unlisted, hlt]
  · rfl

/-- Settles O27: reset holds no cell, so every fetch is of a word that was not set. -/
theorem resetStartsAtZero : Obligations.ResetStartsAtZero :=
  ⟨rfl, rfl, fetch_nil⟩

/-- A running clock waits for nothing: the invariant then asks for canonical memory only. -/
theorem inv_of_running {s : State} (hm : s.mem.wf = true) (hh : s.hold = .running) : Inv s :=
  ⟨hm, fun k hk => by simp [hh] at hk⟩

/-- The memory of a run's start is in canonical form: the two images fit the ROMs they are placed in (R251). -/
theorem bootWith_mem_wf (prog data : List Word) : (bootWith prog data).mem.wf = true := by
  refine Memory.wf_place (Memory.wf_place rfl ?_) ?_
  all_goals
    simp only [List.length_take, Config.progRomEnd, Config.dataRomEnd, Config.ramEnd]
    omega

/-- Settles O24: the clock runs after reset, and memory is canonical, empty or with two images placed in it. -/
theorem invariantHoldsAtReset : Obligations.InvariantHoldsAtReset :=
  ⟨inv_of_running State.reset_mem_wf rfl, fun prog data => inv_of_running (bootWith_mem_wf prog data) rfl⟩

/-! ## The invariant of every step -/

/-- A store keeps memory canonical, since it lands in RAM or leaves memory as it is (R41, R49). -/
theorem storedTo_mem_wf {i : Instr} {s s' : State} (h : StoredTo i s s') (hm : s.mem.wf = true) :
    s'.mem.wf = true := by
  cases h with
  | ram a w ha hr => exact Memory.wf_write w hm (regionOf_ram.1 hr).2
  | device => exact hm

/-- Every instruction keeps memory canonical: a store does, and nothing else touches memory. -/
theorem exec_mem_wf {i : Instr} {s t : State} (h : exec i s = .next t) (hm : s.mem.wf = true) : t.mem.wf = true := by
  cases exec_next h with
  | advanced => exact hm
  | result s' d x base w v f fl hs hd hx hf =>
    obtain ⟨history, rfl⟩ := loadedFrom_changes_only_devTrace hs
    simpa using hm
  | stored s' x base v hs hx => simpa using storedTo_mem_wf hs hm
  | branched f p => simpa using hm
  | flagsSet => exact hm
  | stopped => exact hm

/-- An instruction run with the clock running keeps the invariant: it starts a wait only for a timer that does not stand
at 0 (R202). -/
theorem exec_inv {i : Instr} {s t : State} (h : exec i s = .next t) (hm : s.mem.wf = true) (hrun : s.hold = .running) :
    Inv t := by
  rcases exec_hold h with hsame | ⟨_, hwait⟩
  · exact inv_of_running (exec_mem_wf h hm) (hsame.trans hrun)
  · exact ⟨exec_mem_wf h hm, hwait⟩

/-- A core step with the clock running keeps the invariant, on a reserved word too. -/
theorem coreStep_inv {s t : State} (h : coreStep s = .next t) (hm : s.mem.wf = true) (hrun : s.hold = .running) :
    Inv t := by
  rcases coreStep_next h with ⟨i, _, hexec⟩ | rfl
  · exact exec_inv hexec hm hrun
  · exact inv_of_running hm hrun

/-- A tick keeps the invariant: it ends a wait whose timer reaches 0 (R20). -/
theorem tick_inv {s : State} (hm : s.mem.wf = true) : Inv (tick s) := by
  refine ⟨(congrArg Memory.wf (tick_mem s)).trans hm, fun k hk hzero => ?_⟩
  by_cases hwait : ∃ j, s.hold = .wait j
  · obtain ⟨j, hj⟩ := hwait
    rw [tick_hold_of_wait hj] at hk
    split_ifs at hk with hcount
    cases hk
    exact hcount hzero
  · have hno : ∀ j, s.hold ≠ .wait j := fun j hj => hwait ⟨j, hj⟩
    exact hno k ((tick_hold_of_no_wait hno).symm.trans hk)

/-- Settles O23: the three things a step can be (`step_next`) each keep memory canonical, and each makes the clause about
waits true anew: a core step starts with the clock running, a tick ends a wait that is over, a restart ends any. -/
theorem stepKeepsTheInvariant : Obligations.StepKeepsTheInvariant := by
  rintro s t ⟨hm, _⟩ h
  rcases step_next h with ⟨_, hrun, hcore⟩ | rfl | rfl
  · exact coreStep_inv hcore hm hrun
  · exact tick_inv hm
  · exact inv_of_running hm rfl

end Sys2Proof.Proofs
end
section
/-!
Memory (spec/20_memory.md R40 to R57): which words a run may change, what a fetch gives, and where an access completes, is
recorded, or stops. A store that is executed lands in RAM or in device space, and everything about the ROMs follows.
-/
namespace Sys2Proof.Proofs
open Sys2Proof Sys2Proof.Machine

/-! ## Which words change -/

/-- From `m` to `m'` one word was written, at an address of RAM (R49). -/
def WroteRam (a w : Word) (m m' : Memory) : Prop := regionOf a = .ram ∧ m' = m.write a.toNat w

/-- A store to RAM is seen at its own address only (R49). -/
theorem WroteRam.read {a w : Word} {m m' : Memory} (h : WroteRam a w m m') (b : Nat) :
    m'.read b = if b = a.toNat then w else m.read b := by
  obtain ⟨hram, rfl⟩ := h
  have hlow : 0x2000 ≤ a.toNat := (regionOf_ram.1 hram).1
  exact Memory.read_write_high m (le_trans (by decide) hlow) b w

/-- A store to RAM is not seen below RAM (R41). -/
theorem WroteRam.read_rom {a w : Word} {m m' : Memory} (h : WroteRam a w m m') {b : Nat} (hb : b < 0x2000) :
    m'.read b = m.read b := by
  have hlow : 0x2000 ≤ a.toNat := (regionOf_ram.1 h.1).1
  rw [h.read, if_neg (by omega)]

/-- An instruction leaves memory as it is, or writes the one word it stores, in RAM (R49, R52). -/
theorem exec_mem {i : Instr} {s t : State} (h : exec i s = .next t) :
    t.mem = s.mem ∨ ∃ a w, i.storeAddr s = some a ∧ WroteRam a w s.mem t.mem := by
  cases exec_next h with
  | advanced => exact .inl rfl
  | result s' d x base w v f fl hs hd hx hf =>
    obtain ⟨history, rfl⟩ := loadedFrom_changes_only_devTrace hs
    exact .inl (by simp)
  | stored s' x base v hs hx =>
    cases hs with
    | ram a w ha hr => exact .inr ⟨a, w, ha, hr, by simp⟩
    | device => exact .inl (by simp)
  | branched f p => exact .inl (by simp)
  | flagsSet => exact .inl rfl
  | stopped => exact .inl rfl

/-- Settles O13: the one word an instruction may write is at its store address (`exec_mem`). -/
theorem onlyTheStoredWordChanges : Obligations.OnlyTheStoredWordChanges := by
  intro i s t h b hother
  rcases exec_mem h with hsame | ⟨a, w, ha, hwrote⟩
  · rw [hsame]
  · rw [hwrote.read, if_neg (hother a ha)]

/-- A move leaves memory as it is or writes one word of RAM: neither the tick nor the host writes memory (R20, R204). -/
theorem step_mem {s t : State} (h : step s = .next t) : t.mem = s.mem ∨ ∃ a w, WroteRam a w s.mem t.mem := by
  rcases step_next h with ⟨_, _, hcore⟩ | rfl | rfl
  · rcases coreStep_next hcore with ⟨i, _, hexec⟩ | rfl
    · exact (exec_mem hexec).imp id fun ⟨a, w, _, hwrote⟩ => ⟨a, w, hwrote⟩
    · exact .inl rfl
  · exact .inl (by simp)
  · exact .inl rfl

/-- No move changes a word of the program ROM or the data ROM (R46, R47). -/
theorem step_read_rom {s t : State} (h : step s = .next t) {a : Nat} (ha : a < 0x2000) : t.mem.read a = s.mem.read a := by
  rcases step_mem h with hsame | ⟨b, w, hwrote⟩
  · rw [hsame]
  · exact hwrote.read_rom ha

/-- What holds of no move, and of a move followed by a run of which it holds, holds of every run: induction over the moves
of a run that does not stop. -/
theorem run_induction {P : Nat → State → State → Prop} (hzero : ∀ s, P 0 s s)
    (hsucc : ∀ n s u t, step s = .next u → P n u t → P (n + 1) s t) :
    ∀ (n : Nat) (s t : State), Sys2Proof.core.run n s = .next t → P n s t := by
  intro n
  induction n with
  | zero =>
    intro s t h
    cases (run_zero s).symm.trans h
    exact hzero s
  | succ n ih =>
    intro s t h
    obtain ⟨u, hstep, hrest⟩ := run_succ_next.1 h
    exact hsucc n s u t hstep (ih u t hrest)

/-- No run changes a word of the program ROM or the data ROM (R46, R47). -/
theorem run_read_rom {n : Nat} {s t : State} (h : Sys2Proof.core.run n s = .next t) :
    ∀ a < 0x2000, t.mem.read a = s.mem.read a := by
  refine run_induction (P := fun _ s t => ∀ a < 0x2000, t.mem.read a = s.mem.read a) ?_ ?_ n s t h
  · intro s a _
    rfl
  · intro n s u t hstep hrest a ha
    rw [hrest a ha, step_read_rom hstep ha]

/-! ## What a fetch gives -/

/-- A fetch from the program ROM gives the word there (R44). -/
theorem fetch_of_rom (m : Memory) {a : Word} (ha : a.toNat < 0x1000) : fetch m a = m.read a.toNat := by
  rw [fetch, regionOf_programRom.2 ha]

/-- A fetch from outside the program ROM gives 0 (R44; log 16). -/
theorem fetch_of_outside (m : Memory) {a : Word} (ha : 0x1000 ≤ a.toNat) : fetch m a = 0 := by
  have hregion : regionOf a ≠ .programRom := fun h => absurd (regionOf_programRom.1 h) (by omega)
  unfold fetch
  split
  · contradiction
  · rfl

/-- A fetch depends on the words of the program ROM only (R44). -/
theorem fetch_congr {m m' : Memory} (h : ∀ b < 0x1000, m'.read b = m.read b) (a : Word) : fetch m' a = fetch m a := by
  by_cases ha : a.toNat < 0x1000
  · rw [fetch_of_rom m' ha, fetch_of_rom m ha, h _ ha]
  · rw [fetch_of_outside m' (by omega), fetch_of_outside m (by omega)]

/-- Settles O25: every move keeps the ROM words, so every run does by induction, and a fetch sees no other words. -/
theorem romsNeverChange : Obligations.RomsNeverChange := by
  intro n s t h
  have hroms := run_read_rom h
  exact ⟨hroms, fetch_congr fun b hb => hroms b (by omega), fun a => fetch_of_outside t.mem⟩

/-- An address that no cell lists reads as unlisted (log 5). -/
theorem read_of_notListed {m : Memory} {a : Nat} (h : ∀ cell ∈ m, cell.1 ≠ a) : m.read a = Memory.unlisted a := by
  induction m with
  | nil => rfl
  | cons c rest ih =>
    rw [Memory.read, if_neg (h c List.mem_cons_self)]
    exact ih fun cell hcell => h cell (List.mem_cons_of_mem c hcell)

/-- A program ROM address that is not listed reads 0 (R45). -/
theorem unlisted_of_rom {a : Nat} (ha : a < 0x1000) : Memory.unlisted a = 0 := if_pos ha

/-- A fetch from outside the program ROM, or of a word of it that was not set, gives 0 (R44, R45). -/
theorem fetch_of_outside_or_notListed {m : Memory} {a : Word}
    (h : 0x1000 ≤ a.toNat ∨ ∀ cell ∈ m, cell.1 ≠ a.toNat) : fetch m a = 0 := by
  by_cases ha : a.toNat < 0x1000
  · have hfree : ∀ cell ∈ m, cell.1 ≠ a.toNat := h.resolve_left (by omega)
    rw [fetch_of_rom m ha, read_of_notListed hfree, unlisted_of_rom ha]
  · exact fetch_of_outside m (by omega)

/-- The word 0 is the `nop` word, `add x0 x0 x0` (R138). -/
theorem decode_zero : decode 0 = .ok (.addR 0 0 0 false .always) := by decide

/-- An `add` into `x0` that writes no flags only advances `pc` (R11, R138). -/
theorem exec_add_zero (s : State) : exec (.addR 0 0 0 false .always) s = .next s.advance := rfl

/-- Settles O18: the fetch gives 0, which decodes to the `nop`. -/
theorem invalidFetchDoesNothing : Obligations.InvalidFetchDoesNothing := by
  intro s hturn hrunning hpc
  have hdecode : decode (fetch s.mem s.pc) = .ok (.addR 0 0 0 false .always) := by
    rw [fetch_of_outside_or_notListed hpc, decode_zero]
  rw [stepRunsTheDecodedInstruction s _ hturn hrunning hdecode, exec_add_zero]
  rfl

/-! ## The images a run starts with -/

/-- What every address of ROM and RAM reads at the start of a run (R45, R47, R251). -/
theorem bootWith_read {prog data : List Word} (hp : prog.length ≤ 4096) (hd : data.length ≤ 4096) (b : Nat) :
    (bootWith prog data).mem.read b =
      if 0x1000 ≤ b ∧ b < 0x1000 + data.length then data.getD (b - 0x1000) 0
      else if b < prog.length then prog.getD b 0 else Memory.unlisted b := by
  have hprog : prog.take Config.progRomEnd = prog := List.take_of_length_le hp
  have hdata : data.take (Config.dataRomEnd - Config.progRomEnd) = data := List.take_of_length_le hd
  have hwf : (Memory.place [] 0 prog).wf = true := Memory.wf_place rfl (by simp only [Config.ramEnd]; omega)
  have hprogRead : (Memory.place [] 0 prog).read b = if b < prog.length then prog.getD b 0 else Memory.unlisted b := by
    rw [Memory.read_place rfl (by simp only [Config.ramEnd]; omega)]
    simp [Memory.read]
  rw [bootWith, hprog, hdata, Memory.read_place hwf (by simp only [Config.progRomEnd, Config.ramEnd]; omega), hprogRead]
  rfl

/-- At the start of a run every fetch from the program ROM gives the image's word, and 0 where it has none (R45, R251). -/
theorem fetch_bootWith {prog data : List Word} (hp : prog.length ≤ 4096) (hd : data.length ≤ 4096) {a : Word}
    (ha : a.toNat < 4096) : fetch (bootWith prog data).mem a = prog.getD a.toNat 0 := by
  rw [fetch_of_rom _ ha, bootWith_read hp hd, if_neg (by omega)]
  split
  · rfl
  · rename_i hbeyond
    rw [unlisted_of_rom ha, List.getD_eq_default _ _ (by omega)]

/-- At the start of a run a load from the data ROM gives the image's word and changes nothing (R47, R251). -/
theorem memRead_bootWith {prog data : List Word} (hp : prog.length ≤ 4096) (hd : data.length ≤ 4096) {k : Nat}
    (hk : k < data.length) {a : Word} (ha : a.toNat = 0x1000 + k) :
    memRead a (bootWith prog data) = .next (data[k], bootWith prog data) := by
  have hregion : regionOf a = .dataRom := regionOf_dataRom.2 (by omega)
  have hword : (bootWith prog data).mem.read a.toNat = data[k] := by
    rw [ha, bootWith_read hp hd, if_pos (by omega), Nat.add_sub_cancel_left, List.getD_eq_getElem _ _ hk]
  rw [memRead_of_readable (.inl hregion), hword]

/-- The address of word `k` of the variables is `_ramstart + k`, without a wrap (R96). -/
theorem variableAddr_toNat (ds : List Assembler.Datum) {k : Nat} (hk : k < 4096) :
    (Assembler.variableAddr ds k).toNat = 0x2000 + k := by
  have hstart : (Assembler.Constant.ramstart.value ds).toNat = 0x2000 := rfl
  rw [Assembler.variableAddr, BitVec.toNat_add, hstart, BitVec.toNat_ofNat]
  omega

/-- The address of the initial value of word `k` is `_datastart + k`, without a wrap (R96). -/
theorem initialAddr_toNat (ds : List Assembler.Datum) {k : Nat} (hk : k < 4096) :
    (Assembler.initialAddr ds k).toNat = 0x1000 + k := by
  have hstart : (Assembler.Constant.datastart.value ds).toNat = 0x1000 := rfl
  rw [Assembler.initialAddr, BitVec.toNat_add, hstart, BitVec.toNat_ofNat]
  omega

/-- Settles O28: what every address reads after the two images are placed is `bootWith_read`; the constants of the data
directives name addresses of the data ROM and of RAM. -/
theorem bootPlacesTheImages : Obligations.BootPlacesTheImages := by
  intro prog data hp hd
  refine ⟨rfl, rfl, fun a => fetch_bootWith hp hd, fun k hk => memRead_bootWith hp hd hk ?_, ?_⟩
  · rw [BitVec.toNat_ofNat]
    omega
  · rintro ds rfl
    refine ⟨?_, fun k hk => ⟨?_, ?_, ?_⟩⟩
    · rw [Assembler.Constant.value, BitVec.toNat_ofNat]
      omega
    · exact regionOf_ram.2 (by rw [variableAddr_toNat ds (by omega)]; omega)
    · exact variableAddr_toNat ds (by omega)
    · exact memRead_bootWith hp hd hk (initialAddr_toNat ds (by omega))

/-! ## What an access answers -/

/-- A load from the program ROM is refused (R46; log 11). -/
theorem memRead_of_programRom {a : Word} (s : State) (ha : a.toNat < 0x1000) :
    memRead a s = .refused (.loadFromProgramRom a) := by
  rw [memRead, regionOf_programRom.2 ha]

/-- From 0x4C00 up nothing is mapped (R41). -/
theorem regionOf_of_unmapped {a : Word} (ha : 0x4C00 ≤ a.toNat) : regionOf a = .unused ∨ regionOf a = .outside := by
  rw [regionOf_unused, regionOf_outside]
  omega

/-- A load from where nothing is mapped faults (R50; log 11). -/
theorem memRead_of_unmapped {a : Word} (s : State) (ha : 0x4C00 ≤ a.toNat) : memRead a s = .fault (.unmappedLoad a) := by
  rcases regionOf_of_unmapped ha with h | h <;> rw [memRead, h]

/-- A store to either ROM is refused (R46, R47; log 11). -/
theorem memWrite_of_rom {a : Word} (v : Word) (s : State) (ha : a.toNat < 0x2000) :
    memWrite a v s = .refused (.storeToRom a) := by
  have hregion : regionOf a = .programRom ∨ regionOf a = .dataRom := by
    rw [regionOf_programRom, regionOf_dataRom]
    omega
  rcases hregion with h | h <;> rw [memWrite, h]

/-- A store to where nothing is mapped faults (R50; log 11). -/
theorem memWrite_of_unmapped {a : Word} (v : Word) (s : State) (ha : 0x4C00 ≤ a.toNat) :
    memWrite a v s = .fault (.unmappedStore a) := by
  rcases regionOf_of_unmapped ha with h | h <;> rw [memWrite, h]

/-- The plainly readable addresses are the data ROM and the RAM (R41). -/
theorem isReadable_iff {a : Word} : isReadable a ↔ 0x1000 ≤ a.toNat ∧ a.toNat ≤ 0x3FFF := by
  rw [isReadable, regionOf_dataRom, regionOf_ram]
  omega

/-- The device addresses are GPIO and VRAM (R41, R48). -/
theorem isDevice_iff {a : Word} : isDevice a ↔ 0x4000 ≤ a.toNat ∧ a.toNat ≤ 0x4BFF := by
  rw [isDevice, regionOf_gpio, regionOf_vram]
  omega

/-! ## What an executed instruction makes of the answer -/

/-- An instruction with a load address has a destination (R161). -/
theorem loadDest_of_loadAddr {i : Instr} {s : State} {a : Word} (h : i.loadAddr s = some a) :
    ∃ d, i.loadDest = some d := by
  cases i <;> cases h <;> exact ⟨_, rfl⟩

section Executed
variable {i : Instr} {s : State} {a : Word} (hw : i.wellFormed = true) (hc : condHolds i.condOf s.flags = true)
include hw hc

/-- An executed load whose access is answered completes; memory and the history are as the access left them (R161). -/
theorem exec_of_memRead_next (ha : i.loadAddr s = some a) {r : Word × State} (hr : memRead a s = .next r) :
    Runs i s fun t => t.mem = r.2.mem ∧ t.devTrace = r.2.devTrace := by
  obtain ⟨d, hd⟩ := loadDest_of_loadAddr ha
  obtain ⟨_, x, base, v, _, hexec⟩ := exec_load hw hc ha hd
  rw [hr] at hexec
  exact ⟨_, hexec, by simp, by simp⟩

/-- An executed load whose access faults stops with that fault. -/
theorem exec_of_memRead_fault (ha : i.loadAddr s = some a) {r : Fault} (hr : memRead a s = .fault r) :
    exec i s = .fault r := by
  obtain ⟨d, hd⟩ := loadDest_of_loadAddr ha
  obtain ⟨_, x, base, v, _, hexec⟩ := exec_load hw hc ha hd
  rw [hexec, hr]
  rfl

/-- An executed load whose access is refused stops with that refusal. -/
theorem exec_of_memRead_refused (ha : i.loadAddr s = some a) {r : Refusal} (hr : memRead a s = .refused r) :
    exec i s = .refused r := by
  obtain ⟨d, hd⟩ := loadDest_of_loadAddr ha
  obtain ⟨_, x, base, v, _, hexec⟩ := exec_load hw hc ha hd
  rw [hexec, hr]
  rfl

/-- An executed store whose access is answered completes; memory and the history are as the access left them (R162). -/
theorem exec_of_memWrite_next (ha : i.storeAddr s = some a) {s' : State} (hr : memWrite a (i.storeData s) s = .next s') :
    Runs i s fun t => t.mem = s'.mem ∧ t.devTrace = s'.devTrace := by
  obtain ⟨x, base, v, _, hexec⟩ := exec_store hw hc ha
  rw [hr] at hexec
  exact ⟨_, hexec, by simp, by simp⟩

/-- An executed store whose access faults stops with that fault. -/
theorem exec_of_memWrite_fault (ha : i.storeAddr s = some a) {r : Fault}
    (hr : memWrite a (i.storeData s) s = .fault r) : exec i s = .fault r := by
  obtain ⟨x, base, v, _, hexec⟩ := exec_store hw hc ha
  rw [hexec, hr]
  rfl

/-- An executed store whose access is refused stops with that refusal. -/
theorem exec_of_memWrite_refused (ha : i.storeAddr s = some a) {r : Refusal}
    (hr : memWrite a (i.storeData s) s = .refused r) : exec i s = .refused r := by
  obtain ⟨x, base, v, _, hexec⟩ := exec_store hw hc ha
  rw [hexec, hr]
  rfl

/-- An executed load from device space completes and is recorded (R48). -/
theorem exec_load_device (ha : i.loadAddr s = some a) (hdev : isDevice a) :
    Runs i s fun t => t.devTrace = s.devTrace ++ [.read a (Config.deviceRead s.devTrace a)] := by
  obtain ⟨t, ht, _, htrace⟩ := exec_of_memRead_next hw hc ha (memRead_of_device hdev)
  exact ⟨t, ht, htrace⟩

/-- An executed store to device space completes, is recorded, and leaves memory as it is (R48). -/
theorem exec_store_device (ha : i.storeAddr s = some a) (hdev : isDevice a) :
    Runs i s fun t => t.mem = s.mem ∧ t.devTrace = s.devTrace ++ [.write a (i.storeData s)] :=
  exec_of_memWrite_next hw hc ha (memWrite_of_device hdev)

/-- An executed store to RAM completes, writes its word, and is not recorded (R49). -/
theorem exec_store_ram (ha : i.storeAddr s = some a) (hram : regionOf a = .ram) :
    Runs i s fun t => WroteRam a (i.storeData s) s.mem t.mem ∧ t.devTrace = s.devTrace := by
  obtain ⟨t, ht, hmem, htrace⟩ := exec_of_memWrite_next hw hc ha (memWrite_of_ram hram)
  exact ⟨t, ht, ⟨hram, hmem⟩, htrace⟩

end Executed

/-- An instruction that makes no access completes where its condition holds (R220). -/
theorem exec_of_no_access {i : Instr} {s : State} (hc : condHolds i.condOf s.flags = true) (hl : i.loadAddr s = none)
    (hs : i.storeAddr s = none) : ∃ t, exec i s = .next t := by
  cases i
  case ldrR | ldrI | ldrA | ldrL | popR => cases hl
  case strR | strI | strA | strL | pushR => cases hs
  all_goals exact ⟨_, if_pos hc⟩

/-- Settles O16: an instruction whose condition is false advances, one that makes no access completes, and an access to
an address the hypotheses allow is answered. -/
theorem everyAdmittedInstructionCompletes : Obligations.EveryAdmittedInstructionCompletes := by
  intro i s hw hload hstore
  by_cases hc : condHolds i.condOf s.flags = true
  · cases hl : i.loadAddr s with
    | some a =>
      rcases hload a hl with hread | hdev
      · exact (exec_of_memRead_next hw hc hl (memRead_of_readable hread)).imp fun _ h => h.1
      · exact (exec_load_device hw hc hl hdev).imp fun _ h => h.1
    | none =>
      cases hs : i.storeAddr s with
      | some a =>
        rcases hstore a hs with hram | hdev
        · exact (exec_store_ram hw hc hs hram).imp fun _ h => h.1
        · exact (exec_store_device hw hc hs hdev).imp fun _ h => h.1
      | none => exact exec_of_no_access hc hl hs
  · exact ⟨_, exec_of_condition_fails (Bool.eq_false_iff.2 hc)⟩

/-- Settles O49: the bounds of the regions, then for each range of addresses what the access there answers and what the
executed instruction makes of it. -/
theorem unspecifiedAccessesStop : Obligations.UnspecifiedAccessesStop := by
  refine ⟨fun a => ?_, fun i s a hw hc => ⟨?_, ?_, ?_, ?_, ?_, ?_, ?_, ?_⟩⟩
  · rw [regionOf_programRom, regionOf_dataRom, regionOf_ram, regionOf_gpio, regionOf_vram, regionOf_unused,
      regionOf_outside, isReadable_iff, isDevice_iff]
    omega
  · intro ha hrom
    exact exec_of_memRead_refused hw hc ha (memRead_of_programRom s hrom)
  · intro ha hlow hhigh
    have hread := memRead_of_readable (s := s) (isReadable_iff.2 ⟨hlow, hhigh⟩)
    obtain ⟨t, ht, _, htrace⟩ := exec_of_memRead_next hw hc ha hread
    exact ⟨t, ht, htrace⟩
  · intro ha hlow hhigh
    exact exec_load_device hw hc ha (isDevice_iff.2 ⟨hlow, hhigh⟩)
  · intro ha hunmapped
    exact exec_of_memRead_fault hw hc ha (memRead_of_unmapped s hunmapped)
  · intro ha hrom
    exact exec_of_memWrite_refused hw hc ha (memWrite_of_rom _ s hrom)
  · intro ha hlow hhigh
    obtain ⟨t, ht, hwrote, htrace⟩ := exec_store_ram hw hc ha (regionOf_ram.2 ⟨hlow, by omega⟩)
    exact ⟨t, ht, by rw [hwrote.read, if_pos rfl], htrace⟩
  · intro ha hlow hhigh
    obtain ⟨t, ht, hmem, htrace⟩ := exec_store_device hw hc ha (isDevice_iff.2 ⟨hlow, hhigh⟩)
    exact ⟨t, ht, fun b => by rw [hmem], htrace⟩
  · intro ha hunmapped
    exact exec_of_memWrite_fault hw hc ha (memWrite_of_unmapped _ s hunmapped)

/-- A 12-bit immediate that is not negative is a program ROM address (R75, R160). -/
theorem imm12_toNat_of_nonneg {imm : BitVec 12} (h : 0 ≤ imm.toInt) : (imm12 imm).toNat < 0x1000 := by
  have hsame : (imm12 imm).toInt = imm.toInt := BitVec.toInt_signExtend_of_le (by decide)
  have hlt : imm.toInt < 2 ^ 11 := imm.toInt_lt
  rw [BitVec.toInt_eq_toNat_cond] at hsame
  split at hsame <;> omega

/-- A negative 12-bit immediate is an address where nothing is mapped (R75, R160). -/
theorem imm12_toNat_of_neg {imm : BitVec 12} (h : imm.toInt < 0) : 0x4C00 ≤ (imm12 imm).toNat := by
  have hsame : (imm12 imm).toInt = imm.toInt := BitVec.toInt_signExtend_of_le (by decide)
  have hle : -2 ^ 11 ≤ imm.toInt := imm.le_toInt
  rw [BitVec.toInt_eq_toNat_cond] at hsame
  split at hsame <;> omega

/-- Settles O48: a 12-bit immediate reaches only program ROM or addresses where nothing is mapped. -/
theorem iTypeAccessesAlwaysStop : Obligations.ITypeAccessesAlwaysStop := by
  intro s d imm f c hc
  refine ⟨fun hnonneg => ⟨?_, ?_⟩, fun hneg => ⟨?_, ?_⟩⟩
  · exact exec_of_memRead_refused (i := .ldrI d imm f c) rfl hc rfl
      (memRead_of_programRom s (imm12_toNat_of_nonneg hnonneg))
  · exact exec_of_memWrite_refused (i := .strI d imm c) rfl hc rfl
      (memWrite_of_rom _ s ((imm12_toNat_of_nonneg hnonneg).trans (by decide)))
  · exact exec_of_memRead_fault (i := .ldrI d imm f c) rfl hc rfl (memRead_of_unmapped s (imm12_toNat_of_neg hneg))
  · exact exec_of_memWrite_fault (i := .strI d imm c) rfl hc rfl (memWrite_of_unmapped _ s (imm12_toNat_of_neg hneg))

/-! ## The history of device accesses -/

/-- An entry of the history at an address of GPIO or VRAM (R48). -/
def OnDevice (ev : DevAccess) : Prop := ∃ a v, isDevice a ∧ (ev = .read a v ∨ ev = .write a v)

/-- From one history to another in at most `n` moves: accesses of device space were added at the end, at most one a move
(R53). -/
def GrewBy (n : Nat) (before after : List DevAccess) : Prop :=
  ∃ added : List DevAccess, after = before ++ added ∧ added.length ≤ n ∧ ∀ ev ∈ added, OnDevice ev

/-- An unchanged history has grown by nothing. -/
theorem GrewBy.same (n : Nat) (trace : List DevAccess) : GrewBy n trace trace :=
  ⟨[], by simp⟩

/-- A history with one access of device space more has grown by one. -/
theorem GrewBy.one (trace : List DevAccess) {ev : DevAccess} (h : OnDevice ev) : GrewBy 1 trace (trace ++ [ev]) :=
  ⟨[ev], by simpa using h⟩

/-- What two parts of a run add follows one another in the order of the moves (R53). -/
theorem GrewBy.trans {m n : Nat} {t0 t1 t2 : List DevAccess} (h1 : GrewBy m t0 t1) (h2 : GrewBy n t1 t2) :
    GrewBy (m + n) t0 t2 := by
  obtain ⟨first, rfl, hlen1, hdev1⟩ := h1
  obtain ⟨second, rfl, hlen2, hdev2⟩ := h2
  refine ⟨first ++ second, List.append_assoc .., ?_, fun ev hev => ?_⟩
  · rw [List.length_append]
    omega
  · exact (List.mem_append.1 hev).elim (hdev1 ev) (hdev2 ev)

/-- An instruction adds at most one access to the history (R48). -/
theorem exec_grewBy {i : Instr} {s t : State} (h : exec i s = .next t) : GrewBy 1 s.devTrace t.devTrace := by
  rcases exec_devTrace h with hsame | ⟨a, _, hdev, htrace⟩ | ⟨a, v, _, hdev, htrace⟩
  · rw [hsame]
    exact .same 1 _
  · rw [htrace]
    exact .one _ ⟨a, _, hdev, .inl rfl⟩
  · rw [htrace]
    exact .one _ ⟨a, v, hdev, .inr rfl⟩

/-- A move adds at most one access to the history: neither the tick nor the host accesses a device (R20, R204). -/
theorem step_grewBy {s t : State} (h : step s = .next t) : GrewBy 1 s.devTrace t.devTrace := by
  rcases step_next h with ⟨_, _, hcore⟩ | rfl | rfl
  · rcases coreStep_next hcore with ⟨i, _, hexec⟩ | rfl
    · exact exec_grewBy (s := s.takeTurn) hexec
    · exact .same 1 _
  · rw [tick_devTrace]
    exact .same 1 _
  · exact .same 1 _

/-- A run of `n` moves adds at most `n` accesses to the history, in the order of the moves (R53). -/
theorem run_grewBy (n : Nat) (s t : State) (h : Sys2Proof.core.run n s = .next t) : GrewBy n s.devTrace t.devTrace := by
  refine run_induction (P := fun n s t => GrewBy n s.devTrace t.devTrace) (fun s => .same 0 _) ?_ n s t h
  intro n s u t hstep hrest
  rw [Nat.add_comm]
  exact (step_grewBy hstep).trans hrest

/-- Taking the turn moves no load address: no instruction reads the schedule (log 9). -/
theorem loadAddr_takeTurn (i : Instr) (s : State) : i.loadAddr s.takeTurn = i.loadAddr s := by
  cases i <;> rfl

/-- Taking the turn moves no store address. -/
theorem storeAddr_takeTurn (i : Instr) (s : State) : i.storeAddr s.takeTurn = i.storeAddr s := by
  cases i <;> rfl

/-- Taking the turn changes no word to be stored. -/
theorem storeData_takeTurn (i : Instr) (s : State) : i.storeData s.takeTurn = i.storeData s := by
  cases i <;> rfl

/-- An instruction that changes the history is well-formed, its condition holds, and it accesses a device (R48, R102). -/
theorem exec_devTrace_changes {i : Instr} {s t : State} (h : exec i s = .next t) (hne : t.devTrace ≠ s.devTrace) :
    i.wellFormed = true ∧ condHolds i.condOf s.flags = true ∧
      ∃ a, isDevice a ∧ (i.loadAddr s = some a ∨ i.storeAddr s = some a) := by
  have hc : condHolds i.condOf s.flags = true := by
    by_contra hfails
    cases (exec_of_condition_fails (Bool.eq_false_iff.2 hfails)).symm.trans h
    exact hne rfl
  refine ⟨wellFormed_of_next h hc, hc, ?_⟩
  rcases exec_devTrace h with hsame | ⟨a, ha, hdev, _⟩ | ⟨a, _, ha, hdev, _⟩
  · exact absurd hsame hne
  · exact ⟨a, hdev, .inl ha⟩
  · exact ⟨a, hdev, .inr ha⟩

/-- A move that changes the history is the core's, with the clock running, on a word that decodes to an instruction that
changes it (R8, R48). -/
theorem step_devTrace_changes {s t : State} (h : step s = .next t) (hne : t.devTrace ≠ s.devTrace) :
    s.turn = .core ∧ s.hold = .running ∧ ∃ i, decode (fetch s.mem s.pc) = .ok i ∧ exec i s.takeTurn = .next t := by
  rcases step_next h with ⟨hturn, hrunning, hcore⟩ | rfl | rfl
  · rcases coreStep_next hcore with ⟨i, hdecode, hexec⟩ | rfl
    · exact ⟨hturn, hrunning, i, hdecode, hexec⟩
    · exact absurd rfl hne
  · exact absurd (tick_devTrace _) hne
  · exact absurd rfl hne

/-- Settles O26: a device access of the instruction whose turn it is completes and is recorded (`exec_load_device`,
`exec_store_device`), no other move changes the history (`step_devTrace_changes`), and over a run the moves add up
(`run_grewBy`). -/
theorem deviceHistoryOnlyGrows : Obligations.DeviceHistoryOnlyGrows := by
  refine ⟨?_, ?_, run_grewBy⟩
  · intro s i a hturn hrunning hdecode hw hc hdev
    have hstep : step s = exec i s.takeTurn := stepRunsTheDecodedInstruction s i hturn hrunning hdecode
    rw [hstep, ← loadAddr_takeTurn, ← storeAddr_takeTurn, ← storeData_takeTurn]
    refine ⟨fun ha => exec_load_device (s := s.takeTurn) hw hc ha hdev, fun ha => ?_⟩
    obtain ⟨t, ht, _, htrace⟩ := exec_store_device (s := s.takeTurn) hw hc ha hdev
    exact ⟨t, ht, htrace⟩
  · intro s t h
    by_cases hne : t.devTrace = s.devTrace
    · exact .inl hne
    · obtain ⟨hturn, hrunning, i, hdecode, hexec⟩ := step_devTrace_changes h hne
      obtain ⟨hw, hc, a, hdev, haddr⟩ := exec_devTrace_changes hexec hne
      rw [loadAddr_takeTurn, storeAddr_takeTurn] at haddr
      exact .inr ⟨hturn, hrunning, i, a, hdecode, hw, hc, hdev, haddr⟩

/-! ## A load after a store -/

/-- An executed load of a word that its access answers, without a change of the state: the destination takes the word,
`x15` as the address of the next instruction, the flags follow if they are written, and no other register but the address
register changes (R161, R164, R167). -/
theorem exec_load_readable {j : Instr} {t : State} {b : Word} {e : Reg} (hw : j.wellFormed = true)
    (hc : condHolds j.condOf t.flags = true) (hb : j.loadAddr t = some b) (he : j.loadDest = some e)
    (hread : isReadable b) :
    Runs j t fun u => (e ≠ 0#4 → e ≠ 15#4 → u.regs.get e = t.mem.read b.toNat) ∧
      (e = 15#4 → u.pc = t.mem.read b.toNat) ∧ (e ≠ 15#4 → u.pc = t.pc + 1) ∧
      FlagsAfter t u j.writesFlags (t.mem.read b.toNat) false false := by
  obtain ⟨_, x, base, v, hx, hexec⟩ := exec_load hw hc hb he
  rw [memRead_of_readable hread] at hexec
  refine ⟨_, hexec, fun h0 h15 => ?_, fun h15 => ?_, fun h15 => ?_, flagsAfter_of_eq (by simp)⟩
  · rw [finishLoad_regs, if_neg h15, Regs.get_set_self _ _ h0 h15]
  · rw [finishLoad_pc, if_pos h15]
  · rw [finishLoad_pc, if_neg h15, writeBack_pc_of_modifiesOwn _ _ hx]
    rfl

/-- Settles O51: the store leaves memory with its one word written (`exec_store_ram`), and the load obtains what that memory
reads at its address (`exec_load_readable`). -/
theorem loadReturnsTheLatestStore : Obligations.LoadReturnsTheLatestStore := by
  intro s i a hwi hci ha hram
  obtain ⟨t, ht, hwrote, _⟩ := exec_store_ram hwi hci ha hram
  refine ⟨t, ht, fun j b e hwj hcj hb hbram he w hword => ?_⟩
  have hread : t.mem.read b.toNat = w := by
    rw [hword, hwrote.read]
    simp only [BitVec.toNat_inj]
  obtain ⟨u, hu, hdest, hpc, hline, hflags⟩ := exec_load_readable hwj hcj hb he (.inr hbram)
  rw [hread] at hdest hpc hflags
  exact ⟨u, hu, hdest, hpc, hline, hflags, onlyNamedRegistersChange j t u hu⟩

/-! ## `ldr` and `str` in device space -/

/-- What a register holds after an address register modification: the modified one the sum, unless nothing is added, every
other what it held (R11, R16, R164). -/
theorem writeBack_get (s : State) (x q : Reg) (base : Word) (v : BitVec 7) :
    (s.writeBack x base v).regs.get q =
      if v ≠ 0#7 ∧ q = x ∧ q ≠ 0#4 ∧ q ≠ 15#4 then base + modWord v else s.regs.get q := by
  unfold State.writeBack
  split
  · rename_i h0
    rw [if_neg (fun h => h.1 h0)]
  · rename_i h0
    rw [State.writeReg_get]
    simp only [ne_eq, h0, not_false_eq_true, true_and]

/-- A modification that adds nothing or is not of `x15` does not touch `pc` (R164, R166). -/
theorem writeBack_pc_of_ne (s : State) {x : Reg} (base : Word) {v : BitVec 7} (h : v = 0#7 ∨ x ≠ 15#4) :
    (s.writeBack x base v).pc = s.pc := by
  rw [State.writeBack_pc]
  split
  · rfl
  · rename_i h0
    exact if_neg (h.resolve_left h0)

/-- The pairs of registers R166 admits, as the claims write them. -/
theorem writebackOk_iff {d x : Reg} {v : BitVec 7} : writebackOk d x v = true ↔ v = 0 ∨ (d ≠ x ∧ x ≠ 15) := by
  simp [writebackOk]

/-- The end of a load without modification, on a state that differs from the first in the history only (R161). -/
theorem loaded_finishLoad (s : State) (history : List DevAccess) (d : Reg) (f : Bool) (w : Word) :
    Loaded s (finishLoad d f w ({ s with devTrace := history } : State).advance) d f w :=
  ⟨wrote_of_eq (by simp) (by simp), flagsAfter_of_eq (by simp)⟩

/-- The end of a load with modification: the destination is written after the address register (R161, R164). -/
theorem loadedModified_finishLoad (s : State) (history : List DevAccess) {d x : Reg} {v : BitVec 7} (f : Bool) (w : Word)
    (hok : v = 0 ∨ (d ≠ x ∧ x ≠ 15)) :
    LoadedModified s
      (finishLoad d f w (({ s with devTrace := history } : State).advance.writeBack x (s.readReg x) v)) d x f w v := by
  refine ⟨fun q hq => ?_, ?_, flagsAfter_of_eq (by simp)⟩
  · have hdest : ∀ s' : State, (finishLoad d f w s').regs.get q = if q = d ∧ q ≠ 0#4 then w else s'.regs.get q := by
      intro s'
      rw [finishLoad, State.setFlagsIf_regs, State.writeReg_get]
      simp only [ne_eq, hq, not_false_eq_true, and_true]
    rw [hdest, writeBack_get]
    simp only [ne_eq, hq, not_false_eq_true, and_true]
    rfl
  · rw [finishLoad_pc, writeBack_pc_of_ne _ _ (hok.imp id And.right)]
    rfl

/-- The end of a store with modification, on a state that differs from the first in memory and the history only (R162,
R164). -/
theorem storedModified_writeBack (s : State) (m : Memory) (history : List DevAccess) {x : Reg} {v : BitVec 7}
    (hx : v = 0#7 ∨ x ≠ 15#4) :
    StoredModified s (({ s with mem := m, devTrace := history } : State).advance.writeBack x (s.readReg x) v) x v := by
  refine ⟨fun q hq => ?_, ?_, by simp⟩
  · rw [writeBack_get]
    simp only [ne_eq, hq, not_false_eq_true, and_true]
    rfl
  · rw [writeBack_pc_of_ne _ _ hx]
    rfl

/-- A load from device space without modification (R48, R161). -/
theorem loadAt_device {a : Word} (d : Reg) (f : Bool) (s : State) (hdev : isDevice a) :
    ∃ t, loadAt d a f s = .next t ∧ Loaded s t d f (Config.deviceRead s.devTrace a) ∧
      t.devTrace = s.devTrace ++ [.read a (Config.deviceRead s.devTrace a)] ∧ t.hold = s.hold ∧ SameMemory s t := by
  rw [loadAt, memRead_of_device hdev]
  exact ⟨_, rfl, loaded_finishLoad s _ d f _, by simp, by simp, fun b => by simp⟩

/-- A load from device space with modification (R48, R161, R164). -/
theorem loadModified_device {d x : Reg} {v : BitVec 7} {u : Bool} (f : Bool) {s : State}
    (hok : v = 0 ∨ (d ≠ x ∧ x ≠ 15)) {a : Word} (ha : a = accessAddr (s.readReg x) v u) (hdev : isDevice a) :
    ∃ t, loadModified d x (s.readReg x) v u f s = .next t ∧
      LoadedModified s t d x f (Config.deviceRead s.devTrace a) v ∧
      t.devTrace = s.devTrace ++ [.read a (Config.deviceRead s.devTrace a)] ∧ t.hold = s.hold ∧ SameMemory s t := by
  rw [loadModified, ← ha, memRead_of_device hdev]
  exact ⟨_, rfl, loadedModified_finishLoad s _ f _ hok, by simp, by simp, fun b => by simp⟩

/-- A store to device space without modification (R48, R162). -/
theorem storeAt_device {a : Word} (w : Word) (s : State) (hdev : isDevice a) :
    ∃ t, storeAt a w s = .next t ∧ OnlyAdvanced s t ∧ t.flags = s.flags ∧ SameMemory s t ∧ t.hold = s.hold ∧
      t.devTrace = s.devTrace ++ [.write a w] := by
  rw [storeAt, memWrite_of_device hdev]
  exact ⟨_, rfl, ⟨rfl, rfl⟩, rfl, fun _ => rfl, rfl, rfl⟩

/-- A store to device space with modification (R48, R162, R164). -/
theorem storeModified_device {x : Reg} {v : BitVec 7} {u : Bool} (w : Word) {s : State} (hx : v = 0#7 ∨ x ≠ 15#4)
    (hdev : isDevice (accessAddr (s.readReg x) v u)) :
    ∃ t, storeModified x (s.readReg x) w v u s = .next t ∧ StoredModified s t x v ∧ SameMemory s t ∧ t.hold = s.hold ∧
      t.devTrace = s.devTrace ++ [.write (accessAddr (s.readReg x) v u) w] := by
  rw [storeModified, memWrite_of_device hdev]
  exact ⟨_, rfl, storedModified_writeBack s _ _ hx, fun b => by simp, by simp, by simp⟩

/-- An R-type load whose condition holds and whose modification R166 admits is a load with modification (R161, R164). -/
theorem exec_ldrR_of_ok {d x : Reg} {v : BitVec 7} (u f : Bool) {c : Cond} {s : State} (hc : condHolds c s.flags = true)
    (hok : v = 0 ∨ (d ≠ x ∧ x ≠ 15)) : exec (.ldrR d x v u f c) s = loadModified d x (s.readReg x) v u f s := by
  rw [exec, execLdrR, guarded_of_holds _ hc, checkWriteback_of_ok (writebackOk_iff.2 hok)]

/-- An R-type store whose condition holds and whose modification R166 admits is a store with modification (R162, R164). -/
theorem exec_strR_of_ok {d x : Reg} {v : BitVec 7} (u : Bool) {c : Cond} {s : State} (hc : condHolds c s.flags = true)
    (hok : v = 0 ∨ (d ≠ x ∧ x ≠ 15)) :
    exec (.strR d x v u c) s = storeModified x (s.readReg x) (s.readReg d) v u s := by
  rw [exec, execStrR, guarded_of_holds _ hc, checkWriteback_of_ok (writebackOk_iff.2 hok)]

/-- Settles O45: each form is, where its condition holds, a load with or without modification, which in device
space takes the oracle's word (`loadAt_device`, `loadModified_device`). -/
theorem ldrFromDeviceTakesTheOraclesWord : Obligations.LdrFromDeviceTakesTheOraclesWord := by
  intro s f c hc
  refine ⟨fun d x v u a hok ha hdev => ?_, ?_, ?_⟩
  · obtain ⟨t, ht, hpost⟩ := loadModified_device f hok ha hdev
    exact ⟨t, (exec_ldrR_of_ok u f hc hok).trans ht, hpost⟩
  · rintro d imm a rfl hdev
    obtain ⟨t, ht, hpost⟩ := loadAt_device d f s hdev
    exact ⟨t, (guarded_of_holds _ hc).trans ht, hpost⟩
  · rintro imm a rfl hdev
    obtain ⟨t, ht, hpost⟩ := loadAt_device noDest f s hdev
    exact ⟨t, (guarded_of_holds _ hc).trans ht, hpost⟩

/-- Settles O47: each form is a store with or without modification, and in device space that is one more entry of the
history (`storeAt_device`, `storeModified_device`). -/
theorem strToDeviceIsAnOutputEvent : Obligations.StrToDeviceIsAnOutputEvent := by
  intro s c hc
  refine ⟨fun d x v u hok hdev => ?_, fun d imm hdev => ?_, fun imm hdev => ?_⟩
  · obtain ⟨t, ht, hpost⟩ := storeModified_device (s.readReg d) (hok.imp id And.right) hdev
    exact ⟨t, (exec_strR_of_ok u hc hok).trans ht, hpost⟩
  · obtain ⟨t, ht, hpost⟩ := storeAt_device (s.readReg d) s hdev
    exact ⟨t, (guarded_of_holds _ hc).trans ht, hpost⟩
  · obtain ⟨t, ht, hpost⟩ := storeAt_device 0 s hdev
    exact ⟨t, (guarded_of_holds _ hc).trans ht, hpost⟩

end Sys2Proof.Proofs
end
section
/-!
The words of the instructions (spec/30_encoding.md R70 to R101, R203): decoding undoes encoding and encoding undoes decoding,
and the reserved words are refused. The four formats are four equations, `decode_wordR` to `decode_wordL`, and the four
converses `encode_of_decodeR` to `encode_of_decodeL`.
-/
namespace Sys2Proof.Proofs
open Sys2Proof Sys2Proof.Machine

/-! ## Decoding the word of an instruction -/

section
variable (o : Opcode) (c : Cond) {w : Word}

theorem decodeFormat_of_R (h : fmtField w = 0#2) :
    decodeFormat o c w = decodeR o (eField w) (sField w) (rField w) (dField w) (flagField w) c := by
  rw [decodeFormat, h]; rfl

theorem decodeFormat_of_I (h : fmtField w = 1#2) :
    decodeFormat o c w = decodeI o (imm12Field w) (rField w) (dField w) (flagField w) c := by
  rw [decodeFormat, h]; rfl

theorem decodeFormat_of_A (h : fmtField w = 2#2) :
    decodeFormat o c w = decodeA o (imm16Field w) (dField w) (flagField w) c := by
  rw [decodeFormat, h]; rfl

theorem decodeFormat_of_L (h : fmtField w = 3#2) : decodeFormat o c w = decodeL o (imm20Field w) (flagField w) c := by
  rw [decodeFormat, h]; rfl

end

/-- The format of a word is one of four (R70). -/
theorem format_cases (b : BitVec 2) : b = 0#2 ∨ b = 1#2 ∨ b = 2#2 ∨ b = 3#2 := by
  revert b; decide

section
variable (o : Opcode) (x r d : Reg) (f : Bool) (c : Cond)

theorem decode_wordR (e : BitVec 8) : decode (wordR o e x r d f c) = decodeR o e x r d f c := by
  rw [decode_of_fields (condField_wordR ..) (opField_wordR ..), decodeFormat_of_R _ _ (fmtField_wordR ..)]
  simp only [eField_wordR, sField_wordR, rField_wordR, dField_wordR, flagField_wordR]

theorem decode_wordI (imm : BitVec 12) : decode (wordI o imm r d f c) = decodeI o imm r d f c := by
  rw [decode_of_fields (condField_wordI ..) (opField_wordI ..), decodeFormat_of_I _ _ (fmtField_wordI ..)]
  simp only [imm12Field_wordI, rField_wordI, dField_wordI, flagField_wordI]

theorem decode_wordA (imm : BitVec 16) : decode (wordA o imm d f c) = decodeA o imm d f c := by
  rw [decode_of_fields (condField_wordA ..) (opField_wordA ..), decodeFormat_of_A _ _ (fmtField_wordA ..)]
  simp only [imm16Field_wordA, dField_wordA, flagField_wordA]

theorem decode_wordL (imm : BitVec 20) : decode (wordL o imm f c) = decodeL o imm f c := by
  rw [decode_of_fields (condField_wordL ..) (opField_wordL ..), decodeFormat_of_L _ _ (fmtField_wordL ..)]
  simp only [imm20Field_wordL, flagField_wordL]

end

/-- An `ldr` word of R-type gives back the modification its `e` field is made of (R164). -/
theorem decode_wordR_ldr (d x : Reg) (v : BitVec 7) (u f : Bool) (c : Cond) :
    decode (wordR .ldr (eOf v u) x 0 d f c) = .ok (.ldrR d x v u f c) := by
  rw [decode_wordR, decodeR, vOfE_eOf, uOfE_eOf]; rfl

/-- So does a `str` word of R-type, whose bit 4 is 0 (R87, R164). -/
theorem decode_wordR_str (d x : Reg) (v : BitVec 7) (u : Bool) (c : Cond) :
    decode (wordR .str (eOf v u) x 0 d false c) = .ok (.strR d x v u c) := by
  rw [decode_wordR, decodeR, vOfE_eOf, uOfE_eOf]; rfl

/-- Settles O1: by the format of the instruction's word; the fields the decoder checks are the constants `encode` writes, and
the modification of `ldr` and `str` is read back from `e`. -/
theorem decodeOfEncodeIsExpansion : Obligations.DecodeOfEncodeIsExpansion := by
  intro i
  cases i
  case ldrR => exact decode_wordR_ldr ..
  case strR => exact decode_wordR_str ..
  case pushR d c => exact decode_wordR_str d 13#4 127#7 true c
  case popR d f c => exact decode_wordR_ldr d 13#4 1#7 false f c
  case addR | subR | sbnR | mulR | divR | modR | expR | shlR | shrR | andR | orrR | xorR | ldhR | bR | setfR | brkR
      | waitT1 | waitT2 | movR | cmpR | nopR | bxsR =>
    exact decode_wordR ..
  case addI | subI | sbnI | mulI | divI | modI | expI | shlI | shrI | andI | orrI | xorI | ldrI | strI | ldhI | bI | setfI
      | cmpI | notI =>
    exact decode_wordI ..
  case addA | subA | sbnA | mulA | divA | modA | expA | shlA | shrA | andA | orrA | xorA | ldrA | strA | ldhA | bA | setfA
      | movA =>
    exact decode_wordA ..
  case addL | subL | sbnL | mulL | divL | modL | expL | shlL | shrL | andL | orrL | xorL | ldrL | strL | ldhL | bL
      | setfL =>
    exact decode_wordL ..

/-! ## The word of what a word decodes to -/

section
variable {x r d : Reg} {f : Bool} {c : Cond} {i : Instr}

theorem encode_aluR (op : AluOp) : encode (aluR op d r x f c) = wordR (.alu op) 0 x r d f c := by
  cases op <;> rfl

theorem encode_aluI (op : AluOp) (imm : BitVec 12) : encode (aluI op d r imm f c) = wordI (.alu op) imm r d f c := by
  cases op <;> rfl

theorem encode_aluA (op : AluOp) (imm : BitVec 16) : encode (aluA op d imm f c) = wordA (.alu op) imm d f c := by
  cases op <;> rfl

theorem encode_aluL (op : AluOp) (imm : BitVec 20) : encode (aluL op imm f c) = wordL (.alu op) imm f c := by
  cases op <;> rfl

/-- What stands under a field condition is admitted exactly where the condition holds (`acceptIf_ok` is one direction). -/
theorem acceptIf_eq_ok {ok : Bool} {why : Reserved} {rest : Except Reserved Instr} :
    acceptIf ok why rest = .ok i ↔ ok = true ∧ rest = .ok i := by
  refine ⟨acceptIf_ok, fun ⟨hok, hrest⟩ => ?_⟩
  rw [acceptIf, if_pos hok, hrest]

/-- The decoder reads all R-type fields: each is part of the instruction, or checked to be what `encode` writes (R86). -/
theorem encode_of_decodeR {o : Opcode} {e : BitVec 8} (h : decodeR o e x r d f c = .ok i) :
    encode i = wordR o e x r d f c := by
  cases o <;> simp only [decodeR, acceptIf_eq_ok, Bool.and_eq_true, beq_iff_eq, Bool.not_eq_true', Except.ok.injEq] at h
  case alu op =>
    obtain ⟨rfl, rfl⟩ := h
    exact encode_aluR op
  case ldr =>
    obtain ⟨rfl, rfl⟩ := h
    rw [encode, eOf_vOfE_uOfE]; rfl
  case str =>
    obtain ⟨rfl, rfl, rfl⟩ := h
    rw [encode, eOf_vOfE_uOfE]; rfl
  case ldh =>
    obtain ⟨rfl, rfl, rfl⟩ := h
    rfl
  case b =>
    obtain ⟨⟨⟨rfl, rfl⟩, rfl⟩, rfl⟩ := h
    rfl
  case setf =>
    obtain ⟨⟨⟨rfl, rfl⟩, rfl⟩, rfl, rfl⟩ := h
    rfl
  case stop =>
    obtain ⟨⟨⟨rfl, rfl⟩, rfl⟩, rfl, hx⟩ := h
    split_ifs at hx with h0 h11 h12
    all_goals
      cases hx
      subst x
      rfl

/-- The same for I-type. -/
theorem encode_of_decodeI {o : Opcode} {imm : BitVec 12} (h : decodeI o imm r d f c = .ok i) :
    encode i = wordI o imm r d f c := by
  cases o <;>
    simp only [decodeI, acceptIf_eq_ok, Bool.and_eq_true, beq_iff_eq, Bool.not_eq_true', Except.ok.injEq, reduceCtorEq] at h
  case alu op =>
    subst h
    exact encode_aluI op imm
  case ldr | ldh =>
    obtain ⟨rfl, rfl⟩ := h
    rfl
  case str =>
    obtain ⟨rfl, rfl, rfl⟩ := h
    rfl
  case b =>
    obtain ⟨⟨rfl, rfl⟩, rfl⟩ := h
    rfl
  case setf =>
    obtain ⟨⟨rfl, rfl⟩, rfl, rfl⟩ := h
    rfl

/-- The same for A-type. -/
theorem encode_of_decodeA {o : Opcode} {imm : BitVec 16} (h : decodeA o imm d f c = .ok i) :
    encode i = wordA o imm d f c := by
  cases o <;> simp only [decodeA, acceptIf_eq_ok, beq_iff_eq, Bool.not_eq_true', Except.ok.injEq, reduceCtorEq] at h
  case alu op =>
    subst h
    exact encode_aluA op imm
  case ldr | ldh =>
    subst h
    rfl
  case str | b =>
    obtain ⟨rfl, rfl⟩ := h
    rfl
  case setf =>
    obtain ⟨rfl, rfl, rfl⟩ := h
    rfl

/-- The same for L-type. -/
theorem encode_of_decodeL {o : Opcode} {imm : BitVec 20} (h : decodeL o imm f c = .ok i) :
    encode i = wordL o imm f c := by
  cases o <;> simp only [decodeL, acceptIf_eq_ok, Bool.not_eq_true', Except.ok.injEq, reduceCtorEq] at h
  case alu op =>
    subst h
    exact encode_aluL op imm
  case ldr | ldh | b =>
    subst h
    rfl
  case str | setf =>
    obtain ⟨rfl, rfl⟩ := h
    rfl

end

/-- Settles O2: the instruction's word is the word of the fields the decoder read (`encode_of_decodeR` to
`encode_of_decodeL`), and these make up the whole word (`wordR_of_fields` to `wordL_of_fields`). -/
theorem encodeOfDecodeIsTheWord : Obligations.EncodeOfDecodeIsTheWord := by
  intro w i h
  obtain ⟨o, c, hc, ho, hi⟩ := decode_ok h
  rcases format_cases (fmtField w) with hf | hf | hf | hf
  · rw [decodeFormat_of_R o c hf] at hi
    exact (encode_of_decodeR hi).trans (wordR_of_fields ho hf hc)
  · rw [decodeFormat_of_I o c hf] at hi
    exact (encode_of_decodeI hi).trans (wordI_of_fields ho hf hc)
  · rw [decodeFormat_of_A o c hf] at hi
    exact (encode_of_decodeA hi).trans (wordA_of_fields ho hf hc)
  · rw [decodeFormat_of_L o c hf] at hi
    exact (encode_of_decodeL hi).trans (wordL_of_fields ho hf hc)

end Sys2Proof.Proofs
end
section
/-!
The reserved words (spec/30_encoding.md R82 to R87, R101, R203): which words the decoder refuses, under which names, and that
the core refuses them too.
-/
namespace Sys2Proof.Proofs
open Sys2Proof Sys2Proof.Machine

/-! ## From the decoder to the core -/

/-- A word the decoder refuses is refused by the core under the same name (R8, R101; log 13). -/
theorem refusedByCore_of_decode {w : Word} {why : Reserved} (h : decode w = .error why) : RefusedByCore w why := by
  refine ⟨h, fun s hturn hrunning hfetch hcond => ?_⟩
  have hfetched : fetch s.takeTurn.mem s.takeTurn.pc = w := by rwa [State.takeTurn_mem, State.takeTurn_pc]
  rw [step_of_core hturn hrunning]
  simp only [coreStep, hfetched, h, reservedOutcome, if_neg hcond]

/-- Only the codes 13 and 14 name no condition (R101). -/
theorem reserved_of_cond_ofBits_eq_none {b : BitVec 4} (h : Cond.ofBits b = none) : b = 13 ∨ b = 14 := by
  revert b; decide

/-- A word is refused if it is refused whenever its condition is one of the fourteen; the name is then the same, unless the
condition itself is reserved (R101). -/
theorem refusedByCore_of_each_condition {w : Word} {P : Reserved → Prop}
    (h : ∀ c : Cond, condField w = c.toBits → ∃ why, decode w = .error why ∧ P why) :
    ∃ why, RefusedByCore w why ∧ (condField w ≠ 13 → condField w ≠ 14 → P why) := by
  cases hc : Cond.ofBits (condField w) with
  | none =>
    refine ⟨.reservedCondition, refusedByCore_of_decode (by rw [decode, hc]), fun h13 h14 => ?_⟩
    exact absurd (reserved_of_cond_ofBits_eq_none hc) (not_or.2 ⟨h13, h14⟩)
  | some c =>
    obtain ⟨why, hdecode, hwhy⟩ := h c (Cond.eq_toBits_of_ofBits hc)
    exact ⟨why, refusedByCore_of_decode hdecode, fun _ _ => hwhy⟩

/-! ## Unassigned opcodes -/

/-- The fourteen values of the opcode field that name nothing (R85). -/
theorem opcode_ofBits_of_unassigned {b : BitVec 5} (h : b ∈ [12, 13, 14, 15, 19, 20, 21, 22, 23, 24, 25, 26, 27, 31]) :
    Opcode.ofBits b = none := by
  revert b; decide

/-- Settles O4: the opcode is looked at only after the condition has been named. -/
theorem unassignedOpcodesAreRefused : Obligations.UnassignedOpcodesAreRefused := by
  intro w hop h13 h14
  obtain ⟨why, hrefused, hwhy⟩ := refusedByCore_of_each_condition (w := w) (P := (· = .unassignedOpcode)) fun c hc =>
    ⟨.unassignedOpcode, by simp only [decode, hc, Cond.ofBits_toBits, opcode_ofBits_of_unassigned hop], rfl⟩
  rwa [hwhy h13 h14] at hrefused

/-! ## Nonzero first operand fields -/

/-- Two opcodes with the same code are the same (R81). -/
theorem opcode_toBits_injective : Function.Injective Opcode.toBits := fun o o' h => by
  simpa using congrArg Opcode.ofBits h

/-- A value of the opcode field out of a list of codes is the code of an opcode out of the list (R81). -/
theorem exists_opcode_of_mem {b : BitVec 5} {os : List Opcode} (h : b ∈ os.map Opcode.toBits) :
    ∃ o ∈ os, b = o.toBits := by
  obtain ⟨o, hmem, rfl⟩ := List.mem_map.1 h
  exact ⟨o, hmem, rfl⟩

/-- What is refused under a field condition: the condition fails and the name is its own, or the rest is refused. -/
theorem acceptIf_eq_error {ok : Bool} {why why' : Reserved} {rest : Except Reserved Instr} :
    acceptIf ok why rest = .error why' ↔ (ok = false ∧ why' = why) ∨ (ok = true ∧ rest = .error why') := by
  cases ok <;> simp [acceptIf, eq_comm]

/-- Settles O5: for the three opcodes the first field condition of both formats is that `r` is 0. -/
theorem nonzeroFirstOperandIsRefused : Obligations.NonzeroFirstOperandIsRefused := by
  intro w hop hfmt hr
  refine refusedByCore_of_each_condition fun c hc => ⟨.firstOperandNotZero, ?_, rfl⟩
  have hr0 : (rField w == 0#4) = false := beq_eq_false_iff_ne.2 hr
  obtain ⟨o, hmem, ho⟩ := exists_opcode_of_mem (os := [.ldr, .str, .ldh]) hop
  rw [decode_of_fields hc ho]
  have hformat : fmtField w = 0#2 ∨ fmtField w = 1#2 := by simpa using hfmt
  rcases hformat with hf | hf
  · rw [decodeFormat_of_R o c hf]
    fin_cases hmem <;> exact acceptIf_eq_error.2 (.inl ⟨hr0, rfl⟩)
  · rw [decodeFormat_of_I o c hf]
    fin_cases hmem <;> exact acceptIf_eq_error.2 (.inl ⟨hr0, rfl⟩)

/-! ## What the fields of a word that decodes satisfy -/

section
variable {x r d : Reg} {f : Bool} {c : Cond} {i : Instr} {w : Word} {o : Opcode}

/-- In R-type only `ldr` and `str` use `e` (R86, R164). -/
theorem eField_zero_of_decodeR {e : BitVec 8} (h : decodeR o e x r d f c = .ok i) (hldr : o ≠ .ldr)
    (hstr : o ≠ .str) : e = 0 := by
  cases o <;> simp_all [decodeR, acceptIf_eq_ok]

/-- In R-type `b`, `setf` and opcode 30 use neither `r` nor `d` (R86). -/
theorem rdFields_zero_of_decodeR {e : BitVec 8} (h : decodeR o e x r d f c = .ok i) (ho : o ∈ [.b, .setf, .stop]) :
    r = 0 ∧ d = 0 := by
  cases o <;> simp_all [decodeR, acceptIf_eq_ok]

/-- In I-type `b` and `setf` use neither `r` nor `d` (R86). -/
theorem rdFields_zero_of_decodeI {imm : BitVec 12} (h : decodeI o imm r d f c = .ok i) (ho : o ∈ [.b, .setf]) :
    r = 0 ∧ d = 0 := by
  cases o <;> simp_all [decodeI, acceptIf_eq_ok]

/-- In A-type `b` and `setf` do not use `d` (R86). -/
theorem dField_zero_of_decodeA {imm : BitVec 16} (h : decodeA o imm d f c = .ok i) (ho : o ∈ [.b, .setf]) : d = 0 := by
  cases o <;> simp_all [decodeA, acceptIf_eq_ok]

/-- `str` and opcode 30 allow bit 4 equal to 0 only, in every format (R87, R203). -/
theorem flagField_of_decodeFormat (h : decodeFormat o c w = .ok i) (ho : o ∈ [.str, .stop]) : flagField w = false := by
  rcases format_cases (fmtField w) with hf | hf | hf | hf
  · rw [decodeFormat_of_R o c hf] at h
    cases o <;> simp_all [decodeR, acceptIf_eq_ok]
  · rw [decodeFormat_of_I o c hf] at h
    cases o <;> simp_all [decodeI, acceptIf_eq_ok]
  · rw [decodeFormat_of_A o c hf] at h
    cases o <;> simp_all [decodeA, acceptIf_eq_ok]
  · rw [decodeFormat_of_L o c hf] at h
    cases o <;> simp_all [decodeL, acceptIf_eq_ok]

/-- `setf` admits bit 4 equal to 1 only, in every format (R87). -/
theorem flagField_of_decodeFormat_setf (h : decodeFormat .setf c w = .ok i) : flagField w = true := by
  rcases format_cases (fmtField w) with hf | hf | hf | hf
  · rw [decodeFormat_of_R _ c hf, decodeR, acceptIf_eq_ok, acceptIf_eq_ok] at h
    exact h.2.1
  · rw [decodeFormat_of_I _ c hf, decodeI, acceptIf_eq_ok, acceptIf_eq_ok] at h
    exact h.2.1
  · rw [decodeFormat_of_A _ c hf, decodeA, acceptIf_eq_ok, acceptIf_eq_ok] at h
    exact h.2.1
  · rw [decodeFormat_of_L _ c hf, decodeL, acceptIf_eq_ok] at h
    exact h.1

/-- The opcode 30 words that decode are R-type words with one of the three selectors (R203). -/
theorem stop_fields_of_decodeFormat (h : decodeFormat .stop c w = .ok i) :
    fmtField w = 0 ∧ sField w ∈ [0, 11, 12] := by
  rcases format_cases (fmtField w) with hf | hf | hf | hf
  · rw [decodeFormat_of_R _ c hf] at h
    obtain ⟨_, _, hselector⟩ : _ ∧ _ ∧ _ := by simpa only [decodeR, acceptIf_eq_ok] using h
    refine ⟨hf, ?_⟩
    split_ifs at hselector with h0 h11 h12
    · simp [h0]
    · simp [h11]
    · simp [h12]
  · cases (decodeFormat_of_I _ c hf).symm.trans h
  · cases (decodeFormat_of_A _ c hf).symm.trans h
  · cases (decodeFormat_of_L _ c hf).symm.trans h

/-- What the fields of a word satisfy that decodes with opcode `o` (R86, R87, R203); what R84 demands of `r` is
`nonzeroFirstOperandIsRefused`. -/
structure FieldsOk (o : Opcode) (w : Word) : Prop where
  e_zero : fmtField w = 0 → o ≠ .ldr → o ≠ .str → eField w = 0
  rd_zero_R : fmtField w = 0 → o ∈ [.b, .setf, .stop] → rField w = 0 ∧ dField w = 0
  rd_zero_I : fmtField w = 1 → o ∈ [.b, .setf] → rField w = 0 ∧ dField w = 0
  d_zero_A : fmtField w = 2 → o ∈ [.b, .setf] → dField w = 0
  flag_clear : o ∈ [.str, .stop] → flagField w = false
  flag_set : o = .setf → flagField w = true
  stop_selector : o = .stop → fmtField w = 0 ∧ sField w ∈ [0, 11, 12]

theorem fieldsOk_of_decodeFormat (h : decodeFormat o c w = .ok i) : FieldsOk o w where
  e_zero hf := eField_zero_of_decodeR ((decodeFormat_of_R o c hf).symm.trans h)
  rd_zero_R hf := rdFields_zero_of_decodeR ((decodeFormat_of_R o c hf).symm.trans h)
  rd_zero_I hf := rdFields_zero_of_decodeI ((decodeFormat_of_I o c hf).symm.trans h)
  d_zero_A hf := dField_zero_of_decodeA ((decodeFormat_of_A o c hf).symm.trans h)
  flag_clear := flagField_of_decodeFormat h
  flag_set := by
    rintro rfl
    exact flagField_of_decodeFormat_setf h
  stop_selector := by
    rintro rfl
    exact stop_fields_of_decodeFormat h

end

/-! ## The names of the refusals -/

/-- The names under which the fields of a word are refused, for every opcode but `ldr` (R82, R84, R86, R87, R203). -/
def IsFieldReason (o : Opcode) (why : Reserved) : Prop :=
  why ∈ [.unusedFieldNotZero, .flagBit, .formatPairing, .timerSelector] ∨
    (o ∈ [.str, .ldh] ∧ why = .firstOperandNotZero)

section
variable {o : Opcode}

theorem isFieldReason_unused : IsFieldReason o .unusedFieldNotZero := .inl (by decide)

theorem isFieldReason_flagBit : IsFieldReason o .flagBit := .inl (by decide)

theorem isFieldReason_pairing : IsFieldReason o .formatPairing := .inl (by decide)

theorem isFieldReason_selector : IsFieldReason o .timerSelector := .inl (by decide)

theorem isFieldReason_firstOperand (ho : o ∈ [.str, .ldh]) : IsFieldReason o .firstOperandNotZero := .inr ⟨ho, rfl⟩

end

/-- If this part of the decoder refuses, it does so under one of these names. -/
def RefusesOnlyAs (names : Reserved → Prop) (answer : Except Reserved Instr) : Prop :=
  ∀ why, answer = .error why → names why

section
variable {names : Reserved → Prop} {why : Reserved}

theorem RefusesOnlyAs.ok {i : Instr} : RefusesOnlyAs names (.ok i) := nofun

theorem RefusesOnlyAs.error (h : names why) : RefusesOnlyAs names (.error why) := by
  rintro _ ⟨⟩
  exact h

theorem RefusesOnlyAs.acceptIf {ok : Bool} {rest : Except Reserved Instr} (h : names why)
    (hrest : RefusesOnlyAs names rest) : RefusesOnlyAs names (acceptIf ok why rest) := fun why' h' =>
  (acceptIf_eq_error.1 h').elim (fun ⟨_, hname⟩ => hname ▸ h) (fun ⟨_, hr⟩ => hrest why' hr)

end

section
variable {o : Opcode} {x r d : Reg} {f : Bool} {c : Cond}

theorem decodeR_refusesOnlyAs {e : BitVec 8} (ho : o ≠ .ldr) :
    RefusesOnlyAs (IsFieldReason o) (decodeR o e x r d f c) := by
  cases o with
  | alu op => exact .acceptIf isFieldReason_unused .ok
  | ldr => exact absurd rfl ho
  | str => exact .acceptIf (isFieldReason_firstOperand (by decide)) (.acceptIf isFieldReason_flagBit .ok)
  | ldh => exact .acceptIf (isFieldReason_firstOperand (by decide)) (.acceptIf isFieldReason_unused .ok)
  | b => exact .acceptIf isFieldReason_unused .ok
  | setf => exact .acceptIf isFieldReason_unused (.acceptIf isFieldReason_flagBit .ok)
  | stop =>
    refine .acceptIf isFieldReason_unused (.acceptIf isFieldReason_flagBit ?_)
    split_ifs
    · exact .ok
    · exact .ok
    · exact .ok
    · exact .error isFieldReason_selector

theorem decodeI_refusesOnlyAs {imm : BitVec 12} (ho : o ≠ .ldr) :
    RefusesOnlyAs (IsFieldReason o) (decodeI o imm r d f c) := by
  cases o with
  | alu op => exact .ok
  | ldr => exact absurd rfl ho
  | str => exact .acceptIf (isFieldReason_firstOperand (by decide)) (.acceptIf isFieldReason_flagBit .ok)
  | ldh => exact .acceptIf (isFieldReason_firstOperand (by decide)) .ok
  | b => exact .acceptIf isFieldReason_unused .ok
  | setf => exact .acceptIf isFieldReason_unused (.acceptIf isFieldReason_flagBit .ok)
  | stop => exact .error isFieldReason_pairing

theorem decodeA_refusesOnlyAs {imm : BitVec 16} : RefusesOnlyAs (IsFieldReason o) (decodeA o imm d f c) := by
  cases o with
  | alu op => exact .ok
  | ldr => exact .ok
  | str => exact .acceptIf isFieldReason_flagBit .ok
  | ldh => exact .ok
  | b => exact .acceptIf isFieldReason_unused .ok
  | setf => exact .acceptIf isFieldReason_unused (.acceptIf isFieldReason_flagBit .ok)
  | stop => exact .error isFieldReason_pairing

theorem decodeL_refusesOnlyAs {imm : BitVec 20} : RefusesOnlyAs (IsFieldReason o) (decodeL o imm f c) := by
  cases o with
  | alu op => exact .ok
  | ldr => exact .ok
  | str => exact .acceptIf isFieldReason_flagBit .ok
  | ldh => exact .ok
  | b => exact .ok
  | setf => exact .acceptIf isFieldReason_flagBit .ok
  | stop => exact .error isFieldReason_pairing

end

/-- Whatever the format, no field of a word is refused under another name (R84, R86, R87, R203). -/
theorem isFieldReason_of_decodeFormat {o : Opcode} {c : Cond} {w : Word} {why : Reserved}
    (h : decodeFormat o c w = .error why) (ho : o ≠ .ldr) : IsFieldReason o why := by
  rcases format_cases (fmtField w) with hf | hf | hf | hf
  · exact decodeR_refusesOnlyAs ho why ((decodeFormat_of_R o c hf).symm.trans h)
  · exact decodeI_refusesOnlyAs ho why ((decodeFormat_of_I o c hf).symm.trans h)
  · exact decodeA_refusesOnlyAs why ((decodeFormat_of_A o c hf).symm.trans h)
  · exact decodeL_refusesOnlyAs why ((decodeFormat_of_L o c hf).symm.trans h)

/-- The opcodes with an unused field, a bit 4 or a format to check name an opcode, and not `ldr` (R81). -/
theorem exists_opcode_of_checked {b : BitVec 5} (h : b ∈ [0, 1, 2, 3, 4, 5, 6, 7, 8, 9, 10, 11, 17, 18, 28, 29, 30]) :
    ∃ o ≠ Opcode.ldr, b = o.toBits := by
  obtain ⟨o, hmem, rfl⟩ := exists_opcode_of_mem (b := b) (os := [.alu .add, .alu .sub, .alu .sbn, .alu .mul, .alu .div,
    .alu .mod, .alu .exp, .alu .shl, .alu .shr, .alu .and, .alu .orr, .alu .xor, .str, .ldh, .b, .setf, .stop]) h
  refine ⟨o, ?_, rfl⟩
  rintro rfl
  simp at hmem

/-- Settles O6: such a word has an opcode other than `ldr`; if its fields decoded, each of the eight clauses would contradict
what the fields of a decoding word satisfy (`FieldsOk`), so they are refused, and under one of these names. -/
theorem unusedFieldsAndBitFourAreChecked : Obligations.UnusedFieldsAndBitFourAreChecked := by
  intro w hbad
  refine refusedByCore_of_each_condition fun c hc => ?_
  obtain ⟨o, hldr, ho⟩ : ∃ o ≠ Opcode.ldr, opField w = o.toBits := by
    rcases hbad with ⟨hop, _⟩ | ⟨hop, _⟩ | ⟨hop, _⟩ | ⟨hop, _⟩ | ⟨hop, _⟩ | ⟨hop, _⟩ | ⟨hop, _⟩ | ⟨hop, _⟩
    all_goals exact exists_opcode_of_checked (by revert hop; generalize opField w = b; revert b; decide)
  cases hd : decodeFormat o c w with
  | error why =>
    refine ⟨why, (decode_of_fields hc ho).trans hd, (isFieldReason_of_decodeFormat hd hldr).imp_right ?_⟩
    rintro ⟨hmem, hwhy⟩
    exact ⟨ho ▸ List.mem_map_of_mem hmem, hwhy⟩
  | ok i =>
    have hok : FieldsOk o w := fieldsOk_of_decodeFormat hd
    have hmem : ∀ os : List Opcode, opField w ∈ os.map Opcode.toBits → o ∈ os := fun os h =>
      (List.mem_map_of_injective opcode_toBits_injective).1 (ho ▸ h)
    have heq : ∀ o' : Opcode, opField w = o'.toBits → o = o' := fun o' h => opcode_toBits_injective (ho.symm.trans h)
    exfalso
    rcases hbad with ⟨hop, hf, he⟩ | ⟨hop, hf, he⟩ | ⟨hop, hf, hfields⟩ | ⟨hop, hf, hfields⟩ | ⟨hop, hf, hd0⟩ |
      ⟨hop, hflag⟩ | ⟨hop, hflag⟩ | ⟨hop, hfields⟩
    · have hstr : o ≠ .str := by rintro rfl; rw [ho] at hop; revert hop; decide
      exact he (hok.e_zero hf hldr hstr)
    · exact he (hok.e_zero hf hldr (by rw [heq .ldh hop]; decide))
    · have hR := hmem [.b, .setf, .stop] hop
      have hstr : o ≠ .str := by rintro rfl; simp at hR
      obtain ⟨hr, hd⟩ := hok.rd_zero_R hf hR
      exact hfields.elim (absurd (hok.e_zero hf hldr hstr)) (·.elim (absurd hr) (absurd hd))
    · obtain ⟨hr, hd⟩ := hok.rd_zero_I hf (hmem [.b, .setf] hop)
      exact hfields.elim (absurd hr) (absurd hd)
    · exact hd0 (hok.d_zero_A hf (hmem [.b, .setf] hop))
    · exact Bool.false_ne_true ((hok.flag_clear (hmem [.str, .stop] hop)).symm.trans hflag)
    · exact Bool.false_ne_true (hflag.symm.trans (hok.flag_set (heq .setf hop)))
    · obtain ⟨hfmt, hselector⟩ := hok.stop_selector (heq .stop hop)
      exact hfields.elim (absurd hfmt) (absurd hselector)

end Sys2Proof.Proofs
end
section
/-!
Instructions that are others written differently (spec/30_encoding.md R83, R93 to R95): the pseudo-instructions, the L-type
words of the twelve operations, the branch an assembler makes for a label, and the words the spec lists.
-/
namespace Sys2Proof.Proofs
open Sys2Proof Sys2Proof.Machine

/-! ## Listed words -/

/-- The word of a first class instruction decodes to it (R80). -/
theorem decode_of_encode_eq {w : Word} {i : Instr} (hw : encode i = w) (hi : i.expand = i) : decode w = .ok i := by
  rw [← hw, decodeOfEncodeIsExpansion i, hi]

/-- Settles O3: each word is the word of the instruction it is listed under. -/
theorem listedWordsDecode : Obligations.ListedWordsDecode := by
  refine ⟨?_, ?_, ?_, ?_, ?_, ?_, ?_, ?_, ?_⟩ <;> exact decode_of_encode_eq (by decide) rfl

/-! ## Pseudo-instructions -/

/-- Adding to `x0` is copying (R136). -/
theorem aluAdd_zero_left (b : Word) : (aluAdd 0#32 b).result = b := by
  simp [aluAdd, summed]

/-- Exclusive or with the immediate -1 is the complement (R139). -/
theorem aluXor_imm12_ones (a : Word) : aluXor a (imm12 0xFFF#12) = plain (~~~a) := by
  have hones : imm12 0xFFF#12 = BitVec.allOnes 32 := by decide
  rw [aluXor, hones, BitVec.xor_allOnes]

/-- A pseudo-instruction does what the first class instruction does that it stands for (R93). Only `not` and `b xs` need an
argument: the others are described by the same operation. -/
theorem exec_expand (p : Instr) (s : State) : exec p.expand s = exec p s := by
  cases p
  case notI d r f c =>
    exact congrArg (fun out => aluInstr out d f c s) (aluXor_imm12_ones (s.readReg r))
  case bxsR x c =>
    have hcopy : (aluAdd (s.readReg 0#4) (s.readReg x)).result = s.readReg x := aluAdd_zero_left _
    change guarded c s (fun t => .next (t.advance.writeReg 15#4 (aluAdd (s.readReg 0#4) (s.readReg x)).result)) =
      guarded c s fun t => .next (t.advance.writeReg 15#4 (t.readReg x))
    rw [hcopy]
    rfl
  all_goals rfl

/-- The word of a pseudo-instruction is the word of what it stands for: it decodes to that, and a word is the word of what
it decodes to (R93). -/
theorem encode_expand (p : Instr) : encode p.expand = encode p :=
  encodeOfDecodeIsTheWord _ _ (decodeOfEncodeIsExpansion p)

/-- Settles O41: every pair of the list is an instruction and its `expand`. -/
theorem pseudoIsItsTranslation : Obligations.PseudoIsItsTranslation := by
  refine ⟨fun c => ⟨decodeOfEncodeIsExpansion (.brkR c), opField_wordR .., sField_wordR ..⟩, ?_⟩
  intro d r x f c i16 i12 p i hlisted
  obtain rfl : p.expand = i := by
    simp only [List.mem_cons, Prod.mk.injEq, List.not_mem_nil, or_false] at hlisted
    rcases hlisted with ⟨rfl, rfl⟩ | ⟨rfl, rfl⟩ | ⟨rfl, rfl⟩ | ⟨rfl, rfl⟩ | ⟨rfl, rfl⟩ | ⟨rfl, rfl⟩ | ⟨rfl, rfl⟩ |
      ⟨rfl, rfl⟩ | ⟨rfl, rfl⟩
    all_goals rfl
  exact ⟨(encode_expand p).symm, decodeOfEncodeIsExpansion p, fun s => (exec_expand p s).symm⟩

/-! ## Branches to labels -/

/-- The numbers that fit the 20-bit field (R75). -/
theorem fits_twenty {n : Int} : Assembler.fits 20 n = true ↔ -524288 ≤ n ∧ n < 524288 := by
  simp [Assembler.fits]

/-- A number that fits the 20-bit field reads back from it (R75, R95). -/
theorem imm20_ofInt {n : Int} (h : Assembler.fits 20 n = true) : imm20 (BitVec.ofInt 20 n) = wrap n := by
  obtain ⟨hlo, hhi⟩ : -524288 ≤ n ∧ n < 524288 := fits_twenty.1 h
  have hfield : (BitVec.ofInt 20 n).toInt = n := by
    rw [BitVec.toInt_ofInt]
    exact Int.bmod_eq_of_le (by omega) (by omega)
  rw [imm20, BitVec.signExtend, hfield, wrap]

/-- The offset to a label of the program ROM fits the 20-bit field from anywhere in it (R95). -/
theorem fits_labelOffset {A T : Nat} (hA : A < 4096) (hT : T < 4096) :
    Assembler.fits 20 (Assembler.labelOffset A T) = true := by
  rw [fits_twenty, Assembler.labelOffset]
  omega

/-- The offset an assembler computes is the one with which the branch reaches the label (R95, R190). -/
theorem branchTarget_labelOffset (A T : Word) : branchTarget A (wrap (Assembler.labelOffset A.toNat T.toNat)) = T :=
  calc branchTarget A (wrap (Assembler.labelOffset A.toNat T.toNat))
    _ = wrap (A.toNat + 3 + Assembler.labelOffset A.toNat T.toNat) := by
      simp [branchTarget, Config.pcReadAhead, wrap, BitVec.ofInt_add]
    _ = wrap T.toNat := by rw [Assembler.labelOffset, add_sub_cancel]
    _ = T := by simp [wrap]

/-- Settles O58: the offset fits, so the line assembles to `bL`, and the branch adds what the assembler took off. -/
theorem assembledBranchReachesItsLabel : Obligations.AssembledBranchReachesItsLabel := by
  intro s f c T hc hpc hT
  have hfits := fits_labelOffset hpc hT
  refine ⟨.bL (BitVec.ofInt 20 (Assembler.labelOffset s.pc.toNat T.toNat)) f c, ?_, _, guarded_of_holds _ hc, ?_⟩
  · simp only [Assembler.assemble, Assembler.field, hfits, if_true, Option.map_some]
  · change branchTarget s.pc (imm20 _) = T
    rw [imm20_ofInt hfits, branchTarget_labelOffset]

/-! ## The L-type words of the twelve operations -/

/-- An instruction that runs as an ALU answer under its condition has the effect the answer says (R120). -/
theorem aluEffect_of_answer {i : Instr} {s : State} {out : AluOut} {d : Reg} {f : Bool} {c : Cond} {w : Word} {v e : Bool}
    (hc : condHolds c s.flags = true) (hout : out = ⟨w, v, e⟩) (hexec : exec i s = aluInstr out d f c s) :
    AluEffect i s d f w v e := by
  subst hout
  rw [AluEffect, Runs, hexec]
  exact aluInstr_effect hc

/-! What each operation answers where its first operand is 0, as in the formats without an `r` field (R76). -/

section
variable (p : AluParams) (b : Word)

theorem aluAdd_zero : aluAdd 0#32 b = plain b := by
  have hlo := b.le_toInt
  have hhi := b.toInt_lt
  have hfits : overflows b.toInt = false := by
    simp only [overflows, Bool.or_eq_false_iff, decide_eq_false_iff_not]
    omega
  simp [aluAdd, summed, plain, hfits]

theorem aluSbn_zero : aluSbn 0#32 b = plain b := by
  rw [← aluAdd_zero, aluSbn, aluAdd]
  simp

/-- Only the least word has a negative that is out of range (R122). -/
theorem aluSub_zero (hb : -2147483648 < b.toInt) : aluSub 0#32 b = plain (wrap (-b.toInt)) := by
  have hhi := b.toInt_lt
  have hfits : overflows (-b.toInt) = false := by
    simp only [overflows, Bool.or_eq_false_iff, decide_eq_false_iff_not]
    omega
  simp [aluSub, summed, plain, hfits]

theorem aluMul_zero : aluMul 0#32 b = plain 0 := by
  simp [aluMul, wrap]

theorem aluDiv_zero : aluDiv p 0#32 b = ⟨if b = 0 then p.div0 0 else 0, false, decide (b = 0)⟩ := by
  by_cases hb : b = 0#32
  · simp [aluDiv, hb]
  · simp [aluDiv, hb, plain, wrap]

theorem aluMod_zero : aluMod p 0#32 b = ⟨if b = 0 then p.mod0 0 else 0, false, decide (b = 0)⟩ := by
  by_cases hb : b = 0#32
  · simp [aluMod, hb]
  · simp [aluMod, hb, plain, wrap]

theorem aluExp_zero :
    aluExp p 0#32 b = plain (if b = 0 then 1 else if 0 < b.toInt then 0 else p.expNeg 0 b) := by
  by_cases hb : b = 0#32
  · subst hb
    simp [aluExp, powWord_eq]
  · have hne : b.toNat ≠ 0 := fun h => hb (BitVec.eq_of_toNat_eq h)
    have hnz : b.toInt ≠ 0 := fun h => hb (BitVec.eq_of_toInt_eq h)
    have hpow : powWord 32 0#32 b.toNat = 0#32 := by
      rw [powWord_eq 32 _ _ b.isLt]
      exact zero_pow hne
    by_cases hpos : 0 < b.toInt
    · simp [aluExp, hb, hpos, hpos.le, hpow]
    · have hneg : ¬ 0 ≤ b.toInt := by omega
      simp [aluExp, hb, hpos, hneg]

theorem aluShl_zero : aluShl p 0#32 b = plain (if b.toNat ≤ 31 then 0 else p.shiftWide .left 0 b) := by
  unfold aluShl
  split_ifs <;> simp

theorem aluShr_zero : aluShr p 0#32 b = plain (if b.toNat ≤ 31 then 0 else p.shiftWide .right 0 b) := by
  unfold aluShr
  split_ifs <;> simp

theorem aluAnd_zero : aluAnd 0#32 b = plain 0 := by
  simp [aluAnd]

theorem aluOrr_zero : aluOrr 0#32 b = plain b := by
  simp [aluOrr]

theorem aluXor_zero : aluXor 0#32 b = plain b := by
  simp [aluXor]

end

/-- A 20-bit immediate is well above the least word (R75). -/
theorem imm20_toInt_gt (imm : BitVec 20) : -2147483648 < (imm20 imm).toInt := by
  have hlo := imm.le_toInt
  rw [imm20, BitVec.toInt_signExtend_of_le (by decide)]
  omega

/-- Settles O40: the L-type word of an operation answers with the operation on 0 and the immediate, and writes the answer to
`x0`. -/
theorem reservedAluWordsWriteFlagsOnly : Obligations.ReservedAluWordsWriteFlagsOnly := by
  rintro s f c imm b hc rfl
  exact ⟨aluEffect_of_answer hc (aluAdd_zero _) rfl,
    aluEffect_of_answer hc (aluSub_zero _ (imm20_toInt_gt imm)) rfl,
    aluEffect_of_answer hc (aluSbn_zero _) rfl,
    aluEffect_of_answer hc (aluMul_zero _) rfl,
    aluEffect_of_answer hc (aluDiv_zero _ _) rfl,
    aluEffect_of_answer hc (aluMod_zero _ _) rfl,
    aluEffect_of_answer hc (aluExp_zero _ _) rfl,
    aluEffect_of_answer hc (aluShl_zero _ _) rfl,
    aluEffect_of_answer hc (aluShr_zero _ _) rfl,
    aluEffect_of_answer hc (aluAnd_zero _) rfl,
    aluEffect_of_answer hc (aluOrr_zero _) rfl,
    aluEffect_of_answer hc (aluXor_zero _) rfl⟩

end Sys2Proof.Proofs
end

section
/-!
Conditions and flags (spec/40_conditions_flags.md R100 to R107): the table of conditions, the instruction whose condition is
false, the word with condition 1111, and what the conditions say after `cmp`.
-/
namespace Sys2Proof.Proofs
open Sys2Proof Sys2Proof.Machine

/-! ## What the compound conditions test -/

section
variable (fl : Flags)

/-- The signed "less": the two flags differ (R100). -/
theorem condHolds_lt : condHolds .lt fl = decide (fl.n ≠ fl.v) := by
  simp [condHolds, bne, Bool.beq_eq_decide_eq]

/-- The signed "less or equal" (R100). -/
theorem condHolds_le : condHolds .le fl = decide (fl.z = true ∨ fl.n ≠ fl.v) := by
  simp [condHolds, bne, Bool.beq_eq_decide_eq]

/-- The signed "greater" (R100). -/
theorem condHolds_gt : condHolds .gt fl = decide (fl.z = false ∧ fl.n = fl.v) := by
  simp [condHolds, Bool.beq_eq_decide_eq]

/-- The signed "greater or equal": the two flags agree (R100). -/
theorem condHolds_ge : condHolds .ge fl = decide (fl.n = fl.v) := by
  simp [condHolds, Bool.beq_eq_decide_eq]

/-- The sign of the result and the signed "less" part company exactly where `V` is set (R107). -/
theorem ng_ne_lt_iff_vs : condHolds .ng fl ≠ condHolds .lt fl ↔ condHolds .vs fl = true := by
  simp only [condHolds]
  cases fl.n <;> cases fl.v <;> decide

/-- So do their complements (R107). -/
theorem pz_ne_ge_iff_vs : condHolds .pz fl ≠ condHolds .ge fl ↔ condHolds .vs fl = true := by
  simp only [condHolds]
  cases fl.n <;> cases fl.v <;> decide

end

/-! ## The condition codes -/

/-- The codes 13 and 14 name no condition (R101; `reserved_of_cond_ofBits_eq_none` is the converse). -/
theorem cond_ofBits_of_reserved {b : BitVec 4} (h : b ∈ [13, 14]) : Cond.ofBits b = none := by
  revert b; decide

/-- Settles O7: the decoder looks at the condition first, so a code that names none refuses the word; the other codes name
conditions whose tests are those of `condHolds`. -/
theorem conditionCodeTable : Obligations.ConditionCodeTable := by
  refine ⟨fun w hcode => refusedByCore_of_decode ?_, ?_⟩
  · rw [decode, cond_ofBits_of_reserved hcode]
  · rintro z n v e _ rfl
    exact ⟨rfl, rfl, rfl, rfl, rfl, congrArg some (condHolds_lt _), congrArg some (condHolds_le _),
      congrArg some (condHolds_gt _), congrArg some (condHolds_ge _), rfl, rfl, rfl, rfl, rfl, rfl, rfl⟩

/-! ## A condition that is false -/

/-- Settles O8: `exec_of_condition_fails`, where `State.advance` is written out. -/
theorem falseConditionOnlyAdvances : Obligations.FalseConditionOnlyAdvances :=
  fun _ _ hfails => exec_of_condition_fails hfails

/-- The word of an instruction carries its condition: `encode` makes every word by one of the four formats (R78). -/
theorem condField_encode (i : Instr) : condField (encode i) = i.condOf.toBits := by
  cases i <;> simp only [encode, Instr.condOf, condField_wordR, condField_wordI, condField_wordA, condField_wordL]

/-- The condition of an instruction is the one of the word it was decoded from (R78, R100). -/
theorem condField_of_decode {w : Word} {i : Instr} (h : decode w = .ok i) : condField w = i.condOf.toBits := by
  rw [← condField_encode, encodeOfDecodeIsTheWord w i h]

/-- Only `never` has the code 1111 (R101). -/
theorem eq_never_of_toBits {c : Cond} (h : c.toBits = 15#4) : c = .never := by
  revert h; cases c <;> decide

/-- The core only advances on a word with condition 1111: if the word decodes, the instruction's condition is false; if it
is reserved, the core takes it for a `nop` all the same (R101; log 13). -/
theorem coreStep_of_never {s : State} (h : condField (fetch s.mem s.pc) = 15#4) : coreStep s = .next s.advance := by
  cases hd : decode (fetch s.mem s.pc) with
  | ok i =>
    have hnever : i.condOf = .never := eq_never_of_toBits ((condField_of_decode hd).symm.trans h)
    rw [coreStep_of_decode hd]
    exact exec_of_condition_fails (by rw [hnever]; rfl)
  | error why => simp only [coreStep, hd, reservedOutcome, if_pos h]

/-- Settles O9: the core's turn is a core step on the same word, and that only advances. -/
theorem neverConditionIsNop : Obligations.NeverConditionIsNop := by
  intro s hturn hrunning hnever
  have hfetched : condField (fetch s.takeTurn.mem s.takeTurn.pc) = 15#4 := by
    rwa [State.takeTurn_mem, State.takeTurn_pc]
  calc step s = coreStep s.takeTurn := step_of_core hturn hrunning
    _ = .next s.takeTurn.advance := coreStep_of_never hfetched

/-! ## The flags of a difference -/

/-- The flags `cmp` writes for the operands `a`, `b` (R103, R137). -/
def cmpFlags (a b : Word) : Flags := resultFlags (aluSub a b).result (aluSub a b).v (aluSub a b).e

/-- Where its condition holds, a subtraction into `x0` writes the flags and advances, nothing else (R11, R137). -/
theorem aluInstr_sub_noDest {c : Cond} {s : State} (hc : condHolds c s.flags = true) (a b : Word) :
    aluInstr (aluSub a b) noDest true c s = .next { s.advance with flags := cmpFlags a b } :=
  guarded_of_holds _ hc

/-- Wrapping an integer less than 2^32 away from 0 takes 2^32 off it, adds 2^32, or leaves it as it is (R6). -/
theorem toInt_wrap_of_lt {x : Int} (hlo : -2 ^ 32 < x) (hhi : x < 2 ^ 32) :
    (wrap x).toInt = if x < -2 ^ 31 then x + 2 ^ 32 else if 2 ^ 31 - 1 < x then x - 2 ^ 32 else x := by
  simp only [wrap, BitVec.toInt_ofInt, Int.bmod_def]
  split_ifs <;> omega

/-- Wrapping changes the sign exactly where it overflows: the sign after it and the overflow bit differ exactly where the
integer itself is negative (R107). -/
theorem sign_ne_overflows_iff_neg {x : Int} (hlo : -2 ^ 32 < x) (hhi : x < 2 ^ 32) :
    ¬((wrap x).toInt < 0 ↔ overflows x = true) ↔ x < 0 := by
  rw [toInt_wrap_of_lt hlo hhi]
  simp only [overflows, Bool.or_eq_true, decide_eq_true_eq]
  split_ifs <;> omega

section
variable (a b : Word)

/-- The result of `sub` is the difference of the words (R122). -/
theorem aluSub_result : (aluSub a b).result = a - b := by
  apply BitVec.eq_of_toInt_eq
  rw [aluSub, summed, wrap, BitVec.toInt_ofInt, BitVec.toInt_sub]

theorem cmpFlags_z : (cmpFlags a b).z = true ↔ a = b := by
  rw [cmpFlags, resultFlags_z, aluSub_result]
  exact sub_eq_zero

theorem cmpFlags_n : (cmpFlags a b).n = true ↔ (a - b).toInt < 0 := by
  rw [cmpFlags, resultFlags_n, aluSub_result]

/-- `N ≠ V` is the sign of the exact difference (R107). -/
theorem cmpFlags_n_ne_v : (cmpFlags a b).n ≠ (cmpFlags a b).v ↔ a.toInt < b.toInt := by
  have haLo := a.le_toInt
  have haHi := a.toInt_lt
  have hbLo := b.le_toInt
  have hbHi := b.toInt_lt
  calc (cmpFlags a b).n ≠ (cmpFlags a b).v
    _ ↔ ¬((wrap (a.toInt - b.toInt)).toInt < 0 ↔ overflows (a.toInt - b.toInt) = true) := by
      rw [← resultFlags_n _ (overflows (a.toInt - b.toInt)) false, ← Bool.eq_iff_iff]; rfl
    _ ↔ a.toInt - b.toInt < 0 := sign_ne_overflows_iff_neg (by omega) (by omega)
    _ ↔ a.toInt < b.toInt := sub_neg

/-! ## What the conditions say after `cmp` -/

theorem cmp_eq_iff : condHolds .eq (cmpFlags a b) = true ↔ a = b := cmpFlags_z a b

theorem cmp_ne_iff : condHolds .ne (cmpFlags a b) = true ↔ a ≠ b := by
  rw [condHolds, Bool.not_eq_true', ← Bool.not_eq_true, cmpFlags_z]

theorem cmp_lt_iff : condHolds .lt (cmpFlags a b) = true ↔ a.toInt < b.toInt := by
  rw [condHolds_lt, decide_eq_true_iff, cmpFlags_n_ne_v]

theorem cmp_le_iff : condHolds .le (cmpFlags a b) = true ↔ a.toInt ≤ b.toInt := by
  rw [condHolds_le, decide_eq_true_iff, cmpFlags_n_ne_v, cmpFlags_z, ← BitVec.toInt_inj, or_comm, le_iff_lt_or_eq]

theorem cmp_gt_iff : condHolds .gt (cmpFlags a b) = true ↔ a.toInt > b.toInt := by
  rw [gt_iff_lt, ← not_le, ← cmp_le_iff, condHolds_gt, condHolds_le, decide_eq_true_iff, decide_eq_true_iff, not_or,
    not_not, Bool.not_eq_true]

theorem cmp_ge_iff : condHolds .ge (cmpFlags a b) = true ↔ a.toInt ≥ b.toInt := by
  rw [ge_iff_le, ← not_lt, ← cmpFlags_n_ne_v, not_not, condHolds_ge, decide_eq_true_iff]

theorem cmp_ng_iff : condHolds .ng (cmpFlags a b) = true ↔ (a - b).toInt < 0 := cmpFlags_n a b

theorem cmp_pz_iff : condHolds .pz (cmpFlags a b) = true ↔ 0 ≤ (a - b).toInt := by
  rw [condHolds, Bool.not_eq_true', ← Bool.not_eq_true, cmpFlags_n, not_lt]

end

/-- Both forms of `cmp` write the flags of the difference of their operands and advance, nothing else (R137). -/
theorem exec_cmp {s : State} {r : Reg} {c : Cond} {i : Instr} {b : Word} (hc : condHolds c s.flags = true)
    (hi : (∃ x, i = .cmpR r x c ∧ b = s.readReg x) ∨ (∃ imm, i = .cmpI r imm c ∧ b = imm.signExtend 32)) :
    exec i s = .next { s.advance with flags := cmpFlags (s.readReg r) b } := by
  rcases hi with ⟨x, rfl, rfl⟩ | ⟨imm, rfl, rfl⟩ <;> exact aluInstr_sub_noDest hc _ _

/-- Settles O10: `exec_cmp`, whose flags the lemmas above read. -/
theorem compareThenConditions : Obligations.CompareThenConditions := by
  intro s r c hc i b hi
  exact ⟨_, exec_cmp hc hi, ⟨rfl, rfl⟩, ⟨rfl, rfl, rfl⟩, fun _ => rfl, cmp_eq_iff _ _, cmp_ne_iff _ _, cmp_lt_iff _ _,
    cmp_le_iff _ _, cmp_gt_iff _ _, cmp_ge_iff _ _, cmp_ng_iff _ _, cmp_pz_iff _ _, ng_ne_lt_iff_vs _, pz_ne_ge_iff_vs _,
    rfl⟩

end Sys2Proof.Proofs
end

section
/-!
Arithmetic and logic (spec/41_alu.md R120 to R132, R136 to R139, 43_branch.md R192): what each of the twelve operations
answers, that its three formats do what it answers, and the pseudo-instructions made of them.
-/
namespace Sys2Proof.Proofs
open Sys2Proof Sys2Proof.Machine

/-! ## From an operation to its three formats -/

/-- What an operation answers on its two operands, under the parameters of the machine (R4, R81). -/
def aluAnswer (op : AluOp) (a b : Word) : AluOut :=
  match op with
  | .add => aluAdd a b | .sub => aluSub a b | .sbn => aluSbn a b
  | .mul => aluMul a b | .div => aluDiv Config.alu a b | .mod => aluMod Config.alu a b
  | .exp => aluExp Config.alu a b | .shl => aluShl Config.alu a b | .shr => aluShr Config.alu a b
  | .and => aluAnd a b | .orr => aluOrr a b | .xor => aluXor a b

section
variable (op : AluOp) (d : Reg) (f : Bool) (c : Cond) (s : State)

/-- The operands of the R-type are two registers (R71, R120). -/
theorem exec_aluR (r x : Reg) :
    exec (aluR op d r x f c) s = aluInstr (aluAnswer op (s.readReg r) (s.readReg x)) d f c s := by
  cases op <;> rfl

/-- The second operand of the I-type is the immediate (R72, R75). -/
theorem exec_aluI (r : Reg) (imm : BitVec 12) :
    exec (aluI op d r imm f c) s = aluInstr (aluAnswer op (s.readReg r) (imm.signExtend 32)) d f c s := by
  cases op <;> rfl

/-- The first operand of the A-type is 0 (R73, R76). -/
theorem exec_aluA (imm : BitVec 16) :
    exec (aluA op d imm f c) s = aluInstr (aluAnswer op 0#32 (imm.signExtend 32)) d f c s := by
  cases op <;> rfl

end

/-- What an operation answers is what its three formats do (R120). -/
theorem aluFamily_of_answer (op : AluOp) {result : Word → Word → Word} {v e : Word → Word → Bool}
    (h : ∀ a b, aluAnswer op a b = ⟨result a b, v a b, e a b⟩) :
    AluFamily (aluR op) (aluI op) (aluA op) result v e := fun s f c hc =>
  ⟨fun d r x => aluEffect_of_answer hc (h _ _) (exec_aluR op d f c s r x),
    fun d r imm => aluEffect_of_answer hc (h _ _) (exec_aluI op d f c s r imm),
    fun d imm => aluEffect_of_answer hc (h _ _) (exec_aluA op d f c s imm)⟩

/-! ## Words and integers -/

/-- The model's range check is the one of the claims (R104). -/
theorem overflows_eq_outOfRange (n : Int) : overflows n = outOfRange n := by
  simp [overflows, Bool.decide_or]

/-- The word of a sum is the sum of the words (R6). -/
theorem wrap_add (m n : Int) : wrap (m + n) = wrap m + wrap n := BitVec.ofInt_add m n

/-- The word of a natural number (R6). -/
theorem wrap_natCast (n : Nat) : wrap n = BitVec.ofNat 32 n := BitVec.ofInt_natCast 32 n

/-- A word that is not negative reads the same signed and unsigned (R5). -/
theorem toNat_toInt_of_nonneg {b : Word} (h : 0 ≤ b.toInt) : b.toInt.toNat = b.toNat := by
  rw [BitVec.toInt_eq_toNat_of_msb (BitVec.msb_eq_false_iff_two_mul_lt.2 (BitVec.toInt_pos_iff.1 h)), Int.toNat_natCast]

/-- A word is given by its 32 bits. -/
theorem eq_ofFnLE_of_bits {w : Word} {bit : Fin 32 → Bool} (h : ∀ k : Fin 32, w.getLsbD k = bit k) :
    w = BitVec.ofFnLE bit := by
  ext k hk
  rw [BitVec.getElem_ofFnLE, ← h ⟨k, hk⟩, BitVec.getLsbD_eq_getElem hk]

/-! ## Sums, differences, products -/

/-- An operation that can overflow answers the wrapped integer and whether it is out of range (R121 to R123). -/
theorem summed_eq (n : Int) : summed n = ⟨wrap n, outOfRange n, false⟩ := by
  rw [summed, overflows_eq_outOfRange]

/-- Settles O30: `add` answers with its exact sum. -/
theorem addIsTheWrappedSum : Obligations.AddIsTheWrappedSum :=
  aluFamily_of_answer .add fun _ _ => summed_eq _

/-- Settles O31: `sub` and `sbn` answer with their exact differences. -/
theorem subAndSbnAreTheWrappedDifferences : Obligations.SubAndSbnAreTheWrappedDifferences :=
  ⟨aluFamily_of_answer .sub fun _ _ => summed_eq _, aluFamily_of_answer .sbn fun _ _ => summed_eq _⟩

/-- Modulo 2^32 the signed and the unsigned reading give the same product (R124). -/
theorem wrap_mul_toInt_eq_ofNat (a b : Word) : wrap (a.toInt * b.toInt) = BitVec.ofNat 32 (a.toNat * b.toNat) :=
  calc wrap (a.toInt * b.toInt)
    _ = a * b := by rw [wrap_mul, wrap_toInt, wrap_toInt]
    _ = BitVec.ofNat 32 (a.toNat * b.toNat) := by
      rw [BitVec.ofNat_mul, BitVec.ofNat_toNat, BitVec.ofNat_toNat, BitVec.setWidth_eq, BitVec.setWidth_eq]

/-- Settles O32: the model multiplies the signed readings. -/
theorem mulIsTheLowProduct : Obligations.MulIsTheLowProduct :=
  ⟨aluFamily_of_answer .mul fun _ _ => rfl,
    aluFamily_of_answer .mul fun a b => congrArg plain (wrap_mul_toInt_eq_ofNat a b)⟩

/-! ## Quotients and remainders -/

section
variable (m n : Int)

/-- The quotient rounded toward zero: that of the absolute values, negative where the signs differ (R125). -/
theorem tdiv_eq_natAbs_div :
    m.tdiv n = if m < 0 ↔ n < 0 then ((m.natAbs / n.natAbs : Nat) : Int) else -((m.natAbs / n.natAbs : Nat) : Int) := by
  rw [Int.ofNat_tdiv]
  rcases lt_or_ge m 0 with hm | hm <;> rcases lt_or_ge n 0 with hn | hn
  · simp [hm, hn, Int.ofNat_natAbs_of_nonpos hm.le, Int.ofNat_natAbs_of_nonpos hn.le]
  · simp [hm, hn.not_gt, Int.ofNat_natAbs_of_nonpos hm.le, Int.natAbs_of_nonneg hn]
  · simp [hm.not_gt, hn, Int.natAbs_of_nonneg hm, Int.ofNat_natAbs_of_nonpos hn.le]
  · simp [hm.not_gt, hn.not_gt, Int.natAbs_of_nonneg hm, Int.natAbs_of_nonneg hn]

/-- The remainder of that quotient: that of the absolute values, with the sign of the dividend (R126). -/
theorem tmod_eq_natAbs_mod :
    m.tmod n = if m < 0 then -((m.natAbs % n.natAbs : Nat) : Int) else ((m.natAbs % n.natAbs : Nat) : Int) := by
  rw [← Int.natAbs_tmod]
  split_ifs with hm
  · have := Int.tmod_nonneg n (neg_nonneg.2 hm.le)
    rw [Int.neg_tmod] at this
    omega
  · have := Int.tmod_nonneg n (not_lt.1 hm)
    omega

end

/-- A remainder is smaller than its divisor (R126). -/
theorem natAbs_tmod_lt {m n : Int} (hn : n ≠ 0) : (m.tmod n).natAbs < n.natAbs := by
  rw [Int.natAbs_tmod]
  exact Nat.mod_lt _ (Int.natAbs_pos.2 hn)

section
variable {p : AluParams} {a b : Word}

/-- The one pair whose quotient does not fit, read signed (R125). -/
theorem overflowPair_iff : a = 0x80000000#32 ∧ b = 0xFFFFFFFF#32 ↔ a.toInt = -2147483648 ∧ b.toInt = -1 := by
  rw [← BitVec.toInt_inj, ← BitVec.toInt_inj]
  rfl

/-- `div` on a zero divisor (R125). -/
theorem aluDiv_of_zero : aluDiv p a 0#32 = ⟨p.div0 a, false, true⟩ := if_pos rfl

/-- `div` on the pair whose quotient does not fit (R125). -/
theorem aluDiv_of_overflow (hb : b ≠ 0#32) (h : a = 0x80000000#32 ∧ b = 0xFFFFFFFF#32) :
    aluDiv p a b = plain p.divOvf := by
  rw [aluDiv, if_neg hb, if_pos h]

/-- `div` everywhere else (R125). -/
theorem aluDiv_of_fits (hb : b ≠ 0#32) (h : ¬(a = 0x80000000#32 ∧ b = 0xFFFFFFFF#32)) :
    aluDiv p a b = plain (wrap (a.toInt.tdiv b.toInt)) := by
  rw [aluDiv, if_neg hb, if_neg h]

/-- `mod` on a zero divisor (R126). -/
theorem aluMod_of_zero : aluMod p a 0#32 = ⟨p.mod0 a, false, true⟩ := if_pos rfl

/-- `mod` everywhere else (R126). -/
theorem aluMod_of_ne_zero (hb : b ≠ 0#32) : aluMod p a b = plain (wrap (a.toInt.tmod b.toInt)) := by
  rw [aluMod, if_neg hb, Int.tmod_def, mul_comm]

end

/-- Settles O33: the three cases of `div` are those of the claim, read signed. -/
theorem divTruncatesAndFlagsZeroDivisor : Obligations.DivTruncatesAndFlagsZeroDivisor := by
  refine aluFamily_of_answer .div fun a b => ?_
  change aluDiv Config.alu a b = _
  by_cases hb : b = 0
  · subst hb
    exact aluDiv_of_zero
  · by_cases hpair : a = 0x80000000#32 ∧ b = 0xFFFFFFFF#32
    · rw [aluDiv_of_overflow hb hpair]
      simp only [plain, clear, hb, overflowPair_iff.1 hpair, and_self, if_true, if_false, decide_false]
    · rw [aluDiv_of_fits hb hpair, tdiv_eq_natAbs_div, apply_ite wrap]
      simp only [plain, clear, hb, mt overflowPair_iff.2 hpair, if_false, decide_false]

/-- Settles O34: the remainder is the model's by `Int.tmod_def`, and its sign that of the dividend. -/
theorem modIsTheTruncatingRemainder : Obligations.ModIsTheTruncatingRemainder := by
  refine aluFamily_of_answer .mod fun a b => ?_
  change aluMod Config.alu a b = _
  by_cases hb : b = 0
  · subst hb
    exact aluMod_of_zero
  · rw [aluMod_of_ne_zero hb, tmod_eq_natAbs_mod, apply_ite wrap]
    simp only [plain, clear, hb, if_false, decide_false]

/-- A nonzero word has a nonzero signed value. -/
theorem toInt_ne_zero {b : Word} (hb : b ≠ 0#32) : b.toInt ≠ 0 := fun h => hb (BitVec.eq_of_toInt_eq h)

/-- A remainder fits a word: wrapping does not change it (R126). -/
theorem toInt_wrap_tmod (a : Word) {b : Word} (hb : b ≠ 0#32) :
    (wrap (a.toInt.tmod b.toInt)).toInt = a.toInt.tmod b.toInt := by
  have hlt := natAbs_tmod_lt (m := a.toInt) (toInt_ne_zero hb)
  have hlo := b.le_toInt
  have hhi := b.toInt_lt
  rw [toInt_wrap_of_lt (by omega) (by omega), if_neg (by omega), if_neg (by omega)]

/-- Settles O35: the identity holds for the integers and so for their words; the remainder fits a word, so its size and
sign are those of the integer. -/
theorem quotientAndRemainderRebuild : Obligations.QuotientAndRemainderRebuild := by
  intro a b hb hpair
  rw [aluDiv_of_fits hb hpair, aluMod_of_ne_zero hb]
  simp only [plain, toInt_wrap_tmod a hb]
  refine ⟨?_, natAbs_tmod_lt (toInt_ne_zero hb), ?_⟩
  · calc wrap (a.toInt.tdiv b.toInt) * b + wrap (a.toInt.tmod b.toInt)
      _ = wrap (a.toInt.tdiv b.toInt * b.toInt + a.toInt.tmod b.toInt) := by rw [wrap_add, wrap_mul, wrap_toInt]
      _ = a := by rw [Int.tdiv_mul_add_tmod, wrap_toInt]
  · by_cases hzero : a.toInt.tmod b.toInt = 0
    · exact .inl (by rw [hzero]; rfl)
    · refine .inr ?_
      rw [tmod_eq_natAbs_mod] at hzero ⊢
      split_ifs at hzero ⊢ <;> omega

/-! ## Powers and shifts -/

/-- Repeated squaring is the wrapped power of the signed readings (R127). -/
theorem powWord_eq_wrap_pow (a : Word) {b : Word} (h : 0 ≤ b.toInt) :
    powWord 32 a b.toNat = wrap (a.toInt ^ b.toInt.toNat) := by
  rw [powWord_eq 32 a _ b.isLt, pow_eq_wrap, toNat_toInt_of_nonneg h]

/-- Settles O36: repeated squaring is the power. -/
theorem expIsTheWrappedPower : Obligations.ExpIsTheWrappedPower := by
  refine aluFamily_of_answer .exp fun a b => ?_
  change aluExp Config.alu a b = plain _
  unfold aluExp
  split_ifs with h
  · rw [powWord_eq_wrap_pow a h]
  · rfl

/-- A logical shift to the left multiplies by a power of two (R128). -/
theorem shiftLeft_eq_wrap_mul (a : Word) (k : Nat) : a <<< k = wrap (a.toNat * 2 ^ k : Nat) := by
  rw [wrap_natCast]
  apply BitVec.eq_of_toNat_eq
  rw [BitVec.toNat_shiftLeft, Nat.shiftLeft_eq, BitVec.toNat_ofNat]

/-- Settles O37: up to 31 a shift is a product. -/
theorem shlMultipliesByAPowerOfTwo : Obligations.ShlMultipliesByAPowerOfTwo := by
  refine aluFamily_of_answer .shl fun a b => ?_
  change aluShl Config.alu a b = plain _
  unfold aluShl
  split_ifs
  · rw [shiftLeft_eq_wrap_mul]
  · rfl

/-- An arithmetic shift to the right divides by a power of two and rounds down (R129). -/
theorem sshiftRight_eq_wrap_fdiv (a : Word) (k : Nat) : a.sshiftRight k = wrap (a.toInt.fdiv (2 ^ k)) := by
  rw [BitVec.sshiftRight_eq, Int.shiftRight_eq_div_pow, Int.fdiv_eq_ediv_of_nonneg _ (by positivity), wrap, Nat.cast_pow,
    Nat.cast_ofNat]

/-- Settles O38: up to 31 a shift is a floor division. -/
theorem shrDividesByAPowerOfTwo : Obligations.ShrDividesByAPowerOfTwo := by
  refine aluFamily_of_answer .shr fun a b => ?_
  change aluShr Config.alu a b = plain _
  unfold aluShr
  split_ifs
  · rw [sshiftRight_eq_wrap_fdiv]
  · rfl

/-! ## Logic -/

/-- Settles O39: each bit of the answer is that of the operation. -/
theorem logicIsBitByBit : Obligations.LogicIsBitByBit :=
  ⟨aluFamily_of_answer .and fun _ _ => congrArg plain (eq_ofFnLE_of_bits fun _ => BitVec.getLsbD_and),
    aluFamily_of_answer .orr fun _ _ => congrArg plain (eq_ofFnLE_of_bits fun _ => BitVec.getLsbD_or),
    aluFamily_of_answer .xor fun _ _ => congrArg plain (eq_ofFnLE_of_bits fun _ => BitVec.getLsbD_xor)⟩

/-! ## Pseudo-instructions -/

/-- Settles O42: `mov` adds to 0, `not` answers the complement. -/
theorem movCopiesAndNotComplements : Obligations.MovCopiesAndNotComplements := fun _ _ _ _ hc =>
  ⟨fun _ => aluEffect_of_answer hc (aluAdd_zero _) rfl, fun _ => aluEffect_of_answer hc (aluAdd_zero _) rfl,
    fun _ => aluEffect_of_answer hc rfl rfl⟩

/-- A `nop` advances, and so does any instruction whose condition is false (R138). -/
theorem exec_nop (s : State) (c : Cond) : exec (.nopR c) s = .next s.advance := by
  rw [exec, execNopR]
  cases hc : condHolds c s.flags with
  | true => rw [guarded_of_holds _ hc]
  | false => rw [guarded_of_fails _ hc]

/-- The target of `b xs` is written to `x15`, which overrides the advance (R16, R192). -/
theorem exec_bxs {s : State} (x : Reg) {c : Cond} (hc : condHolds c s.flags = true) :
    exec (.bxsR x c) s = .next { s with pc := s.readReg x } := by
  rw [exec, execBxsR, guarded_of_holds _ hc, writeReg_fifteen]
  rfl

/-- Settles O43: `exec_nop` and `exec_bxs`. -/
theorem nopAndBranchToRegister : Obligations.NopAndBranchToRegister := fun s c =>
  ⟨exec_nop s c, fun x hc => exec_bxs x hc⟩

end Sys2Proof.Proofs
end

section
/-!
`ldr` and `str` in memory, `ldh`, and `push` and `pop` (spec/42_load_store.md R160 to R170). `push` and `pop` are described by
the same operations as the `str` and `ldr` they stand for, and what the claims say of them is read off those of `str` and
`ldr`.
-/
namespace Sys2Proof.Proofs
open Sys2Proof Sys2Proof.Machine

/-! ## Refused write-backs -/

/-- A modification of `x15` is refused before anything is done (R166). -/
theorem checkWriteback_of_pc {v : BitVec 7} (d : Reg) (hv : v ≠ 0#7) (rest : Host.Outcome State Fault Refusal) :
    checkWriteback d 15#4 v rest = .refused .writebackToPc := by
  rw [checkWriteback, if_neg hv, if_pos rfl]

/-- A modification of the register that is loaded or stored is refused before anything is done (R166). -/
theorem checkWriteback_of_same {x : Reg} {v : BitVec 7} (hv : v ≠ 0#7) (hx : x ≠ 15#4)
    (rest : Host.Outcome State Fault Refusal) : checkWriteback x x v rest = .refused .writebackSameRegister := by
  rw [checkWriteback, if_neg hv, if_neg hx, if_pos rfl]

section
variable {s : State} {c : Cond} {v : BitVec 7} (u f : Bool) (hc : condHolds c s.flags = true) (hv : v ≠ 0)
include hc hv

/-- An R-type load or store that is executed and modifies `x15` is refused (R166). -/
theorem exec_modify_pc (d : Reg) : exec (.ldrR d 15 v u f c) s = .refused .writebackToPc ∧
    exec (.strR d 15 v u c) s = .refused .writebackToPc := by
  rw [exec, exec, execLdrR, execStrR, guarded_of_holds _ hc, guarded_of_holds _ hc]
  exact ⟨checkWriteback_of_pc d hv _, checkWriteback_of_pc d hv _⟩

/-- An R-type load or store that is executed and modifies its data register is refused (R166). -/
theorem exec_modify_same {x : Reg} (hx : x ≠ 15) : exec (.ldrR x x v u f c) s = .refused .writebackSameRegister ∧
    exec (.strR x x v u c) s = .refused .writebackSameRegister := by
  rw [exec, exec, execLdrR, execStrR, guarded_of_holds _ hc, guarded_of_holds _ hc]
  exact ⟨checkWriteback_of_same hv hx _, checkWriteback_of_same hv hx _⟩

end

/-- Settles O50: `exec_modify_pc` and `exec_modify_same`; `pop` and `push` are the `ldr` and `str` that modify `sp`. -/
theorem writebackConflictsAreRefused : Obligations.WritebackConflictsAreRefused := by
  intro s d x v u f c hc hv
  refine ⟨?_, ?_, ?_, ?_⟩
  · rintro rfl
    exact exec_modify_pc u f hc hv d
  · rintro hx rfl
    exact exec_modify_same u f hc hv hx
  · exact (exec_modify_same (x := 13) (v := 1) false f hc (by decide) (by decide)).1
  · exact (exec_modify_same (x := 13) (v := 127) true f hc (by decide) (by decide)).2

/-! ## `ldr` from data ROM and RAM -/

/-- A load of a plainly readable word without modification (R47, R49, R161). -/
theorem loadAt_readable {a : Word} (d : Reg) (f : Bool) (s : State) (hread : isReadable a) :
    ∃ t, loadAt d a f s = .next t ∧ Loaded s t d f (s.mem.read a.toNat) ∧ SameElsewhere s t ∧ SameMemory s t := by
  rw [loadAt, memRead_of_readable hread]
  exact ⟨_, rfl, loaded_finishLoad s s.devTrace d f _, ⟨by simp, by simp, by simp⟩, fun b => by simp⟩

/-- A load of a plainly readable word with modification (R47, R49, R161, R164). -/
theorem loadModified_readable {d x : Reg} {v : BitVec 7} {u : Bool} (f : Bool) {s : State}
    (hok : v = 0 ∨ (d ≠ x ∧ x ≠ 15)) {a : Word} (ha : a = accessAddr (s.readReg x) v u) (hread : isReadable a) :
    ∃ t, loadModified d x (s.readReg x) v u f s = .next t ∧ LoadedModified s t d x f (s.mem.read a.toNat) v ∧
      SameElsewhere s t ∧ SameMemory s t := by
  rw [loadModified, ← ha, memRead_of_readable hread]
  exact ⟨_, rfl, loadedModified_finishLoad s s.devTrace f _ hok, ⟨by simp, by simp, by simp⟩, fun b => by simp⟩

/-- Settles O44: each form is, where its condition holds, a load with or without modification, and a plainly readable word
is answered without a change of the state (`loadAt_readable`, `loadModified_readable`). -/
theorem ldrLoadsTheWord : Obligations.LdrLoadsTheWord := by
  intro s f c hc
  refine ⟨fun d x v u a hok ha hread => ?_, fun d imm hread => ?_, fun imm hread => ?_⟩
  · obtain ⟨t, ht, hpost⟩ := loadModified_readable f hok ha hread
    exact ⟨t, (exec_ldrR_of_ok u f hc hok).trans ht, hpost⟩
  · obtain ⟨t, ht, hpost⟩ := loadAt_readable d f s hread
    exact ⟨t, (guarded_of_holds _ hc).trans ht, hpost⟩
  · obtain ⟨t, ht, hpost⟩ := loadAt_readable noDest f s hread
    exact ⟨t, (guarded_of_holds _ hc).trans ht, hpost⟩

/-! ## `str` to RAM -/

/-- A store to RAM without modification (R49, R162). -/
theorem storeAt_ram {a : Word} (w : Word) (s : State) (hram : regionOf a = .ram) :
    ∃ t, storeAt a w s = .next t ∧ OnlyAdvanced s t ∧ t.flags = s.flags ∧ SameElsewhere s t ∧
      ∀ b, t.mem.read b = if b = a.toNat then w else s.mem.read b := by
  rw [storeAt, memWrite_of_ram hram]
  exact ⟨_, rfl, ⟨rfl, rfl⟩, rfl, ⟨rfl, rfl, rfl⟩, WroteRam.read ⟨hram, rfl⟩⟩

/-- A store to RAM with modification (R49, R162, R164). -/
theorem storeModified_ram {x : Reg} {v : BitVec 7} {u : Bool} (w : Word) {s : State} (hx : v = 0#7 ∨ x ≠ 15#4)
    (hram : regionOf (accessAddr (s.readReg x) v u) = .ram) :
    ∃ t, storeModified x (s.readReg x) w v u s = .next t ∧ StoredModified s t x v ∧ SameElsewhere s t ∧
      ∀ b, t.mem.read b = if b = (accessAddr (s.readReg x) v u).toNat then w else s.mem.read b := by
  rw [storeModified, memWrite_of_ram hram]
  exact ⟨_, rfl, storedModified_writeBack s _ s.devTrace hx, ⟨by simp, by simp, by simp⟩,
    WroteRam.read ⟨hram, State.writeBack_mem ..⟩⟩

/-- Settles O46: each form is a store with or without modification, and in RAM that is one word written (`storeAt_ram`,
`storeModified_ram`). -/
theorem strStoresTheWord : Obligations.StrStoresTheWord := by
  intro s c hc
  refine ⟨fun d x v u hok hram => ?_, fun d imm hram => ?_, fun imm hram => ?_⟩
  · obtain ⟨t, ht, hpost⟩ := storeModified_ram (s.readReg d) (hok.imp id And.right) hram
    exact ⟨t, (exec_strR_of_ok u hc hok).trans ht, hpost⟩
  · obtain ⟨t, ht, hpost⟩ := storeAt_ram (s.readReg d) s hram
    exact ⟨t, (guarded_of_holds _ hc).trans ht, hpost⟩
  · obtain ⟨t, ht, hpost⟩ := storeAt_ram 0 s hram
    exact ⟨t, (guarded_of_holds _ hc).trans ht, hpost⟩

/-! ## `ldh` and the constants it builds -/

/-- The value of `ldh` is the operand's low half times 2^16 (R163). -/
theorem highHalf_toNat (b : Word) : (highHalf b).toNat = b.toNat % 65536 * 65536 := by
  have hlow : (b.extractLsb' 0 16).toNat = b.toNat % 65536 := by simp
  rw [highHalf, BitVec.toNat_append, hlow, Nat.shiftLeft_eq]
  simp

/-- Moving the low half up is a shift by sixteen, which drops the high half (R163). -/
theorem highHalf_eq_shiftLeft (b : Word) : highHalf b = b <<< 16 := by
  apply BitVec.eq_of_toNat_eq
  rw [highHalf_toNat, BitVec.toNat_shiftLeft, Nat.shiftLeft_eq]
  omega

/-- A 16-bit immediate is the low half of its extension, whatever its sign (R75). -/
theorem imm16_toNat_mod (imm : BitVec 16) : (imm16 imm).toNat % 65536 = imm.toNat := by
  have hlt := imm.isLt
  rw [imm16, BitVec.toNat_signExtend, BitVec.toNat_setWidth]
  split <;> omega

/-- The A-type puts all of its immediate above the sixteen zeros (R163). -/
theorem highHalf_imm16 (imm : BitVec 16) : highHalf (imm16 imm) = wrap (imm.toNat * 65536 : Nat) := by
  apply BitVec.eq_of_toNat_eq
  rw [highHalf_toNat, imm16_toNat_mod, wrap_natCast, BitVec.toNat_ofNat]
  omega

/-- `ldh` ends as a load does, with the half moved up for the word (R163). -/
theorem runs_of_loadHigh {i : Instr} {s : State} {d : Reg} {b w : Word} {f : Bool} (hexec : exec i s = loadHigh d b f s)
    (hw : highHalf b = w) : Runs i s fun t => Loaded s t d f w ∧ SameElsewhere s t ∧ SameMemory s t := by
  subst hw
  exact ⟨_, hexec, loaded_finishLoad s s.devTrace d f _, ⟨by simp, by simp, by simp⟩, fun a => by simp⟩

/-- Settles O52: the four formats differ in the operand only (`runs_of_loadHigh`). -/
theorem ldhMovesTheLowHalfUp : Obligations.LdhMovesTheLowHalfUp := by
  intro s f c hc
  refine ⟨fun d imm => ?_, fun d x => ?_, fun d imm => ?_, fun imm => ?_⟩
  · exact runs_of_loadHigh (guarded_of_holds _ hc) (highHalf_imm16 imm)
  · have hexec : exec (.ldhR d x f c) s = loadHigh d (s.readReg x) f s := by
      rw [exec, execLdhR, guarded_of_holds _ hc]
    exact runs_of_loadHigh hexec (highHalf_eq_shiftLeft (s.readReg x))
  · exact runs_of_loadHigh (guarded_of_holds _ hc) (highHalf_eq_shiftLeft (imm12 imm))
  · exact runs_of_loadHigh (guarded_of_holds _ hc) (highHalf_eq_shiftLeft (imm20 imm))

/-- A word whose low half is 0 is the number in its high half times 2^16. -/
theorem wrap_highHalf_mul_of_low_zero {w : Word} (hlow : w.toNat % 65536 = 0) :
    wrap ((w.extractLsb' 16 16).toNat * 65536 : Nat) = w := by
  have hlt := w.isLt
  have hhigh : (w.extractLsb' 16 16).toNat = w.toNat / 65536 := by
    rw [BitVec.extractLsb'_toNat, Nat.shiftRight_eq_div_pow]
    omega
  apply BitVec.eq_of_toNat_eq
  rw [wrap_natCast, BitVec.toNat_ofNat, hhigh]
  omega

/-- What is left of a constant after its sign-extended low half is taken off has a low half of 0 (R170). -/
theorem sub_lowPart_toNat_mod (C : Word) : (C - imm16 (C.extractLsb' 0 16)).toNat % 65536 = 0 := by
  have hlow := imm16_toNat_mod (C.extractLsb' 0 16)
  have hlt := (imm16 (C.extractLsb' 0 16)).isLt
  rw [BitVec.extractLsb'_toNat, Nat.shiftRight_zero] at hlow
  rw [BitVec.toNat_sub]
  omega

/-- A register that holds a value has it after it is written. -/
theorem get_of_wrote_self {s t : State} {d : Reg} {w : Word} (h : Wrote s t d w) (h0 : d ≠ 0) (h15 : d ≠ 15) :
    t.regs.get d = w := by
  rw [h.1 d h15]
  exact if_pos ⟨rfl, h0⟩

/-- Every other register of the file has what it had. -/
theorem get_of_wrote_other {s t : State} {d q : Reg} {w : Word} (h : Wrote s t d w) (h15 : q ≠ 15) (hne : q ≠ d) :
    t.regs.get q = s.regs.get q := by
  rw [h.1 q h15]
  exact if_neg fun hq => hne hq.1

/-- Settles O53: `ldh` and `mov` bring the two parts into the two registers, which `add` puts together. -/
theorem threeInstructionsBuildAConstant : Obligations.ThreeInstructionsBuildAConstant := by
  intro s C p q hp0 hp15 hq0 hq15 hpq
  have hhigh := wrap_highHalf_mul_of_low_zero (sub_lowPart_toNat_mod C)
  obtain ⟨t, ht, ⟨hldh, _⟩, _⟩ := (ldhMovesTheLowHalfUp s false .always rfl).1 p
    ((C - imm16 (C.extractLsb' 0 16)).extractLsb' 16 16)
  obtain ⟨u, hu, hmov, _⟩ := (movCopiesAndNotComplements t q false .always rfl).2.1 (C.extractLsb' 0 16)
  obtain ⟨w, hw, hadd, _⟩ := (addIsTheWrappedSum u false .always rfl).1 p p q
  have hup : u.readReg p = C - imm16 (C.extractLsb' 0 16) := by
    rw [State.readReg_of_ne hp15, get_of_wrote_other hmov hp15 hpq, get_of_wrote_self hldh hp0 hp15, hhigh]
  have huq : u.readReg q = imm16 (C.extractLsb' 0 16) := by
    rw [State.readReg_of_ne hq15, get_of_wrote_self hmov hq0 hq15]
    rfl
  refine ⟨t, ht, u, hu, w, hw, ?_⟩
  calc w.regs.get p
    _ = wrap ((u.readReg p).toInt + (u.readReg q).toInt) := get_of_wrote_self hadd hp0 hp15
    _ = u.readReg p + u.readReg q := by rw [wrap_add, wrap_toInt, wrap_toInt]
    _ = C := by rw [hup, huq, BitVec.sub_add_cancel]

/-! ## `push` and `pop` -/

/-- A register file is given by what its registers hold. -/
theorem regs_ext {g h : Regs} (heq : ∀ q : Reg, q ≠ 15 → g.get q = h.get q) : g = h := by
  cases g
  cases h
  rw [Regs.mk.injEq]
  exact ⟨heq 1 (by decide), heq 2 (by decide), heq 3 (by decide), heq 4 (by decide), heq 5 (by decide), heq 6 (by decide),
    heq 7 (by decide), heq 8 (by decide), heq 9 (by decide), heq 10 (by decide), heq 11 (by decide), heq 12 (by decide),
    heq 13 (by decide), heq 14 (by decide)⟩

/-- The stack pointer is `x13`: where it is given a value, no other register changes (R10, R13). -/
theorem get_withSp (g : Regs) (w : Word) (q : Reg) :
    Regs.get { g with sp := w } q = if q = 13 then w else g.get q := by
  have hset : ({ g with sp := w } : Regs) = g.set 13 w := rfl
  rw [hset, Regs.get_set]
  by_cases h13 : q = 13
  · subst h13
    rfl
  · rw [if_neg fun h => h13 h.1, if_neg h13]

/-- Where the modification adds something, the register that ends modified is the stack pointer: it is not `x0` (R11, R164). -/
theorem modifiesSp_iff {v : BitVec 7} (hv : v ≠ 0#7) (q : Reg) : v ≠ 0#7 ∧ q = 13 ∧ q ≠ 0#4 ↔ q = 13 := by
  refine ⟨fun h => h.2.1, fun h => ⟨hv, h, ?_⟩⟩
  subst h
  decide

/-- Settles O54: `push` is the `str` with modification -1 of `sp` before the access (R168). -/
theorem pushStoresBelowTheStackPointer : Obligations.PushStoresBelowTheStackPointer := by
  intro s d c hc hd hram
  have haddr : accessAddr (s.readReg 13) 127 true = s.regs.sp - 1 := accessAddr_push s.regs.sp
  have hstr := (strStoresTheWord s c hc).1 d 13 127 true (.inr ⟨hd, by decide⟩)
  rw [haddr] at hstr
  obtain ⟨t, ht, ⟨hregs, hpc, hflags⟩, hsame, hmem⟩ := hstr hram
  refine ⟨t, ht, regs_ext fun q hq => ?_, hpc, hflags, hsame, hmem⟩
  have hsp : s.readReg 13 + (127 : BitVec 7).signExtend 32 = s.regs.sp - 1 := haddr
  refine Eq.trans ?_ (get_withSp _ _ q).symm
  rw [hregs q hq, hsp, if_congr (modifiesSp_iff (by decide) q) rfl rfl]

/-- Settles O55: `pop` is the `ldr` with modification +1 of `sp` after the access (R169). -/
theorem popLoadsAtTheStackPointer : Obligations.PopLoadsAtTheStackPointer := by
  intro s d f c hc hd hread
  obtain ⟨t, ht, ⟨hregs, hpc, hflags⟩, hsame, hmem⟩ :=
    (ldrLoadsTheWord s f c hc).1 d 13 1 false s.regs.sp (.inr ⟨hd, by decide⟩) rfl hread
  refine ⟨t, ht, fun q hq => ?_, hpc, hflags, hsame, hmem⟩
  have hsp : s.readReg 13 + (1 : BitVec 7).signExtend 32 = s.regs.sp + 1 := rfl
  rw [hregs q hq, hsp, if_congr (modifiesSp_iff (by decide) q) rfl rfl]
  rfl

/-- Settles O56: `pop` loads from where `push` stored, and `sp` ends where it was. -/
theorem pushThenPopRestores : Obligations.PushThenPopRestores := by
  intro s d h13 h15 hram
  obtain ⟨t, ht, htregs, _, htflags, _, htmem⟩ := pushStoresBelowTheStackPointer s d .always rfl h13 hram
  have hsp : t.regs.sp = s.regs.sp - 1 := by rw [htregs]
  have hread : isReadable t.regs.sp := .inr (hsp ▸ hram)
  obtain ⟨u, hu, huregs, _, huflags, _⟩ := popLoadsAtTheStackPointer t d false .always rfl h13 hread
  have hword : t.mem.read t.regs.sp.toNat = s.regs.get d := by
    rw [hsp, htmem, if_pos rfl, State.readReg_of_ne h15]
  have hback : t.regs.sp + 1 = s.regs.sp := by rw [hsp, BitVec.sub_add_cancel]
  have hother : ∀ q : Reg, q ≠ 13 → t.regs.get q = s.regs.get q := fun q hq => by
    rw [htregs]
    exact (get_withSp _ _ q).trans (if_neg hq)
  refine ⟨t, ht, u, hu, regs_ext fun q hq => ?_, huflags.trans htflags⟩
  rw [huregs q hq, hword, hback]
  split_ifs with hqd hq13
  · rw [hqd.1]
  · rw [hq13]
    rfl
  · exact hother q hq13

end Sys2Proof.Proofs
end

section
/-!
Branches (spec/43_branch.md R190, R191): the four formats of opcode 28 differ in their second operand only.
-/
namespace Sys2Proof.Proofs
open Sys2Proof Sys2Proof.Machine

/-- Linking writes `lr`, which is `x14`, and nothing else (R190). -/
theorem linkIf_eq (s : State) (f : Bool) :
    s.linkIf f = { s with regs := if f then { s.regs with lr := s.pc + 1 } else s.regs } := by
  cases f <;> rfl

/-- What a taken branch does to the whole state (R190). -/
theorem branch_eq (op2 : Word) (f : Bool) (s : State) :
    branch op2 f s = .next { s with
      pc := s.pc + 3 + op2
      regs := if f then { s.regs with lr := s.pc + 1 } else s.regs } := by
  rw [branch, linkIf_eq]
  rfl

/-- Settles O57: each format is, where its condition holds, the branch by its operand in the state before the link
(`branch_eq`). -/
theorem branchAddsTheOffsetAndLinks : Obligations.BranchAddsTheOffsetAndLinks := by
  intro s f c hc i op2 hform
  rw [← branch_eq]
  rcases hform with ⟨x, rfl, rfl⟩ | ⟨imm, rfl, rfl⟩ | ⟨imm, rfl, rfl⟩ | ⟨imm, rfl, rfl⟩
  all_goals exact guarded_of_holds _ hc

end Sys2Proof.Proofs
end

section
/-!
Control (spec/44_control.md R200 to R205): `setf`, `brk`, `wait` and the restart, and how a wait goes on and ends along a run.
-/
namespace Sys2Proof.Proofs
open Sys2Proof Sys2Proof.Machine

/-! ## The instructions and the restart -/

/-- Settles O21: the step is the restart (`step_of_restart`), which is the claimed update. -/
theorem restartChangesOnlyHold : Obligations.RestartChangesOnlyHold :=
  fun _ hturn => step_of_restart hturn

/-- What `setf` does to the whole state (R200). -/
theorem setFlagsFrom_eq (op2 : Word) (s : State) :
    setFlagsFrom op2 s = .next { s with
      pc := s.pc + 1
      flags := ⟨op2.getLsbD 3, op2.getLsbD 2, op2.getLsbD 1, op2.getLsbD 0⟩ } := rfl

/-- Settles O59: each format sets, where its condition holds, the flags from its operand (`setFlagsFrom_eq`). -/
theorem setfWritesTheLowFourBits : Obligations.SetfWritesTheLowFourBits := by
  intro s c hc i op2 hform
  rw [← setFlagsFrom_eq]
  rcases hform with ⟨x, rfl, rfl⟩ | ⟨imm, rfl, rfl⟩ | ⟨imm, rfl, rfl⟩ | ⟨imm, rfl, rfl⟩
  all_goals exact guarded_of_holds _ hc

/-- What `wait` does to the whole state (R202). -/
theorem waitFor_eq (k : Timer) (s : State) :
    waitFor k s = .next { s with pc := s.pc + 1, hold := if s.timer k = 0 then s.hold else .wait k } := by
  by_cases h0 : s.timer k = 0#32
  · simp [waitFor, h0, State.advance]
  · simp [waitFor, h0, State.advance]

/-- Settles O60: `brk` writes the claimed update, and each `wait` is `waitFor` its timer (`waitFor_eq`). -/
theorem brkAndWaitStopTheClock : Obligations.BrkAndWaitStopTheClock := by
  intro s c hc
  refine ⟨?_, ?_, ?_⟩
  · exact guarded_of_holds (fun s => .next { s.advance with hold := .brk }) hc
  · exact (guarded_of_holds _ hc).trans (waitFor_eq .t1 s)
  · exact (guarded_of_holds _ hc).trans (waitFor_eq .t2 s)

/-! ## Ticks come again and again -/

/-- After any number of moves there comes a tick, unless the run stops before it (R205; log 9). -/
theorem exists_tick_after (s : State) (N : Nat) :
    ∃ n ≥ N, ∀ u : State, Sys2Proof.core.run n s = .next u → u.turn = .tick := by
  obtain ⟨m, hm⟩ := Schedule.exists_tick (Schedule.next^[N] s.schedule)
  refine ⟨m + N, Nat.le_add_left N m, fun u hu => ?_⟩
  rw [State.turn, run_schedule hu, Function.iterate_add_apply]
  exact hm

/-! ## A wait along a run -/

/-- A run that ends in a state goes on with that state's step. -/
theorem run_succ_of_next {n : Nat} {s u t : State} (hrun : Sys2Proof.core.run n s = .next u) (hstep : step u = .next t) :
    Sys2Proof.core.run (n + 1) s = .next t := by
  induction n generalizing s with
  | zero =>
    cases (run_zero s).symm.trans hrun
    exact run_succ_next.2 ⟨t, hstep, run_zero t⟩
  | succ n ih =>
    obtain ⟨v, hv, hrun⟩ := run_succ_next.1 hrun
    exact run_succ_next.2 ⟨v, hv, ih hrun⟩

/-- A word is positive if it is not 0 and its sign bit is clear. -/
theorem toInt_pos_iff_toNat (v : Word) : 0 < v.toInt ↔ 0 < v.toNat ∧ v.toNat < 2 ^ 31 := by
  rw [BitVec.toInt_eq_toNat_cond]
  split <;> omega

/-- A tick takes one from a positive count (R20). -/
theorem toNat_tickWord_of_pos {v : Word} (hpos : 0 < v.toInt) : (tickWord v).toNat + 1 = v.toNat := by
  have hnat := (toInt_pos_iff_toNat v).1 hpos
  rw [tickWord_of_pos hpos]
  bv_omega

/-- How far a wait of `s` for timer `k` has come in `u`, after `m` ticks: the timer has counted `m` down, the clock is
stopped exactly while it does not stand at 0, and nothing but the timers has changed (R20, R22, R202). -/
structure WaitedTicks (s : State) (k : Timer) (m : Nat) (u : State) : Prop where
  timer : (u.timer k).toNat + m = (s.timer k).toNat
  hold : u.hold = if u.timer k = 0 then .running else .wait k
  pc : u.pc = s.pc
  flags : u.flags = s.flags
  mem : u.mem = s.mem
  get : ∀ q : Reg, q ≠ 11 → q ≠ 12 → u.regs.get q = s.regs.get q

/-- A wait for a positive timer, before any tick. -/
theorem WaitedTicks.start {s : State} {k : Timer} (hwait : s.hold = .wait k) (hpos : 0 < (s.timer k).toInt) :
    WaitedTicks s k 0 s where
  timer := rfl
  hold := by
    have hne : s.timer k ≠ 0 := fun h0 => by simp [h0] at hpos
    rw [hwait, if_neg hne]
  pc := rfl
  flags := rfl
  mem := rfl
  get _ _ _ := rfl

/-- While fewer ticks have come than the timer held, the timer does not stand at 0. -/
theorem WaitedTicks.timer_ne_zero {s u : State} {k : Timer} {m : Nat} (h : WaitedTicks s k m u)
    (hm : m < (s.timer k).toNat) : u.timer k ≠ 0 := by
  intro (h0 : u.timer k = 0#32)
  have hcount := h.timer
  rw [h0, BitVec.toNat_zero] at hcount
  omega

/-- While fewer ticks have come than the timer held, the clock is stopped. -/
theorem WaitedTicks.hold_of_lt {s u : State} {k : Timer} {m : Nat} (h : WaitedTicks s k m u)
    (hm : m < (s.timer k).toNat) : u.hold = .wait k := by
  rw [h.hold, if_neg (h.timer_ne_zero hm)]

/-- After as many ticks as the timer held, it stands at 0. -/
theorem WaitedTicks.timer_eq_zero {s u : State} {k : Timer} (h : WaitedTicks s k (s.timer k).toNat u) :
    u.timer k = 0 :=
  BitVec.eq_of_toNat_eq (Nat.add_eq_right.1 h.timer)

/-- A tick takes a wait one further (R20). -/
theorem WaitedTicks.succ {s u : State} {k : Timer} {m : Nat} (h : WaitedTicks s k m u) (hpos : 0 < (s.timer k).toInt)
    (hm : m < (s.timer k).toNat) : WaitedTicks s k (m + 1) (tick u.takeTurn) where
  timer := by
    have hcount := h.timer
    have hlt := ((toInt_pos_iff_toNat _).1 hpos).2
    have hupos : 0 < (u.timer k).toInt := (toInt_pos_iff_toNat _).2 (by omega)
    have hone := toNat_tickWord_of_pos hupos
    have hticked : (tick u.takeTurn).timer k = tickWord (u.timer k) := tick_timer u.takeTurn k
    rw [hticked]
    omega
  hold := tick_hold_of_wait (s := u.takeTurn) (h.hold_of_lt hm)
  pc := (tick_pc _).trans h.pc
  flags := (tick_flags _).trans h.flags
  mem := (tick_mem _).trans h.mem
  get q h11 h12 := (tick_get_of_no_timer u.takeTurn h11 h12).trans (h.get q h11 h12)

/-- The host keeps away: none of those moves is a restart, so the move after `m` of them is not (R204, R205). -/
theorem turn_ne_restart {n m : Nat} {s u : State} (haway : HostKeepsAway n s) (hm : m < n)
    (hrun : Sys2Proof.core.run m s = .next u) : u.turn ≠ .restart := by
  rw [State.turn, run_schedule hrun]
  exact haway m hm

/-- Up to as many moves as the timer holds, every move of a wait the host leaves alone is a tick (R202, R205). -/
theorem run_of_wait {s : State} {k : Timer} (hwait : s.hold = .wait k) (haway : HostKeepsAway (s.timer k).toNat s)
    (hpos : 0 < (s.timer k).toInt) {m : Nat} (hm : m ≤ (s.timer k).toNat) :
    ∃ u : State, Sys2Proof.core.run m s = .next u ∧ WaitedTicks s k m u := by
  induction m with
  | zero => exact ⟨s, run_zero s, .start hwait hpos⟩
  | succ m ih =>
    obtain ⟨u, hrun, hu⟩ := ih (Nat.le_of_succ_le hm)
    have hstopped : u.hold ≠ .running := by simp [hu.hold_of_lt hm]
    have hstep : step u = .next (tick u.takeTurn) := step_of_stopped hstopped (turn_ne_restart haway hm hrun)
    exact ⟨tick u.takeTurn, run_succ_of_next hrun hstep, hu.succ hpos hm⟩

/-- Settles O22: a tick comes after any number of moves because no schedule runs out of them (`exists_tick_after`); a wait
has made as many ticks as there were moves (`run_of_wait`), which says where it stands before and at its end. -/
theorem waitEndsAfterExactlyItsTicks : Obligations.WaitEndsAfterExactlyItsTicks := by
  refine ⟨fun s N => ?_, fun s k hwait haway hpos => ⟨fun m hm => ?_, ?_⟩⟩
  · obtain ⟨n, hn, htick⟩ := exists_tick_after s N
    refine ⟨n, hn, ?_⟩
    by_cases hstops : ∀ t, Sys2Proof.core.run n s ≠ .next t
    · exact .inl hstops
    · obtain ⟨u, hu⟩ := not_forall_not.1 hstops
      exact .inr ⟨u, hu, htick u hu, step_of_tick (htick u hu)⟩
  · obtain ⟨u, hrun, hu⟩ := run_of_wait hwait haway hpos hm.le
    exact ⟨u, hrun, hu.hold_of_lt hm, Nat.eq_sub_of_add_eq hu.timer⟩
  · obtain ⟨u, hrun, hu⟩ := run_of_wait hwait haway hpos le_rfl
    exact ⟨u, hrun, by rw [hu.hold, if_pos hu.timer_eq_zero], hu.timer_eq_zero, hu.pc, hu.flags, hu.mem, hu.get⟩

end Sys2Proof.Proofs
end
